-- ==== Sys2Proof/Word.lean ====
section
/-! DEFINITION. The two word types of the block and the plainest arithmetic of the spec's notation (R17, R18). -/

namespace Sys2Proof

/-- One byte of the data memory (R80). -/
abbrev Byte := BitVec 8

/-- One CSR, one address, one length: 32 bits (R8, R32). -/
abbrev Word := BitVec 32

/-- `ceil_div(a, b)` of R17, for `b >= 1`. -/
def ceilDiv (a b : Nat) : Nat := (a + b - 1) / b

end Sys2Proof
end

