-- ==== Sys2Proof/Syntax.lean ====
section
/-! DEFINITION. The commands: one constructor for each row of spec/opcode_table.json. -/

namespace Sys2Proof

/-- A command of the block (R111), with the fields of its word that the command reads (R112 to R114). -/
inductive Instr where
  /-- A job that does nothing (R286). -/
  | nop
  /-- Pack 32-bit values at `width` bits each (R155). -/
  | pack (width : Nat)
  /-- Unpack `NBITS_IN` bits into 32-bit values of `width` bits each (R156). -/
  | unpack (width : Nat)
  /-- Encode the source as one frame (R201). -/
  | lzwEnc
  /-- Decode one frame (R202). -/
  | lzwDec
  /-- Split the source into `n` chunks, encode each, build a container; with `ext`, append the extension (R240). -/
  | parEnc (n : Nat) (ext : Bool)
  /-- Parse a container, decode its frames; with `ext`, strip the extension first; `n` is ignored (R243, R244). -/
  | parDec (n : Nat) (ext : Bool)
  deriving DecidableEq, Repr

end Sys2Proof
end

