-- ==== Sys2Proof/WellFormed.lean ====
section
/-! DEFINITION. When a command has a command word: each field fits the bits R110 gives it. -/

namespace Sys2Proof

/-- `WIDTH` is bits 21:16, range 0 to 63 (R113). -/
def widthFits (w : Nat) : Bool := decide (w < 64)

/-- `N` is bits 15:8, range 0 to 255 (R112). -/
def countFits (n : Nat) : Bool := decide (n < 256)

/-- A command whose fields fit its word. A width outside 1..32 or a chunk count 0 is encodable: it is a BAD_ARGS job
failure when it runs (R116), not an ill-formed command. -/
def Instr.wf : Instr → Bool
  | .nop => true
  | .pack w => widthFits w
  | .unpack w => widthFits w
  | .lzwEnc => true
  | .lzwDec => true
  | .parEnc n _ => countFits n
  | .parDec n _ => countFits n

end Sys2Proof
end

