-- ==== Sys2Proof/Decode.lean ====
section
/-! DEFINITION. The command word (30_encoding.md section 1): its fields, the decoder, the opcode table and the encoder. -/

namespace Sys2Proof

/-- `OP`, bits 3:0 (R111). -/
def opField (v : Word) : Nat := (v.extractLsb' 0 4).toNat

/-- `N`, bits 15:8, zero-extended (R112). -/
def nField (v : Word) : Nat := (v.extractLsb' 8 8).toNat

/-- `WIDTH`, bits 21:16, zero-extended (R113). -/
def widthField (v : Word) : Nat := (v.extractLsb' 16 6).toNat

/-- `EXT`, bit 24 (R114). -/
def extField (v : Word) : Bool := v.getLsbD 24

/-- No reserved bit is set: bits 7:4, 23:22 and 31:25 are 0 (R115). -/
def reservedClear (v : Word) : Bool :=
  (v.extractLsb' 4 4).toNat == 0 && (v.extractLsb' 22 2).toNat == 0 && (v.extractLsb' 25 7).toNat == 0

/-- Why a word is no command (R283). -/
inductive BadWord where
  /-- A reserved bit is set (R115). -/
  | reservedBit
  /-- OP is 7 to 15 (R117). -/
  | reservedOp
  /-- A field that the OP requires to be 0 is not (R116). -/
  | fieldNotZero
  deriving DecidableEq, Repr

/-- The command `i`, if every field its OP requires to be 0 is 0 (R116). -/
def ifZero (zero : Bool) (i : Instr) : Except BadWord Instr :=
  if zero then .ok i else .error .fieldNotZero

/-- The decode check of R283: the command a word stands for, or the reason it stands for none. -/
def decode (v : Word) : Except BadWord Instr :=
  let noN := nField v == 0
  let noW := widthField v == 0
  let noE := !extField v
  if reservedClear v = false then .error .reservedBit
  else match opField v with
    | 0 => ifZero (noN && noW && noE) .nop
    | 1 => ifZero (noN && noE) (.pack (widthField v))
    | 2 => ifZero (noN && noE) (.unpack (widthField v))
    | 3 => ifZero (noN && noW && noE) .lzwEnc
    | 4 => ifZero (noN && noW && noE) .lzwDec
    | 5 => ifZero noW (.parEnc (nField v) (extField v))
    | 6 => ifZero noW (.parDec (nField v) (extField v))
    | _ => .error .reservedOp

/-- The command that the word numbered as in spec/opcode_table.json stands for: bit 0 is the word's least significant bit,
and every bit from `nbits` up is 0. A command is exactly one 32-bit word (R119). -/
def decodeTableWord (nbits w : Nat) : Option Instr :=
  (decode (BitVec.ofNat 32 (w % 2 ^ nbits))).toOption

/-- One row of spec/opcode_table.json: a word is the row's when it agrees with `pattern` on the bits of `mask`. -/
structure OpcodeRow where
  mnemonic : String
  mask : Word
  pattern : Word
  deriving DecidableEq, Repr

/-- The opcode table, row by row. -/
def opcodeTable : List OpcodeRow := [
  ⟨"NOP", 0xFFFFFFFF, 0x00000000⟩,
  ⟨"PACK", 0xFFC0FFFF, 0x00000001⟩,
  ⟨"UNPACK", 0xFFC0FFFF, 0x00000002⟩,
  ⟨"LZW_ENC", 0xFFFFFFFF, 0x00000003⟩,
  ⟨"LZW_DEC", 0xFFFFFFFF, 0x00000004⟩,
  ⟨"PAR_ENC", 0xFEFF00FF, 0x00000005⟩,
  ⟨"PAR_DEC", 0xFEFF00FF, 0x00000006⟩]

/-- The word is the row's. -/
def OpcodeRow.holds (r : OpcodeRow) (v : Word) : Bool := v &&& r.mask == r.pattern

/-- The mnemonic of a command in spec/opcode_table.json. -/
def Instr.mnemonic : Instr → String
  | .nop => "NOP"
  | .pack _ => "PACK"
  | .unpack _ => "UNPACK"
  | .lzwEnc => "LZW_ENC"
  | .lzwDec => "LZW_DEC"
  | .parEnc _ _ => "PAR_ENC"
  | .parDec _ _ => "PAR_DEC"

/-- The OP value of a command (R111). -/
def Instr.opcode : Instr → Nat
  | .nop => 0
  | .pack _ => 1
  | .unpack _ => 2
  | .lzwEnc => 3
  | .lzwDec => 4
  | .parEnc _ _ => 5
  | .parDec _ _ => 6

/-- The word with the given fields, every reserved bit 0 (the pattern of R110). -/
def assembleWord (op n w : Nat) (ext : Bool) : Word :=
  BitVec.ofNat 32 (op + 2 ^ 8 * n + 2 ^ 16 * w + 2 ^ 24 * ext.toNat)

/-- The word of a command (R110 to R116). -/
def encode (i : Instr) : Word :=
  match i with
  | .nop => assembleWord 0 0 0 false
  | .pack w => assembleWord 1 0 w false
  | .unpack w => assembleWord 2 0 w false
  | .lzwEnc => assembleWord 3 0 0 false
  | .lzwDec => assembleWord 4 0 0 false
  | .parEnc n ext => assembleWord 5 n 0 ext
  | .parDec n ext => assembleWord 6 n 0 ext

end Sys2Proof
end

