-- ==== Sys2Proof/Config.lean ====
section
/-! DEFINITION. What an implementation fixes: the parameters of 00_scope.md section 3, and the free values. -/

namespace Sys2Proof.Config

/-- `MAX_CHUNKS` (R11): the largest chunk count. -/
def maxChunks : Nat := 255

/-- `MAX_WIDTH` (R12): the largest bit width. -/
def maxWidth : Nat := 32

/-- `FIELD_MAX` (R13): the largest value a 4-byte wire field may hold. -/
def fieldMax : Nat := 2 ^ 31 - 1

/-- `PROGRESS_ONE` (R14): the PROGRESS value that stands for 1.0. -/
def progressOne : Nat := 65536

/-- The OPEN parameters, which the spec takes as arguments of the model (00_scope.md section 3). They stand in the state,
where no step changes them, so that a statement about every state speaks of every value of them (log entry 1). -/
structure Params where
  /-- `MEM_SIZE` (R7). -/
  memSize : Nat
  /-- `DICT_CAPACITY` (R9). -/
  dictCapacity : Nat
  /-- `N_ENGINES` (R10). -/
  nEngines : Nat
  /-- `PROGRESS_POINTS` (R15): a nominal count; R200 lets a session make any number of writes, so no rule reads it. -/
  progressPoints : Nat
  /-- `CSR_BASE` (R16): the platform's address of the CSR window; no rule reads it. -/
  csrBase : Nat
  deriving DecidableEq, Repr

/-- The legal values of R7, R9 and R10. -/
abbrev Params.legal (p : Params) : Prop :=
  1 ≤ p.memSize ∧ p.memSize ≤ 2 ^ 32 ∧ 256 ≤ p.dictCapacity ∧ p.dictCapacity ≤ 2 ^ 31 ∧
    1 ≤ p.nEngines ∧ p.nEngines ≤ 255

/-- The parameters of `State.reset`: the conventions of 95_test_vectors.md for `MEM_SIZE` and `DICT_CAPACITY`, the nominal 3 of
R15, and for the two that no result depends on the largest engine count and 0. DESIGN CHOICE, log entry 1. -/
def Params.default : Params where
  memSize := 0x10000
  dictCapacity := 2 ^ 31
  nEngines := 255
  progressPoints := 3
  csrBase := 0

/-- The value a byte of the data memory holds after power-on, by its address: any value (R353, U19). Log entry 2. -/
opaque powerOnByte : Nat → Byte

/-- The free values the machine draws, by their number: the draws of R96, R200, R289, R314 and R353. Log entry 3. -/
opaque freeValue : Nat → Nat

end Sys2Proof.Config
end

