-- ==== Sys2Proof/Machine/State.lean ====
section
/-! DEFINITION. The state of the block (10_state.md), the reasons a step can stop, and the state after reset. -/

namespace Sys2Proof.Machine

/-- The cause codes of R300. The reserved codes 9 to 15 have no name here: the block never writes them (R309, U28). -/
inductive Cause where
  | none
  | badCompressedCode
  | malformedContainer
  | malformedFrame
  | fieldOverflow
  | dictOverflow
  | badCommand
  | badArgs
  | outputOverflow
  deriving DecidableEq, Repr

/-- `raise Cause(info, pos)` of R20. -/
structure Raise where
  cause : Cause
  info : Nat
  pos : Nat
  deriving DecidableEq, Repr

/-- STATUS without BUSY, which is `phase` (R35 to R40). -/
structure Status where
  done : Bool := false
  err : Bool := false
  jobFail : Bool := false
  overrun : Bool := false
  deriving DecidableEq, Repr

/-- IRQ_EN (R41). -/
structure IrqEnable where
  doneIe : Bool := false
  errIe : Bool := false
  deriving DecidableEq, Repr

/-- The argument registers (R43 to R49). -/
structure Args where
  srcAddr : Word := 0
  srcLen : Word := 0
  dstAddr : Word := 0
  dstCap : Word := 0
  extAddr : Word := 0
  extLen : Word := 0
  nbitsIn : Word := 0
  deriving DecidableEq, Repr

/-- The result registers (R50 to R55, R61 to R64), each at the width of its field. -/
structure Results where
  dstLen : Word := 0
  nbitsOut : Word := 0
  codeCount : Word := 0
  dictSize : Word := 0
  bitWidth : BitVec 6 := 0
  progress : BitVec 17 := 0
  chunkCount : BitVec 8 := 0
  failCount : BitVec 8 := 0
  chunkCause : Vector Cause 255 := Vector.replicate 255 .none
  chunkSize : Vector Word 255 := Vector.replicate 255 0
  deriving DecidableEq, Repr

/-- The error registers (R56 to R60). -/
structure ErrorRegs where
  cause : Cause := .none
  chunk : Word := 0
  info : Word := 0
  pos : Word := 0
  jobCause : Cause := .none
  deriving DecidableEq, Repr

/-- The sequencer's phase (R66); `running` is STATUS.BUSY (R36). -/
inductive Phase where
  | idle
  | running
  deriving DecidableEq, Repr

/-- Which of its steps of R288 the sequencer takes next in a running job: step (2) or step (4). Log entry 7. -/
inductive Stage where
  | check
  | join
  deriving DecidableEq, Repr

/-- The latch `L` (R66): the command word and the argument registers as they were when the job started. -/
structure Latch where
  cmd : Word
  args : Args
  deriving DecidableEq, Repr

/-- The phase of a chunk slot (R68). -/
inductive SlotPhase where
  | pending
  | running
  | ok
  | failed
  deriving DecidableEq, Repr

/-- Encoder session state (R69). `dict` lists the sequences in the order of their codes, so that `D(s)` is the index of `s`,
`size` is the length, and a code is given out by appending (R181). -/
structure EncSession where
  dict : List (List Byte)
  cur : List Byte
  pos : Nat
  codes : List Nat
  deriving DecidableEq, Repr

/-- Decoder session state (R70): `dict` lists the sequences in the order of their codes, so that `E(k)` is the entry at `k` and
`size` is the length. `codes`, `nbits` and `width` are the session's input, unpacked from its frame (R190). -/
structure DecSession where
  codes : List Nat
  nbits : Nat
  width : Nat
  dict : List (List Byte)
  prev : List Byte
  pos : Nat
  out : List Byte
  deriving DecidableEq, Repr

/-- The session of a running worker. -/
inductive Session where
  | enc (e : EncSession)
  | dec (d : DecSession)
  deriving DecidableEq, Repr

/-- The numbers of a successful session that LZW_ENC and LZW_DEC report (R201, R202). -/
structure SessionInfo where
  nbits : Nat
  codeCount : Nat
  dictSize : Nat
  width : Nat
  deriving DecidableEq, Repr

/-- Which of the two sessions of R22 a job's workers run. -/
inductive Codec where
  | enc
  | dec
  deriving DecidableEq, Repr

/-- What a successful `encodeFrame` (R188) or `decodeFrame` (R190) returns: `out` is the frame, or the decoded bytes. -/
structure CodecResult where
  out : List Byte
  codes : List Nat
  dictSize : Nat
  width : Nat
  nbits : Nat
  deriving DecidableEq, Repr

/-- A chunk slot (R68), with the session of its worker while that runs (R69, R70, R72) and the numbers it leaves for the
join (log entry 7). -/
structure Slot where
  phase : SlotPhase := .pending
  input : List Byte
  out : List Byte := []
  cause : Cause := .none
  session : Option Session := Option.none
  info : Option SessionInfo := Option.none
  deriving DecidableEq, Repr

/-- The width of a host's CSR access (R89). -/
inductive AccessSize where
  | byte
  | half
  | word
  deriving DecidableEq, Repr

/-- One access of the host (R21, R129). -/
inductive HostAccess where
  /-- `WR <csr>, <imm32>`: write a word at an offset of the CSR window. -/
  | csrWrite (size : AccessSize) (offset : Nat) (v : Word)
  /-- `RD <csr>`. -/
  | csrRead (size : AccessSize) (offset : Nat)
  /-- `MEM <addr>, <b0> <b1> ...`. -/
  | memWrite (addr : Nat) (bytes : List Byte)
  /-- A read of one byte of the data memory. -/
  | memRead (addr : Nat)
  deriving DecidableEq, Repr

/-- Whose turn a step is (R21, R288). Log entries 4 to 6. -/
inductive Turn where
  /-- The host makes one access. -/
  | host (a : HostAccess)
  /-- The sequencer takes its next step. -/
  | sequencer
  /-- Worker `i` takes one unit. -/
  | worker (i : Nat)
  /-- `RUN <command>` (R130): the host writes the word to CMD and waits for the end, with no access in between. -/
  | run (w : Word)
  /-- `WAIT` (R130): the host polls STATUS until DONE = 1, and the engine moves meanwhile. -/
  | wait
  deriving DecidableEq, Repr

/-- The data memory: the bytes that have been written, addresses strictly rising. -/
abbrev Memory := List Host.Cell

/-- The state of the block, of the data memory it shares with the host, and of what the host will do. -/
structure State where
  /-- The OPEN parameters (R7, R9, R10, R15, R16); no step changes them. Log entry 1. -/
  params : Config.Params
  /-- STATUS (R35 to R40). -/
  status : Status
  /-- IRQ_EN (R41). -/
  irqEn : IrqEnable
  /-- CMD (R42). -/
  cmd : Word
  /-- SRC_ADDR to NBITS_IN (R43 to R49). -/
  args : Args
  /-- DST_LEN to PROGRESS, CHUNK_COUNT to CHUNK_SIZE (R50 to R55, R61 to R64). -/
  res : Results
  /-- ERR_CAUSE to JOB_CAUSE (R56 to R60). -/
  errs : ErrorRegs
  /-- The sequencer's phase (R66). -/
  phase : Phase
  /-- The sequencer's next step (R288, log entry 7). -/
  stage : Stage
  /-- The latch `L` (R66). -/
  latch : Option Latch
  /-- The error-once flag (R67). -/
  errOnce : Bool
  /-- The chunk slots (R68 to R70). -/
  slots : List Slot
  /-- The extension bytes the sequencer has read (R83, log entry 7). -/
  staged : List Byte
  /-- The host has written the latched buffers during this job (R96, log entry 9). -/
  tainted : Bool
  /-- The data memory (R80). -/
  mem : Memory
  /-- The turns to come (log entry 5). -/
  agenda : List Turn
  /-- What the last host read returned, the polls of WAIT and RUN left aside (log entry 12). -/
  hostRead : Option Word
  /-- How many free values have been drawn (log entry 3). -/
  draws : Nat
  deriving DecidableEq, Repr

/-- Why the machine stops although the instruction set has a meaning. -/
inductive Fault where
  /-- Raised by every command's meaning when the latch holds no value: R66 and U25 ask a model to fault there. Safe: no
  step reaches it, since a job start fills the latch. -/
  | latchEmpty
  /-- Raised by a host access to a data-memory address that is not below MEM_SIZE (R80, R93). Safe: the hardware gives such an
  access no effect. Log entry 11. -/
  | noSuchAddress
  deriving DecidableEq, Repr

/-- Why the machine gives a step no meaning. -/
inductive Refusal where
  /-- Raised by exec for a command that has no meaning yet. Safe. No arm raises it. -/
  | notModelled (mnemonic : String)
  /-- Raised by a host CSR access that is not an aligned 32-bit word: R89 and U24 ask a model to refuse it. Safe. -/
  | csrAccessNotAlignedWord
  /-- Raised by a host CSR access at an offset of 0x1000 or more, which is no register of the block (R32). Safe. Log entry 11. -/
  | csrOffsetOutsideWindow
  deriving DecidableEq, Repr

/-- What a step answers. -/
abbrev Outcome := Host.Outcome State Fault Refusal

/-- The state right after power-on reset with given parameters (R350 to R354): every register at its reset value, IDLE, no
latch, no slots, no session; nothing listed in the data memory (R353) and nothing asked by the host. -/
def State.resetWith (p : Config.Params) : State where
  params := p
  status := {}
  irqEn := {}
  cmd := 0
  args := {}
  res := {}
  errs := {}
  phase := .idle
  stage := .check
  latch := none
  errOnce := false
  slots := []
  staged := []
  tainted := false
  mem := []
  agenda := []
  hostRead := none
  draws := 0

/-- The machine right after reset. -/
def State.reset : State := State.resetWith Config.Params.default

end Sys2Proof.Machine
end

