-- ==== Sys2Proof/Machine/Bytes.lean ====
section
/-! DEFINITION. Byte order of the 4-byte fields (R18, R86) and bit order of packed streams (R87). -/

namespace Sys2Proof.Machine

/-- The byte of value `v mod 256`. -/
def byteOf (v : Nat) : Byte := BitVec.ofNat 8 v

/-- `LE32(v)` of R18: the four bytes of `v mod 2^32`, least significant first. -/
def le32 (v : Nat) : List Byte :=
  [byteOf v, byteOf (v / 256), byteOf (v / 65536), byteOf (v / 16777216)]

/-- `rdLE32(s, o)` of R18, unsigned. A byte past the end of `s` counts 0; no caller reads one. -/
def rdLE32 (s : List Byte) (o : Nat) : Nat :=
  (s.getD o 0).toNat + 256 * (s.getD (o + 1) 0).toNat + 65536 * (s.getD (o + 2) 0).toNat +
    16777216 * (s.getD (o + 3) 0).toNat

/-- `sext_32` of R17: the low 32 bits of `v` as two's complement. -/
def sext32 (v : Nat) : Int := (BitVec.ofNat 32 v).toInt

/-- The low `w` bits of `v`, most significant first (R87, R150, R151). -/
def valueBits (w v : Nat) : List Bool := (List.range w).map fun k => v.testBit (w - 1 - k)

/-- The value of bits written most significant first (R153). -/
def bitsValue (bits : List Bool) : Nat := bits.foldl (fun v b => 2 * v + b.toNat) 0

/-- The bit stream of a byte sequence: stream bit `k` is bit `7 - k mod 8` of byte `k div 8` (R87). -/
def streamOf (bytes : List Byte) : List Bool := bytes.flatMap fun b => valueBits 8 b.toNat

/-- The first `n` bytes of a bit stream (R87). -/
def bytesOfStream : Nat → List Bool → List Byte
  | 0, _ => []
  | n + 1, bits => byteOf (bitsValue (bits.take 8)) :: bytesOfStream n (bits.drop 8)

end Sys2Proof.Machine
end

