-- ==== Sys2Proof/Machine/Ops.lean ====
section
/-! DEFINITION. The named operations over memory and registers: data memory, free values, the life of a job (R282, R285), what
an error does (R311 to R313), the soft reset (R350). -/

namespace Sys2Proof.Machine

/-! ### Data memory (20_memory.md) -/

/-- The byte written at an address, if one has been. -/
def Memory.read? : Memory → Nat → Option Byte
  | [], _ => none
  | (k, b) :: rest, a => if k = a then some b else Memory.read? rest a

/-- Write one byte, keeping the addresses rising. -/
def Memory.write : Memory → Nat → Byte → Memory
  | [], a, v => [(a, v)]
  | (k, b) :: rest, a, v =>
    if a < k then (a, v) :: (k, b) :: rest
    else if a = k then (a, v) :: rest
    else (k, b) :: Memory.write rest a v

/-- `MemWrite(a, s)` of R80 on the written bytes. -/
def Memory.writeBytes (m : Memory) (a : Nat) : List Byte → Memory
  | [] => m
  | b :: bs => Memory.writeBytes (Memory.write m a b) (a + 1) bs

/-- The canonical form: addresses strictly rising. (An address that is not listed holds no written value, so no entry can
equal what an unlisted address holds.) -/
def Memory.wf : Memory → Bool
  | [] => true
  | [_] => true
  | x :: y :: rest => decide (x.1 < y.1) && Memory.wf (y :: rest)

/-- Every written address exists (R80). -/
def Memory.below (m : Memory) (size : Nat) : Bool := m.all fun c => decide (c.1 < size)

/-- The byte at an address: the one written there, or, where nothing has written, the value it held after power-on, which is
any value (R353). Log entry 2. -/
def State.readByte (s : State) (a : Nat) : Byte := (s.mem.read? a).getD (Config.powerOnByte a)

/-- `MemRead(a, n)` of R80. -/
def State.memRead (s : State) (a n : Nat) : List Byte := (List.range n).map fun k => s.readByte (a + k)

/-- `MemWrite(a, s)` of R80. -/
def State.memWrite (s : State) (a : Nat) (bytes : List Byte) : State :=
  { s with mem := s.mem.writeBytes a bytes }

/-! ### Free values -/

/-- `n` free bytes, drawn from number `k` on. -/
def freeBytes (k n : Nat) : List Byte := (List.range n).map fun j => byteOf (Config.freeValue (k + j))

/-- The `n` bytes at `a` take any value (R289, R353, R96). -/
def State.havoc (s : State) (a n : Nat) : State :=
  { s with mem := s.mem.writeBytes a (freeBytes s.draws n), draws := s.draws + n }

/-- The destination range of the latch takes any value, as far as it lies in the memory (R289, R353). -/
def State.havocDst (s : State) (L : Latch) : State :=
  s.havoc L.args.dstAddr.toNat (min L.args.dstCap.toNat (s.params.memSize - L.args.dstAddr.toNat))

/-! ### The life of a job -/

/-- Job start, one step (R282): CMD and the latch take their values, the flags but OVERRUN and every result and error
register are cleared, `err_once` is re-armed and the chunk slots are discarded. -/
def State.startJob (s : State) (v : Word) : State :=
  { s with
    cmd := v
    latch := some { cmd := v, args := s.args }
    phase := .running
    stage := .check
    status := { s.status with done := false, err := false, jobFail := false }
    res := {}
    errs := {}
    errOnce := false
    slots := []
    staged := []
    tainted := false }

/-- Job completion, one step (R285): IDLE, DONE, and the latch holds no value. -/
def State.complete (s : State) : State :=
  { s with
    phase := .idle
    stage := .check
    status := { s.status with done := true }
    latch := none
    staged := []
    tainted := false }

/-- The meaning of a command reads its arguments from the latch; reading it while it holds no value is a fault (R66, U25). -/
def State.withLatch (s : State) (k : Latch → State) : Outcome :=
  match s.latch with
  | none => .fault .latchEmpty
  | some L => .next (k L)

/-! ### Errors: what taking one saves (60_exceptions.md section 2) -/

/-- `capture(code, chunk, info, pos)`: an atomic test-and-set of `err_once` (R313). -/
def State.capture (s : State) (chunk : Word) (r : Raise) : State :=
  if s.errOnce then s
  else
    { s with
      errOnce := true
      errs := { s.errs with
        cause := r.cause
        chunk := chunk
        info := BitVec.ofNat 32 r.info
        pos := BitVec.ofNat 32 r.pos }
      status := { s.status with err := true } }

/-- ERR_CHUNK of a job-level error (R57, R312). -/
def jobLevel : Word := 0xFFFFFFFF

/-- Job failure (R312), up to the completion: capture, JOB_CAUSE and JOB_FAIL, and the five result registers cleared. -/
def State.recordJobFail (s : State) (r : Raise) : State :=
  let t := s.capture jobLevel r
  { t with
    errs := { t.errs with jobCause := r.cause }
    status := { t.status with jobFail := true }
    res := { t.res with dstLen := 0, nbitsOut := 0, codeCount := 0, dictSize := 0, bitWidth := 0 } }

/-- Job failure (R312): it is recorded, then the job completes (R285). -/
def State.jobFail (s : State) (r : Raise) : State := (s.recordJobFail r).complete

/-- What a chunk failure leaves in its slot: FAILED, the cause, no output, and no session (R311, R72). -/
def Slot.fail (sl : Slot) (r : Raise) : Slot :=
  { sl with phase := .failed, cause := r.cause, out := [], session := none, info := none }

/-- What a successful session leaves in its slot (R68, R72). -/
def Slot.succeed (sl : Slot) (r : CodecResult) : Slot :=
  { sl with
    phase := .ok
    cause := .none
    out := r.out
    session := none
    info := some { nbits := r.nbits, codeCount := r.codes.length, dictSize := r.dictSize, width := r.width } }

/-- Chunk failure of worker `i` (R311). -/
def State.chunkFail (s : State) (i : Nat) (r : Raise) : State :=
  State.capture
    { s with
      slots := s.slots.modify i fun sl => sl.fail r
      res := { s.res with
        chunkCause := s.res.chunkCause.setIfInBounds i r.cause
        chunkSize := s.res.chunkSize.setIfInBounds i 0
        failCount := s.res.failCount + 1 } }
    (BitVec.ofNat 32 i) r

/-! ### Output -/

/-- The end of a command that has an output (R155, R156, R201, R202, R240, R243): OUTPUT_OVERFLOW when `out` is longer than
DST_CAP (R308), which leaves any value in the destination range (R289); otherwise `out` is written at DST_ADDR, the rest of
the destination range takes any value (R289), the command's result registers are written and the job completes. -/
def State.deliver (s : State) (L : Latch) (out : List Byte) (regs : Results → Results) : State :=
  if L.args.dstCap.toNat < out.length then
    (s.jobFail { cause := .outputOverflow, info := min out.length (2 ^ 32 - 1), pos := 0 }).havocDst L
  else
    let t := (s.memWrite L.args.dstAddr.toNat out).havoc (L.args.dstAddr.toNat + out.length)
      (L.args.dstCap.toNat - out.length)
    State.complete { t with res := regs { t.res with dstLen := BitVec.ofNat 32 out.length } }

/-! ### Reset -/

/-- Soft reset (R350 to R353): every CSR at its reset value, IDLE, no latch, no slots; the data memory is unchanged, except that
the destination range of a running job takes any value. What is not the block's (the parameters, the memory, the host's own
turns) stays. Log entry 10. -/
def State.softReset (s : State) : State :=
  let t : State := { State.resetWith s.params with
    mem := s.mem, agenda := s.agenda, hostRead := s.hostRead, draws := s.draws }
  match s.phase, s.latch with
  | .running, some L => t.havocDst L
  | _, _ => t

end Sys2Proof.Machine
end

