-- ==== Sys2Proof/Machine/Operands.lean ====
section
/-! DEFINITION. The operands of a command: the latched buffers (R81, R291), when they are valid and when they overlap (R84, R85),
the common argument checks (R284), and the value words of PACK and UNPACK (R128). -/

namespace Sys2Proof.Machine

/-- A buffer: address and length (R80). -/
structure Buffer where
  addr : Nat
  len : Nat
  deriving DecidableEq, Repr

/-- The latched source buffer (R43, R44). -/
def Latch.src (L : Latch) : Buffer := ⟨L.args.srcAddr.toNat, L.args.srcLen.toNat⟩

/-- The latched destination buffer (R45, R46). -/
def Latch.dst (L : Latch) : Buffer := ⟨L.args.dstAddr.toNat, L.args.dstCap.toNat⟩

/-- The latched extension buffer (R47, R48). -/
def Latch.ext (L : Latch) : Buffer := ⟨L.args.extAddr.toNat, L.args.extLen.toNat⟩

/-- Valid (R84): inside the data memory, the sum a mathematical integer. -/
def Buffer.valid (b : Buffer) (memSize : Nat) : Bool := decide (b.addr + b.len ≤ memSize)

/-- Overlap (R85). -/
def Buffer.overlaps (b c : Buffer) : Bool :=
  decide (0 < b.len) && decide (0 < c.len) && decide (b.addr < c.addr + c.len) && decide (c.addr < b.addr + b.len)

/-- The address lies in the buffer. -/
def Buffer.holds (b : Buffer) (a : Nat) : Bool := decide (b.addr ≤ a) && decide (a < b.addr + b.len)

/-- The bytes of a buffer (R291). -/
def State.readBuffer (s : State) (b : Buffer) : List Byte := s.memRead b.addr b.len

/-- `raise BAD_ARGS(info, pos)` (R307). -/
def badArgs (info pos : Nat) : Raise := { cause := .badArgs, info := info, pos := pos }

/-- The common argument checks, in their order (R284); `usesExt` is `OP = PAR_ENC and L.CMD.EXT = 1`. -/
def argFault (memSize : Nat) (L : Latch) (usesExt : Bool) : Option Raise :=
  if !L.src.valid memSize then some (badArgs 3 0)
  else if !L.dst.valid memSize then some (badArgs 3 1)
  else if usesExt && !L.ext.valid memSize then some (badArgs 3 2)
  else if L.dst.overlaps L.src then some (badArgs 4 1)
  else if usesExt && L.dst.overlaps L.ext then some (badArgs 4 2)
  else none

/-- The value words of a byte sequence: 32-bit, unsigned, little-endian (R128). -/
def valueWords (bytes : List Byte) : List Nat :=
  (List.range (bytes.length / 4)).map fun k => rdLE32 bytes (4 * k)

/-- The bytes of value words (R128). -/
def wordBytes (vals : List Nat) : List Byte := vals.flatMap le32

end Sys2Proof.Machine
end

