-- ==== Sys2Proof/Machine/Flags.lean ====
section
/-! DEFINITION. The flags: STATUS as a word and its write-1-to-clear (R35 to R40), IRQ_EN (R41), the interrupt line (R317), and the
codes of the causes (R300). -/

namespace Sys2Proof.Machine

/-- The code of a cause, as the 4-bit cause fields hold it (R300). -/
def Cause.code : Cause → BitVec 4
  | .none => 0
  | .badCompressedCode => 1
  | .malformedContainer => 2
  | .malformedFrame => 3
  | .fieldOverflow => 4
  | .dictOverflow => 5
  | .badCommand => 6
  | .badArgs => 7
  | .outputOverflow => 8

/-- STATUS.BUSY equals `phase = RUNNING` (R36). -/
def State.busy (s : State) : Bool := s.phase == .running

/-- STATUS as the host reads it (R35); bits 31:5 read 0. -/
def State.statusWord (s : State) : Word :=
  BitVec.ofNat 32 (s.busy.toNat + 2 * s.status.done.toNat + 4 * s.status.err.toNat + 8 * s.status.jobFail.toNat +
    16 * s.status.overrun.toNat)

/-- A write to STATUS: 1 clears DONE, ERR, JOB_FAIL or OVERRUN, 0 leaves it; BUSY and the reserved bits ignore it (R35). This is
also how a host acknowledges an error (R321). -/
def Status.clearOnes (st : Status) (v : Word) : Status where
  done := st.done && !v.getLsbD 1
  err := st.err && !v.getLsbD 2
  jobFail := st.jobFail && !v.getLsbD 3
  overrun := st.overrun && !v.getLsbD 4

/-- IRQ_EN as the host reads it (R41). -/
def IrqEnable.word (e : IrqEnable) : Word := BitVec.ofNat 32 (e.doneIe.toNat + 2 * e.errIe.toNat)

/-- A write to IRQ_EN: the reserved bits are forced to 0 (R41, R280). -/
def IrqEnable.ofWord (v : Word) : IrqEnable := { doneIe := v.getLsbD 0, errIe := v.getLsbD 1 }

/-- The interrupt output, a level (R317). -/
def State.irq (s : State) : Bool := (s.status.done && s.irqEn.doneIe) || (s.status.err && s.irqEn.errIe)

end Sys2Proof.Machine
end

