-- ==== Sys2Proof/Machine/BitPacker.lean ====
section
/-! DEFINITION. BitPacker (40_bitpacker.md): `pack`, `unpack`, and the commands PACK and UNPACK. -/

namespace Sys2Proof.Machine

/-- `pack(vals, w)` of R150: the packed bytes and `totalBits`. Each value is cut to its low `w` bits (R151); the last byte is
padded with 0 (R152). -/
def pack (vals : List Nat) (w : Nat) : List Byte × Nat :=
  (bytesOfStream (ceilDiv (vals.length * w) 8) (vals.flatMap (valueBits w) ++ List.replicate 7 false),
    vals.length * w)

/-- The first `n` values of `w` bits of a stream (R153). -/
def valuesOfStream (w : Nat) : Nat → List Bool → List Nat
  | 0, _ => []
  | n + 1, bits => bitsValue (bits.take w) :: valuesOfStream w n (bits.drop w)

/-- `unpack(bytes, totalBits, w)` of R153; the remainder bits and everything after them are not read (R154). -/
def unpack (bytes : List Byte) (totalBits w : Nat) : List Nat :=
  valuesOfStream w (totalBits / w) (streamOf bytes)

/-- The job of PACK (R155). -/
def packJob (w : Nat) (L : Latch) (s : State) : State :=
  match argFault s.params.memSize L false with
  | some r => s.jobFail r
  | none =>
    if w < 1 ∨ Config.maxWidth < w then s.jobFail (badArgs 2 0)
    else if L.src.len % 4 ≠ 0 then s.jobFail (badArgs 6 0)
    else if L.src.len / 4 * w > Config.fieldMax then s.jobFail { cause := .fieldOverflow, info := 1, pos := 0 }
    else
      let vals := valueWords (s.readBuffer L.src)
      let packed := pack vals w
      s.deliver L packed.1 fun r => { r with
        nbitsOut := BitVec.ofNat 32 packed.2
        codeCount := BitVec.ofNat 32 vals.length
        bitWidth := BitVec.ofNat 6 w }

/-- The job of UNPACK (R156). -/
def unpackJob (w : Nat) (L : Latch) (s : State) : State :=
  match argFault s.params.memSize L false with
  | some r => s.jobFail r
  | none =>
    if w < 1 ∨ Config.maxWidth < w then s.jobFail (badArgs 2 0)
    else if L.src.len < ceilDiv L.args.nbitsIn.toNat 8 then s.jobFail (badArgs 7 0)
    else
      let vals := unpack (s.readBuffer L.src) L.args.nbitsIn.toNat w
      s.deliver L (wordBytes vals) fun r => { r with
        codeCount := BitVec.ofNat 32 vals.length
        bitWidth := BitVec.ofNat 6 w }

/-- PACK (R155). -/
def execPack (w : Nat) (s : State) : Outcome := s.withLatch fun L => packJob w L s

/-- UNPACK (R156). -/
def execUnpack (w : Nat) (s : State) : Outcome := s.withLatch fun L => unpackJob w L s

end Sys2Proof.Machine
end

