-- ==== Sys2Proof/Machine/Codec.lean ====
section
/-! DEFINITION. The LZW codec (41_lzw_codec.md sections 1 and 2): one unit of a session, whole sessions, frames. -/

namespace Sys2Proof.Machine

/-- The 256 one-byte sequences, in code order: the seed of both dictionaries (R180, R191). -/
def seedDict : List (List Byte) := (List.range 256).map fun b => [byteOf b]

/-- `D(s)`: the code of a sequence (R69). -/
def codeOf (dict : List (List Byte)) (seq : List Byte) : Nat := dict.idxOf seq

/-- `E(k)`: the sequence of a code (R70). -/
def seqOf (dict : List (List Byte)) (k : Nat) : List Byte := dict.getD k []

/-! ### Encoder -/

/-- A fresh encode session (R180, R182). -/
def EncSession.start : EncSession := { dict := seedDict, cur := [], pos := 0, codes := [] }

/-- One unit of an encode session: the input byte `c` at the scan position (R182, R187). -/
def EncSession.unit (cap : Nat) (c : Byte) (e : EncSession) : Except Raise EncSession :=
  if e.cur ++ [c] ∈ e.dict then .ok { e with cur := e.cur ++ [c], pos := e.pos + 1 }
  else if e.dict.length = cap then .error { cause := .dictOverflow, info := cap, pos := e.pos }
  else .ok {
    dict := e.dict ++ [e.cur ++ [c]]
    cur := [c]
    pos := e.pos + 1
    codes := e.codes ++ [codeOf e.dict e.cur] }

/-- The units of an encode session, byte after byte. -/
def EncSession.run (cap : Nat) : List Byte → EncSession → Except Raise EncSession
  | [], e => .ok e
  | c :: cs, e =>
    match e.unit cap c with
    | .error r => .error r
    | .ok e' => EncSession.run cap cs e'

/-- The codes of a session once the code of what is left in `cur` is emitted (R183). -/
def EncSession.flushed (e : EncSession) : List Nat :=
  if e.cur = [] then e.codes else e.codes ++ [codeOf e.dict e.cur]

/-- `lzwEncode(in)` of R182: the codes and `finalDictionarySize`. -/
def lzwEncode (cap : Nat) (input : List Byte) : Except Raise (List Nat × Nat) :=
  match EncSession.start.run cap input with
  | .error r => .error r
  | .ok e => .ok (e.flushed, e.dict.length)

/-- The least `w' >= w` with `2^w' >= s`, looked for over `fuel` values. -/
def leastWidth : Nat → Nat → Nat → Nat
  | 0, w, _ => w
  | fuel + 1, w, s => if s ≤ 2 ^ w then w else leastWidth fuel (w + 1) s

/-- `bitWidth(s)` of R186: the least `w` with `2^w >= s`. -/
def bitWidth (s : Nat) : Nat := leastWidth s 0 s

/-- The frame of a code list: `PackedBits ++ LE32(nbits) ++ [bitWidth]` (R120, R188). -/
def closeFrame (codes : List Nat) (dictSize : Nat) : Except Raise CodecResult :=
  let w := bitWidth dictSize
  if codes.length * w > Config.fieldMax then .error { cause := .fieldOverflow, info := 1, pos := 0 }
  else
    let packed := pack codes w
    .ok {
      out := packed.1 ++ le32 packed.2 ++ [byteOf w]
      codes := codes
      dictSize := dictSize
      width := w
      nbits := packed.2 }

/-- `encodeFrame(in)` of R188. -/
def encodeFrame (cap : Nat) (input : List Byte) : Except Raise CodecResult :=
  match lzwEncode cap input with
  | .error r => .error r
  | .ok (codes, dictSize) => closeFrame codes dictSize

/-! ### Decoder -/

/-- A fresh decode session for the codes of a frame (R191). -/
def DecSession.start (codes : List Nat) (nbits width : Nat) : DecSession :=
  { codes := codes, nbits := nbits, width := width, dict := seedDict, prev := [], pos := 0, out := [] }

/-- The sequence of code `k` at index 1 or later: known, or the KwKwK case, or none (R191, R193, R194). -/
def DecSession.entry? (d : DecSession) (k : Nat) : Option (List Byte) :=
  if k < d.dict.length then some (seqOf d.dict k)
  else if k = d.dict.length then some (d.prev ++ d.prev.take 1)
  else none

/-- One unit of a decode session: the code `k` at the code index (R191 to R197). -/
def DecSession.unit (cap : Nat) (k : Nat) (d : DecSession) : Except Raise DecSession :=
  if d.pos = 0 then
    if 256 ≤ k then .error { cause := .badCompressedCode, info := k, pos := 0 }
    else .ok { d with prev := seqOf d.dict k, out := seqOf d.dict k, pos := 1 }
  else
    match d.entry? k with
    | none => .error { cause := .badCompressedCode, info := k, pos := d.pos }
    | some e =>
      if d.dict.length = cap then .error { cause := .dictOverflow, info := cap, pos := d.pos }
      else .ok { d with
        out := d.out ++ e
        dict := d.dict ++ [d.prev ++ e.take 1]
        prev := e
        pos := d.pos + 1 }

/-- The units of a decode session, code after code. -/
def DecSession.run (cap : Nat) : List Nat → DecSession → Except Raise DecSession
  | [], d => .ok d
  | k :: ks, d =>
    match d.unit cap k with
    | .error r => .error r
    | .ok d' => DecSession.run cap ks d'

/-- `lzwDecode(codes)` of R191: the bytes and the final dictionary size; no code gives `([], 256)` (R196). -/
def lzwDecode (cap : Nat) (codes : List Nat) : Except Raise (List Byte × Nat) :=
  match (DecSession.start codes 0 0).run cap codes with
  | .error r => .error r
  | .ok d => .ok (d.out, d.dict.length)

/-- `raise MALFORMED_FRAME(info, 0)` (R303). -/
def malformedFrame (info : Nat) : Raise := { cause := .malformedFrame, info := info, pos := 0 }

/-- The structural checks of R190, in their order, and the trailer and codes of a frame: `(codes, nbits, width)`. -/
def readFrame (f : List Byte) : Except Raise (List Nat × Nat × Nat) :=
  let w := (f.getD (f.length - 1) 0).toNat
  let nb := sext32 (rdLE32 f (f.length - 5))
  if f.length < 5 then .error (malformedFrame 1)
  else if w < 1 ∨ Config.maxWidth < w then .error (malformedFrame 2)
  else if nb < 0 then .error (malformedFrame 3)
  else if f.length - 5 < ceilDiv nb.toNat 8 then .error (malformedFrame 4)
  else .ok (unpack (f.take (f.length - 5)) nb.toNat w, nb.toNat, w)

/-- `decodeFrame(f)` of R190. -/
def decodeFrame (cap : Nat) (f : List Byte) : Except Raise CodecResult :=
  match readFrame f with
  | .error r => .error r
  | .ok (codes, nbits, width) =>
    match lzwDecode cap codes with
    | .error r => .error r
    | .ok (out, size) => .ok { out := out, codes := codes, dictSize := size, width := width, nbits := nbits }

end Sys2Proof.Machine
end

