-- ==== Sys2Proof/Machine/Workers.lean ====
section
/-! DEFINITION. The chunk workers (R232 to R236, R311, R314): all the sessions of a job at once, for a command that runs with no host
access in between, and one worker's unit, for a job that the host watches. -/

namespace Sys2Proof.Machine

/-- The whole session of a worker on its chunk (R188, R190). -/
def sessionOf (codec : Codec) (cap : Nat) (input : List Byte) : Except Raise CodecResult :=
  match codec with
  | .enc => encodeFrame cap input
  | .dec => decodeFrame cap input

/-- `T`, the units of a session (R200): input bytes of an encode, codes of a decode. A frame that fails its checks has no
unit. -/
def unitsOf (codec : Codec) (input : List Byte) : Nat :=
  match codec with
  | .enc => input.length
  | .dec =>
    match readFrame input with
    | .ok (codes, _, _) => codes.length
    | .error _ => 0

/-- The units done when a session raises: all of them before FIELD_OVERFLOW, which follows the scan (R315), else the position. -/
def unitsBefore (codec : Codec) (input : List Byte) (r : Raise) : Nat :=
  if r.cause = .fieldOverflow then unitsOf codec input else r.pos

/-- The PROGRESS value `(d * 65536) div T` (R200). -/
def progressAt (d T : Nat) : BitVec 17 := BitVec.ofNat 17 (d * Config.progressOne / T)

/-- What PROGRESS holds after the session of the progress-wired worker (R200, R233): 65536 if it did not raise; else the value at
the last unit count it happened to report, any `d` from 0 (none) to the units done with `d < T`. Log entry 13. -/
def progressAfter (codec : Codec) (input : List Byte) (draw : Nat) : Except Raise CodecResult → BitVec 17
  | .ok _ => BitVec.ofNat 17 Config.progressOne
  | .error r =>
    let T := unitsOf codec input
    progressAt (Config.freeValue draw % (min (unitsBefore codec input r) (T - 1) + 1)) T

/-- What a session leaves in its slot. -/
def Slot.settle (sl : Slot) : Except Raise CodecResult → Slot
  | .ok r => sl.succeed r
  | .error r => sl.fail r

/-- The chunks that failed, with their raises, in index order. -/
def failuresOf (rs : List (Except Raise CodecResult)) : List (Nat × Raise) :=
  rs.zipIdx.filterMap fun (r, i) =>
    match r with
    | .ok _ => none
    | .error e => some (i, e)

/-- The capture of a job whose workers ran at the same time: any one of the failing chunks (R314), or none. -/
def State.captureOneOf (s : State) : List (Nat × Raise) → State
  | [] => s
  | [(i, r)] => s.capture (BitVec.ofNat 32 i) r
  | f :: g :: rest =>
    let fs := f :: g :: rest
    let pick := fs.getD (Config.freeValue s.draws % fs.length) f
    State.capture { s with draws := s.draws + 1 } (BitVec.ofNat 32 pick.1) pick.2

/-- CHUNK_CAUSE after the workers (R311): the cause of each failed chunk. -/
def causesAfter (rs : List (Except Raise CodecResult)) (old : Vector Cause 255) : Vector Cause 255 :=
  Vector.ofFn fun i =>
    match rs[i.val]? with
    | some (.error r) => r.cause
    | _ => old[i]

/-- CHUNK_SIZE after the workers (R311): 0 for each failed chunk. -/
def sizesAfter (rs : List (Except Raise CodecResult)) (old : Vector Word 255) : Vector Word 255 :=
  Vector.ofFn fun i =>
    match rs[i.val]? with
    | some (.error _) => 0
    | _ => old[i]

/-- The workers of a job from their start to the join, with no host access in between (R232 to R236). No result depends on their
order but the captured error and PROGRESS (R247). Log entry 6. -/
def State.runWorkers (codec : Codec) (s : State) : State :=
  let rs := s.slots.map fun sl => sessionOf codec s.params.dictCapacity sl.input
  let t := State.captureOneOf { s with
    slots := List.zipWith Slot.settle s.slots rs
    res := { s.res with
      chunkCause := causesAfter rs s.res.chunkCause
      chunkSize := sizesAfter rs s.res.chunkSize
      failCount := s.res.failCount + BitVec.ofNat 8 (failuresOf rs).length } } (failuresOf rs)
  match s.slots.getLast?, rs.getLast? with
  | some sl, some r =>
    { t with
      res := { t.res with progress := progressAfter codec sl.input t.draws r }
      draws := t.draws + 1 }
  | _, _ => t

/-! ### One worker, one unit (R21, R31, R287, R288) -/

/-- A worker of the slot has ended, with success or with a chunk failure (R235). -/
def Slot.ended (sl : Slot) : Bool := sl.phase == .ok || sl.phase == .failed

/-- How many sessions run (R248). -/
def runningCount (slots : List Slot) : Nat := slots.countP fun sl => sl.phase == .running

/-- A worker that can take a unit: its session runs, or it waits and an engine is free (R10, R248). -/
def Slot.canMove (nEngines : Nat) (slots : List Slot) (sl : Slot) : Bool :=
  sl.phase == .running || (sl.phase == .pending && decide (runningCount slots < nEngines))

/-- The session of worker `i` ended without a raise: its slot holds the result (R68), and the progress-wired worker writes 65536
(R200, R233). -/
def State.chunkOk (s : State) (i : Nat) (r : CodecResult) : State :=
  { s with
    slots := s.slots.modify i fun sl => sl.succeed r
    res := { s.res with
      progress := if i + 1 = s.slots.length then BitVec.ofNat 17 Config.progressOne else s.res.progress } }

/-- The session of worker `i` has done one more unit, `d` of `T`: the progress-wired worker may report it (R200, R233; a draw). -/
def State.chunkUnit (s : State) (i d T : Nat) (session : Session) : State :=
  let t := { s with slots := s.slots.modify i fun sl => { sl with phase := .running, session := some session } }
  if i + 1 = s.slots.length ∧ d < T then
    { t with
      res := { t.res with
        progress := if Config.freeValue t.draws % 2 = 1 then progressAt d T else t.res.progress }
      draws := t.draws + 1 }
  else t

/-- Worker `i` starts its session (R232, R180, R191); a decode checks its frame first (R190). -/
def State.startWorker (codec : Codec) (s : State) (i : Nat) (sl : Slot) : State :=
  let run (session : Session) : State :=
    { s with slots := s.slots.modify i fun sl => { sl with phase := .running, session := some session } }
  match codec with
  | .enc => run (.enc EncSession.start)
  | .dec =>
    match readFrame sl.input with
    | .error r => s.chunkFail i r
    | .ok (codes, nbits, width) => run (.dec (DecSession.start codes nbits width))

/-- Worker `i` takes one unit of its running session, or, when none is left, ends it. -/
def State.advanceWorker (s : State) (i : Nat) (sl : Slot) : Session → State
  | .enc e =>
    match sl.input[e.pos]? with
    | some c =>
      match e.unit s.params.dictCapacity c with
      | .error r => s.chunkFail i r
      | .ok e' => s.chunkUnit i e'.pos sl.input.length (.enc e')
    | none =>
      match closeFrame e.flushed e.dict.length with
      | .error r => s.chunkFail i r
      | .ok r => s.chunkOk i r
  | .dec d =>
    match d.codes[d.pos]? with
    | some k =>
      match d.unit s.params.dictCapacity k with
      | .error r => s.chunkFail i r
      | .ok d' => s.chunkUnit i d'.pos d.codes.length (.dec d')
    | none =>
      s.chunkOk i { out := d.out, codes := d.codes, dictSize := d.dict.length, width := d.width, nbits := d.nbits }

/-- The turn of worker `i` in a job of the given codec; a worker that cannot move lets its turn pass. -/
def State.workerStep (codec : Codec) (s : State) (i : Nat) : State :=
  match s.slots[i]? with
  | none => s
  | some sl =>
    if sl.canMove s.params.nEngines s.slots then
      match sl.phase, sl.session with
      | .pending, _ => s.startWorker codec i sl
      | .running, some session => s.advanceWorker i sl session
      | _, _ => s
    else s

end Sys2Proof.Machine
end

