-- ==== Sys2Proof/Machine/LzwCodec.lean ====
section
/-! DEFINITION. The single-chunk commands LZW_ENC and LZW_DEC (41_lzw_codec.md section 4). -/

namespace Sys2Proof.Machine

/-- The sequencer's first step of LZW_ENC and LZW_DEC: the common checks, the source bytes, one chunk (R201, R202). -/
def oneChunkStart (L : Latch) (s : State) : Except Raise State :=
  match argFault s.params.memSize L false with
  | some r => .error r
  | none => .ok { s with
      stage := .join
      slots := [{ input := s.readBuffer L.src }]
      res := { s.res with chunkCount := 1 } }

/-- The four result registers of a session that succeeded (R201, R202). -/
def Results.ofSession (res : Results) (info : SessionInfo) : Results :=
  { res with
    nbitsOut := BitVec.ofNat 32 info.nbits
    codeCount := BitVec.ofNat 32 info.codeCount
    dictSize := BitVec.ofNat 32 info.dictSize
    bitWidth := BitVec.ofNat 6 info.width }

/-- The sequencer's last step of LZW_ENC and LZW_DEC (R201, R202): a failed chunk's output is empty. -/
def oneChunkFinish (L : Latch) (s : State) : State :=
  match s.slots.head? with
  | none => s.deliver L [] id
  | some sl => s.deliver L sl.out fun r =>
      let r := { r with chunkSize := r.chunkSize.setIfInBounds 0 (BitVec.ofNat 32 sl.out.length) }
      match sl.info with
      | none => r
      | some info => r.ofSession info

/-- The job of LZW_ENC (R201), run with no host access in between. -/
def lzwEncJob (L : Latch) (s : State) : State :=
  match oneChunkStart L s with
  | .error r => s.jobFail r
  | .ok t => oneChunkFinish L (t.runWorkers .enc)

/-- The job of LZW_DEC (R202), run with no host access in between. -/
def lzwDecJob (L : Latch) (s : State) : State :=
  match oneChunkStart L s with
  | .error r => s.jobFail r
  | .ok t => oneChunkFinish L (t.runWorkers .dec)

/-- LZW_ENC (R201). -/
def execLzwEnc (s : State) : Outcome := s.withLatch fun L => lzwEncJob L s

/-- LZW_DEC (R202). -/
def execLzwDec (s : State) : Outcome := s.withLatch fun L => lzwDecJob L s

end Sys2Proof.Machine
end

