-- ==== Sys2Proof/Machine/Orchestrator.lean ====
section
/-! DEFINITION. The chunk orchestrator and the container (42_orchestrator.md): `split`, `assemble`, `parseContainer`, PAR_ENC, PAR_DEC. -/

namespace Sys2Proof.Machine

/-- Chunk `i` of `split(B, n)` (R230). -/
def chunkOf (bytes : List Byte) (n i : Nat) : List Byte :=
  let q := bytes.length / n
  if i + 1 = n then bytes.drop (i * q) else (bytes.drop (i * q)).take q

/-- `split(B, n)` of R230, for `n >= 1`: every chunk but the last has `len(B) div n` bytes, the last the rest. -/
def split (bytes : List Byte) (n : Nat) : List (List Byte) := (List.range n).map (chunkOf bytes n)

/-- `assemble(frames, x)` of R237: the frames, the size table, the chunk count, the extension. -/
def assemble (frames : List (List Byte)) (x : List Byte) : List Byte :=
  frames.flatten ++ frames.flatMap (fun f => le32 f.length) ++ [byteOf frames.length] ++ x

/-- `raise MALFORMED_CONTAINER(info, pos)` (R302). -/
def malformedContainer (info pos : Nat) : Raise := { cause := .malformedContainer, info := info, pos := pos }

/-- The entries of a size table that starts at `T`, for the indexes from `i` on (R241): signed 32-bit, none negative. -/
def sizeTable (s : List Byte) (T : Nat) : Nat → Nat → Except Raise (List Nat)
  | 0, _ => .ok []
  | left + 1, i =>
    let z := sext32 (rdLE32 s (T + 4 * i))
    if z < 0 then .error (malformedContainer 3 i)
    else match sizeTable s T left (i + 1) with
      | .error r => .error r
      | .ok zs => .ok (z.toNat :: zs)

/-- Consecutive slices of the given lengths (R241). -/
def slices (s : List Byte) : List Nat → List (List Byte)
  | [] => []
  | z :: zs => s.take z :: slices (s.drop z) zs

/-- `parseContainer(s, ext, xl)` of R241: the frames, or the first check that fails (R242). -/
def parseContainer (s : List Byte) (ext : Bool) (xl : Nat) : Except Raise (List (List Byte)) :=
  let C := if ext then s.length - xl else s.length
  let c := (s.getD (C - 1) 0).toNat
  let T := C - 1 - 4 * c
  if C < 1 then .error (malformedContainer 1 0)
  else if C - 1 < 4 * c then .error (malformedContainer 2 0)
  else match sizeTable s T c 0 with
    | .error r => .error r
    | .ok zs => if zs.sum ≠ T then .error (malformedContainer 4 0) else .ok (slices s zs)

/-- The sequencer's first step of PAR_ENC (R240). -/
def parEncStart (n : Nat) (ext : Bool) (L : Latch) (s : State) : Except Raise State :=
  match argFault s.params.memSize L ext with
  | some r => .error r
  | none =>
    if n = 0 then .error (badArgs 1 0)
    else .ok { s with
      stage := .join
      slots := (split (s.readBuffer L.src) n).map fun chunk => { input := chunk }
      staged := if ext then s.readBuffer L.ext else []
      res := { s.res with chunkCount := BitVec.ofNat 8 n } }

/-- The sequencer's first step of PAR_DEC (R243). -/
def parDecStart (ext : Bool) (L : Latch) (s : State) : Except Raise State :=
  match argFault s.params.memSize L false with
  | some r => .error r
  | none =>
    if ext = true ∧ L.src.len < L.ext.len then .error (badArgs 5 0)
    else match parseContainer (s.readBuffer L.src) ext L.ext.len with
      | .error r => .error r
      | .ok frames => .ok { s with
          stage := .join
          slots := frames.map fun f => { input := f }
          res := { s.res with chunkCount := BitVec.ofNat 8 frames.length } }

/-- CHUNK_SIZE after the join (R240, R243): the length of each chunk's result. -/
def sizesOf (slots : List Slot) (old : Vector Word 255) : Vector Word 255 :=
  Vector.ofFn fun i =>
    match slots[i.val]? with
    | some sl => BitVec.ofNat 32 sl.out.length
    | none => old[i]

/-- The sequencer's last step of PAR_ENC (R240): the container of the frames, a failed chunk's frame being empty (R236). -/
def parEncFinish (L : Latch) (s : State) : State :=
  s.deliver L (assemble (s.slots.map Slot.out) s.staged) fun r =>
    { r with chunkSize := sizesOf s.slots r.chunkSize }

/-- The sequencer's last step of PAR_DEC (R243): the chunks' outputs in index order (R245). -/
def parDecFinish (L : Latch) (s : State) : State :=
  s.deliver L (s.slots.map Slot.out).flatten fun r =>
    { r with chunkSize := sizesOf s.slots r.chunkSize }

/-- The job of PAR_ENC (R240), run with no host access in between. -/
def parEncJob (n : Nat) (ext : Bool) (L : Latch) (s : State) : State :=
  match parEncStart n ext L s with
  | .error r => s.jobFail r
  | .ok t => parEncFinish L (t.runWorkers .enc)

/-- The job of PAR_DEC (R243), run with no host access in between. -/
def parDecJob (ext : Bool) (L : Latch) (s : State) : State :=
  match parDecStart ext L s with
  | .error r => s.jobFail r
  | .ok t => parDecFinish L (t.runWorkers .dec)

/-- PAR_ENC (R240). -/
def execParEnc (n : Nat) (ext : Bool) (s : State) : Outcome := s.withLatch fun L => parEncJob n ext L s

/-- PAR_DEC (R243). Its chunk count is the container's own, so the command's N is not read (R244). -/
def execParDec (_n : Nat) (ext : Bool) (s : State) : Outcome := s.withLatch fun L => parDecJob ext L s

end Sys2Proof.Machine
end

