-- ==== Sys2Proof/Machine/Control.lean ====
section
/-! DEFINITION. Command control (43_control.md): NOP, and what a word that is no command does. -/

namespace Sys2Proof.Machine

/-- NOP (R286): no argument is read and no check is made; the job completes. Memory is unchanged (R118, log entry 8). -/
def execNop (s : State) : Outcome := .next s.complete

/-- A word that does not decode: a BAD_COMMAND job failure, with the word as its information (R283, R306). -/
def State.badCommand (s : State) (v : Word) : State :=
  s.jobFail { cause := .badCommand, info := v.toNat, pos := 0 }

end Sys2Proof.Machine
end

