-- ==== Sys2Proof/Machine/Csr.lean ====
section
/-! DEFINITION. The CSR window (10_state.md section 2): the map of R32, what a host reads at each register and what a host write does
(R280 to R282). -/

namespace Sys2Proof.Machine

/-- The registers of the window (R32); `reserved` is every offset the table does not name. -/
inductive Csr where
  | id | ctrl | status | irqEn | cmd
  | srcAddr | srcLen | dstAddr | dstCap | extAddr | extLen | nbitsIn
  | dstLen | nbitsOut | codeCount | dictSize | bitWidth | progress
  | errCause | errChunk | errInfo | errPos | jobCause | chunkCount | failCount
  | chunkCause (i : Fin 255)
  | chunkSize (i : Fin 255)
  | reserved
  deriving DecidableEq, Repr

/-- The size of the CSR window in bytes (R32). -/
def csrWindow : Nat := 4096

/-- The registers at offsets 0x000, 0x004, ... 0x060 (R32). -/
def namedCsrs : List Csr := [
  .id, .ctrl, .status, .irqEn, .cmd,
  .srcAddr, .srcLen, .dstAddr, .dstCap, .extAddr, .extLen, .nbitsIn,
  .dstLen, .nbitsOut, .codeCount, .dictSize, .bitWidth, .progress,
  .errCause, .errChunk, .errInfo, .errPos, .jobCause, .chunkCount, .failCount]

/-- The register at an aligned offset of the window (R32). -/
def csrAt (offset : Nat) : Csr :=
  if offset < 0x400 then namedCsrs.getD (offset / 4) .reserved
  else if offset < 0x800 then
    if h : (offset - 0x400) / 4 < 255 then .chunkCause ⟨(offset - 0x400) / 4, h⟩ else .reserved
  else
    if h : (offset - 0x800) / 4 < 255 then .chunkSize ⟨(offset - 0x800) / 4, h⟩ else .reserved

/-- The offset of a register in the window (R32); a reserved one is given the first reserved offset. -/
def Csr.offset : Csr → Nat
  | .chunkCause i => 0x400 + 4 * i
  | .chunkSize i => 0x800 + 4 * i
  | c => 4 * namedCsrs.idxOf c

/-- The constant of the ID register (R33). -/
def idWord : Word := 0x4C5A5701

/-- What a host read of a register returns (R33 to R64); it has no side effect (R91). Bits that are no field read 0. -/
def State.csrRead (s : State) : Csr → Word
  | .id => idWord
  | .ctrl => 0
  | .status => s.statusWord
  | .irqEn => s.irqEn.word
  | .cmd => s.cmd
  | .srcAddr => s.args.srcAddr
  | .srcLen => s.args.srcLen
  | .dstAddr => s.args.dstAddr
  | .dstCap => s.args.dstCap
  | .extAddr => s.args.extAddr
  | .extLen => s.args.extLen
  | .nbitsIn => s.args.nbitsIn
  | .dstLen => s.res.dstLen
  | .nbitsOut => s.res.nbitsOut
  | .codeCount => s.res.codeCount
  | .dictSize => s.res.dictSize
  | .bitWidth => s.res.bitWidth.setWidth 32
  | .progress => s.res.progress.setWidth 32
  | .errCause => s.errs.cause.code.setWidth 32
  | .errChunk => s.errs.chunk
  | .errInfo => s.errs.info
  | .errPos => s.errs.pos
  | .jobCause => s.errs.jobCause.code.setWidth 32
  | .chunkCount => s.res.chunkCount.setWidth 32
  | .failCount => s.res.failCount.setWidth 32
  | .chunkCause i => (s.res.chunkCause[i]).code.setWidth 32
  | .chunkSize i => s.res.chunkSize[i]
  | .reserved => 0

/-- A host write to an argument register: ignored while BUSY (R43, R280). -/
def State.writeArgs (s : State) (f : Args → Args) : State :=
  if s.busy then s else { s with args := f s.args }

/-- A host write to CMD: it starts a job (R282), or, while BUSY, is dropped and sets OVERRUN (R281). -/
def State.writeCmd (s : State) (v : Word) : State :=
  if s.busy then { s with status := { s.status with overrun := true } } else s.startJob v

/-- The effect of a host write to a register (R280); read-only and reserved registers ignore it. -/
def State.csrWrite (s : State) (v : Word) : Csr → State
  | .ctrl => if v.getLsbD 0 then s.softReset else s
  | .status => { s with status := s.status.clearOnes v }
  | .irqEn => { s with irqEn := IrqEnable.ofWord v }
  | .cmd => s.writeCmd v
  | .srcAddr => s.writeArgs fun a => { a with srcAddr := v }
  | .srcLen => s.writeArgs fun a => { a with srcLen := v }
  | .dstAddr => s.writeArgs fun a => { a with dstAddr := v }
  | .dstCap => s.writeArgs fun a => { a with dstCap := v }
  | .extAddr => s.writeArgs fun a => { a with extAddr := v }
  | .extLen => s.writeArgs fun a => { a with extLen := v }
  | .nbitsIn => s.writeArgs fun a => { a with nbitsIn := v }
  | .id => s
  | .dstLen => s
  | .nbitsOut => s
  | .codeCount => s
  | .dictSize => s
  | .bitWidth => s
  | .progress => s
  | .errCause => s
  | .errChunk => s
  | .errInfo => s
  | .errPos => s
  | .jobCause => s
  | .chunkCount => s
  | .failCount => s
  | .chunkCause _ => s
  | .chunkSize _ => s
  | .reserved => s

end Sys2Proof.Machine
end

