-- ==== Sys2Proof/Machine/Agents.lean ====
section
/-! DEFINITION. The steps of the agents (R21, R288): one access of the host, one step of the sequencer, one unit of a worker, and who
moves when the agenda names nobody. -/

namespace Sys2Proof.Machine

/-! ### The host -/

/-- A byte of one of the latched buffers of the running job (R96). -/
def State.latchedByte (s : State) (a : Nat) : Bool :=
  match s.phase, s.latch with
  | .running, some L => L.src.holds a || L.dst.holds a || L.ext.holds a
  | _, _ => false

/-- A byte of the destination range of the running job, which the host must not rely on (R96). -/
def State.inRunningDst (s : State) (a : Nat) : Bool :=
  match s.phase, s.latch with
  | .running, some L => L.dst.holds a
  | _, _ => false

/-- A CSR access that has a meaning: a word, aligned, inside the window (R32, R89). -/
def csrRefusal (size : AccessSize) (offset : Nat) : Option Refusal :=
  if size ≠ .word ∨ offset % 4 ≠ 0 then some .csrAccessNotAlignedWord
  else if csrWindow ≤ offset then some .csrOffsetOutsideWindow
  else none

/-- Host writes of bytes to the data memory (R129): a write to a latched buffer of a running job breaks R96. -/
def State.hostMemWrite (s : State) (a : Nat) (bytes : List Byte) : Outcome :=
  if s.params.memSize < a + bytes.length then .fault .noSuchAddress
  else .next { s.memWrite a bytes with
    tainted := s.tainted || (List.range bytes.length).any fun k => s.latchedByte (a + k) }

/-- A host read of one byte of the data memory. In the destination range of a running job it returns any value (R96, U23). -/
def State.hostMemRead (s : State) (a : Nat) : Outcome :=
  if s.params.memSize ≤ a then .fault .noSuchAddress
  else if s.inRunningDst a then
    .next { s with hostRead := some ((byteOf (Config.freeValue s.draws)).setWidth 32), draws := s.draws + 1 }
  else .next { s with hostRead := some ((s.readByte a).setWidth 32) }

/-- One access of the host. -/
def State.hostStep (s : State) : HostAccess → Outcome
  | .csrWrite size offset v =>
    match csrRefusal size offset with
    | some r => .refused r
    | none => .next (s.csrWrite v (csrAt offset))
  | .csrRead size offset =>
    match csrRefusal size offset with
    | some r => .refused r
    | none => .next { s with hostRead := some (s.csrRead (csrAt offset)) }
  | .memWrite a bytes => s.hostMemWrite a bytes
  | .memRead a => s.hostMemRead a

/-! ### The sequencer -/

/-- The state a first step leaves: its own, or that of the job failure it raised (R312). -/
def State.orFail (s : State) : Except Raise State → State
  | .ok t => t
  | .error r => s.jobFail r

/-- The sequencer's first step on a command that decodes (R284, R286 and the command's own checks): it completes NOP, PACK and
UNPACK, and readies the workers of the others. Log entry 14. -/
def firstStep (i : Instr) (L : Latch) (s : State) : State :=
  match i with
  | .nop => s.complete
  | .pack w => packJob w L s
  | .unpack w => unpackJob w L s
  | .lzwEnc => s.orFail (oneChunkStart L s)
  | .lzwDec => s.orFail (oneChunkStart L s)
  | .parEnc n ext => s.orFail (parEncStart n ext L s)
  | .parDec _ ext => s.orFail (parDecStart ext L s)

/-- The sequencer's last step (R288 (4)); the commands without workers have none. -/
def lastStep (i : Instr) (L : Latch) (s : State) : State :=
  match i with
  | .nop => s
  | .pack _ => s
  | .unpack _ => s
  | .lzwEnc => oneChunkFinish L s
  | .lzwDec => oneChunkFinish L s
  | .parEnc _ _ => parEncFinish L s
  | .parDec _ _ => parDecFinish L s

/-- The session the workers of a command run (R201, R202, R240, R243). -/
def codecOf : Instr → Option Codec
  | .nop => none
  | .pack _ => none
  | .unpack _ => none
  | .lzwEnc => some .enc
  | .lzwDec => some .dec
  | .parEnc _ _ => some .enc
  | .parDec _ _ => some .dec

/-- The cause a number draws: any of the codes 0 to 8 (R300). -/
def causeOfDraw (k : Nat) : Cause :=
  [Cause.none, .badCompressedCode, .malformedContainer, .malformedFrame, .fieldOverflow, .dictOverflow, .badCommand,
    .badArgs, .outputOverflow].getD (Config.freeValue k % 9) .none

/-- The outcome of a job whose buffers the host wrote while BUSY (R96, U22): any contents of the destination buffer, any value of
every result and error register, any ERR and JOB_FAIL. Log entry 9. -/
def State.scramble (s : State) (L : Latch) : State :=
  let k := s.draws
  let word (j : Nat) : Word := BitVec.ofNat 32 (Config.freeValue (k + j))
  State.havocDst { s with
    res := {
      dstLen := word 0
      nbitsOut := word 1
      codeCount := word 2
      dictSize := word 3
      bitWidth := BitVec.ofNat 6 (Config.freeValue (k + 4))
      progress := BitVec.ofNat 17 (Config.freeValue (k + 5) % (Config.progressOne + 1))
      chunkCount := BitVec.ofNat 8 (Config.freeValue (k + 6))
      failCount := BitVec.ofNat 8 (Config.freeValue (k + 7))
      chunkCause := Vector.ofFn fun i => causeOfDraw (k + 20 + i)
      chunkSize := Vector.ofFn fun i => word (300 + i) }
    errs := {
      cause := causeOfDraw (k + 8)
      chunk := word 9
      info := word 10
      pos := word 11
      jobCause := causeOfDraw (k + 12) }
    status := { s.status with
      err := Config.freeValue (k + 13) % 2 = 1
      jobFail := Config.freeValue (k + 14) % 2 = 1 }
    draws := k + 600 } L

/-- The step the sequencer takes by the rules of the job (R283, R288): its first, or, when every worker has ended (R235), its
last. -/
def State.sequencerRule (s : State) (L : Latch) : State :=
  match s.stage, decode L.cmd with
  | .check, .error _ => s.badCommand L.cmd
  | .check, .ok i => firstStep i L s
  | .join, .error _ => s
  | .join, .ok i => if s.slots.all Slot.ended then lastStep i L s else s

/-- The turn of the sequencer. Where it ends a job whose buffers the host has written, the outcome is a free draw (R96). -/
def State.sequencerStep (s : State) : State :=
  match s.phase, s.latch with
  | .running, some L =>
    let t := s.sequencerRule L
    if s.tainted ∧ t.phase = .idle then t.scramble L else t
  | _, _ => s

/-! ### The engine -/

/-- The turn of worker `i` in the running job. -/
def State.workerTurn (s : State) (i : Nat) : State :=
  match s.phase, s.stage, s.latch with
  | .running, .join, some L =>
    match decode L.cmd with
    | .error _ => s
    | .ok instr =>
      match codecOf instr with
      | none => s
      | some codec => s.workerStep codec i
  | _, _, _ => s

/-- The workers that can take a unit (R248). -/
def State.movable (s : State) : List Nat :=
  (List.range s.slots.length).filter fun i =>
    match s.slots[i]? with
    | some sl => sl.canMove s.params.nEngines s.slots
    | none => false

/-- The engine moves when the agenda names nobody: while IDLE nothing (R328); else the sequencer's first step, a worker that can
take a unit, any one of them (R247, U15), and the sequencer once none can. Log entry 5. -/
def State.engineStep (s : State) : State :=
  match s.phase, s.stage with
  | .idle, _ => s
  | .running, .check => s.sequencerStep
  | .running, .join =>
    match s.movable with
    | [] => s.sequencerStep
    | [i] => s.workerTurn i
    | i :: j :: rest =>
      let ws := i :: j :: rest
      State.workerTurn { s with draws := s.draws + 1 } (ws.getD (Config.freeValue s.draws % ws.length) i)

end Sys2Proof.Machine
end

