-- ==== Sys2Proof/Machine/Dispatch.lean ====
section
/-! DEFINITION. The meaning of each command: from the state right after a job start (R282) to the job's completion (R285). -/

namespace Sys2Proof.Machine

def exec (i : Instr) (s : State) : Host.Outcome State Fault Refusal :=
  match i with
  | .nop => Sys2Proof.Machine.execNop s
  | .pack width => Sys2Proof.Machine.execPack width s
  | .unpack width => Sys2Proof.Machine.execUnpack width s
  | .lzwEnc => Sys2Proof.Machine.execLzwEnc s
  | .lzwDec => Sys2Proof.Machine.execLzwDec s
  | .parEnc n ext => Sys2Proof.Machine.execParEnc n ext s
  | .parDec n ext => Sys2Proof.Machine.execParDec n ext s

end Sys2Proof.Machine
end

