-- ==== Sys2Proof/Machine/Turns.lean ====
section
/-! DEFINITION. The turns (R21, R130): a whole command, a poll, and who takes which turn. -/

namespace Sys2Proof.Machine

/-- `RUN <command>` (R130) while IDLE: the CMD write starts the job (R282), and the command runs to its completion, or completes as a
BAD_COMMAND job failure (R283). The reads of STATUS that its WAIT makes are not kept in `hostRead`: DESIGN CHOICE, log entry 12. -/
def runCommand (v : Word) (s : State) : Outcome :=
  match decode v with
  | .ok i => exec i (s.startJob v)
  | .error _ => .next ((s.startJob v).badCommand v)

/-- `RUN <command>` in any phase: while BUSY its CMD write is dropped (R281) and its WAIT waits for the running job. -/
def runTurn (v : Word) (s : State) : Outcome :=
  if s.busy then .next { s.writeCmd v with agenda := .wait :: s.agenda } else runCommand v s

/-- One poll of `WAIT` (R130): it ends when STATUS reads DONE = 1; until then the engine moves and the host polls again. The poll does
not keep the STATUS word it reads in `hostRead`: DESIGN CHOICE, log entry 12. -/
def waitTurn (s : State) : State :=
  if s.status.done then s else { s.engineStep with agenda := .wait :: s.agenda }

/-- One turn. -/
def turn (t : Turn) (s : State) : Outcome :=
  match t with
  | .host a => s.hostStep a
  | .sequencer => .next s.sequencerStep
  | .worker i => .next (s.workerTurn i)
  | .run v => runTurn v s
  | .wait => .next (waitTurn s)

end Sys2Proof.Machine
end

