-- ==== Sys2Proof/Machine/Step.lean ====
section
/-! DEFINITION. One step: the turn at the head of the agenda, or, where it names nobody, the engine's own. -/

namespace Sys2Proof.Machine

/-- One step of the machine. -/
def step (s : State) : Host.Outcome State Fault Refusal :=
  match s.agenda with
  | [] => .next s.engineStep
  | t :: rest => turn t { s with agenda := rest }

/-- The state in which the very next step is `RUN` of the word with the given bits (log entry 4). The block fetches nothing: a
command comes from the host's agenda, and runs when the block is IDLE. -/
def State.withFetchWord (s : State) (nbits w : Nat) : State :=
  { s with phase := .idle, agenda := .run (BitVec.ofNat 32 (w % 2 ^ nbits)) :: s.agenda }

end Sys2Proof.Machine
end

