-- ==== Sys2Proof/Safety.lean ====
section
/-! DEFINITION. The terms the claims use: a job that has just started, arguments that pass the checks, what a job keeps and what it
leaves, and the invariant of the machine. -/

namespace Sys2Proof.Machine

/-- The block right after a job start with latch `L` (R282): what `startJob` leaves, whatever the state before. -/
structure JustStarted (s : State) (L : Latch) : Prop where
  latch : s.latch = some L
  phase : s.phase = .running
  stage : s.stage = .check
  notDone : s.status.done = false
  noErr : s.status.err = false
  noJobFail : s.status.jobFail = false
  res : s.res = {}
  errs : s.errs = {}
  armed : s.errOnce = false
  slots : s.slots = []
  staged : s.staged = []
  untainted : s.tainted = false

/-- Two buffers share no byte: the negation of R85, spelled out. -/
def Buffer.Apart (b c : Buffer) : Prop :=
  b.len = 0 ∨ c.len = 0 ∨ c.addr + c.len ≤ b.addr ∨ b.addr + b.len ≤ c.addr

/-- The arguments pass the common checks of R284: every buffer the command uses lies in the memory, and the destination shares no
byte with a buffer the command reads. -/
structure ArgsPass (s : State) (L : Latch) (usesExt : Bool) : Prop where
  srcValid : L.src.addr + L.src.len ≤ s.params.memSize
  dstValid : L.dst.addr + L.dst.len ≤ s.params.memSize
  extValid : usesExt = true → L.ext.addr + L.ext.len ≤ s.params.memSize
  dstSrc : L.dst.Apart L.src
  dstExt : usesExt = true → L.dst.Apart L.ext

/-- Memory from `a` on holds the bytes. -/
def HoldsAt (t : State) (a : Nat) (bytes : List Byte) : Prop :=
  ∀ k (h : k < bytes.length), t.readByte (a + k) = bytes[k]

/-- Every byte outside the buffer is as before. -/
def KeptOutside (s t : State) (b : Buffer) : Prop :=
  ∀ a, ¬(b.addr ≤ a ∧ a < b.addr + b.len) → t.readByte a = s.readByte a

/-- Every byte of the memory is as before. -/
def MemoryKept (s t : State) : Prop := ∀ a, t.readByte a = s.readByte a

/-- What no command writes: IRQ_EN, CMD, the argument registers, STATUS.OVERRUN, the parameters, and what is the host's. -/
structure HostSideKept (s t : State) : Prop where
  params : t.params = s.params
  irqEn : t.irqEn = s.irqEn
  cmd : t.cmd = s.cmd
  args : t.args = s.args
  overrun : t.status.overrun = s.status.overrun
  agenda : t.agenda = s.agenda
  hostRead : t.hostRead = s.hostRead

/-- The job has completed (R285): IDLE, DONE, no latch. -/
structure Completed (t : State) : Prop where
  phase : t.phase = .idle
  done : t.status.done = true
  latch : t.latch = none

/-- A command that ends with the output `out` in its destination (R289): completed, DST_LEN and the bytes, nothing outside the
destination range changed, nothing of the host's side, and JOB_FAIL and JOB_CAUSE as before. -/
structure Delivered (s t : State) (L : Latch) (out : List Byte) : Prop where
  completed : Completed t
  dstLen : t.res.dstLen.toNat = out.length
  bytes : HoldsAt t L.dst.addr out
  outside : KeptOutside s t L.dst
  host : HostSideKept s t
  jobFail : t.status.jobFail = s.status.jobFail
  jobCause : t.errs.jobCause = s.errs.jobCause

/-- A job failure with the raise `r` in a job that had captured nothing (R312, R313): the records, the cleared registers. -/
structure JobFailed (s t : State) (r : Raise) : Prop where
  completed : Completed t
  jobFail : t.status.jobFail = true
  err : t.status.err = true
  errs : t.errs = {
    cause := r.cause, chunk := 0xFFFFFFFF, info := BitVec.ofNat 32 r.info, pos := BitVec.ofNat 32 r.pos, jobCause := r.cause }
  dstLen : t.res.dstLen = 0
  nbitsOut : t.res.nbitsOut = 0
  codeCount : t.res.codeCount = 0
  dictSize : t.res.dictSize = 0
  bitWidth : t.res.bitWidth = 0
  host : HostSideKept s t

/-- The output of a chunk: its session's result, or nothing where the session raised (R236). -/
def chunkOutput : Except Raise CodecResult → List Byte
  | .ok r => r.out
  | .error _ => []

/-- The cause a chunk leaves in CHUNK_CAUSE (R63). -/
def chunkCauseOf : Except Raise CodecResult → Cause
  | .ok _ => .none
  | .error r => r.cause

/-- The records of a job whose chunk sessions had the outcomes `rs` (R61 to R64, R311): CHUNK_COUNT, FAIL_COUNT and CHUNK_CAUSE. -/
structure ChunksRecorded (t : State) (rs : List (Except Raise CodecResult)) : Prop where
  count : t.res.chunkCount.toNat = rs.length
  fails : t.res.failCount.toNat = rs.countP fun r => chunkCauseOf r != .none
  causes : ∀ i (h : i < 255), t.res.chunkCause[i] = ((rs[i]?).map chunkCauseOf).getD .none

/-- CHUNK_SIZE of a job whose output was assembled (R64). -/
def SizesRecorded (t : State) (rs : List (Except Raise CodecResult)) : Prop :=
  ∀ i (h : i < 255), t.res.chunkSize[i] = BitVec.ofNat 32 (((rs[i]?).map fun r => (chunkOutput r).length).getD 0)

/-- The error registers of a job that no job failure ended (R311, R313, R314): nothing when no chunk failed; else the raise of one
failing chunk, any one. -/
def CapturedOneOf (t : State) (rs : List (Except Raise CodecResult)) : Prop :=
  ((∀ r ∈ rs, chunkCauseOf r = .none) ∧ t.status.err = false ∧ t.errOnce = false ∧ t.errs.cause = .none ∧ t.errs.chunk = 0 ∧
      t.errs.info = 0 ∧ t.errs.pos = 0) ∨
    ∃ (i : Nat) (r : Raise), rs[i]? = some (.error r) ∧ t.status.err = true ∧ t.errOnce = true ∧ t.errs.cause = r.cause ∧
      t.errs.chunk = BitVec.ofNat 32 i ∧ t.errs.info = BitVec.ofNat 32 r.info ∧ t.errs.pos = BitVec.ofNat 32 r.pos

/-- PROGRESS after a job whose last chunk had the outcome `r` (R200, R233): 65536 when it did not raise; else the last value the worker
reported, `(d * 65536) div T` for a count `d < T` of the units it had done, or 0. -/
def ProgressRecorded (t : State) (codec : Codec) (input : List Byte) : Except Raise CodecResult → Prop
  | .ok _ => t.res.progress.toNat = 65536
  | .error r => ∃ d, d ≤ unitsBefore codec input r ∧ (d = 0 ∨ d < unitsOf codec input) ∧
      t.res.progress.toNat = d * 65536 / unitsOf codec input

/-- The chunks that the sessions of a command work on (R201, R202, R240, R243); a command without workers has none. -/
def chunksOf (s : State) (L : Latch) : Instr → List (List Byte)
  | .nop => []
  | .pack _ => []
  | .unpack _ => []
  | .lzwEnc => [s.readBuffer L.src]
  | .lzwDec => [s.readBuffer L.src]
  | .parEnc n _ => split (s.readBuffer L.src) n
  | .parDec _ ext =>
    match parseContainer (s.readBuffer L.src) ext L.ext.len with
    | .ok frames => frames
    | .error _ => []

/-- The outcomes of the sessions of a command, in index order. -/
def sessionsOf (s : State) (L : Latch) (i : Instr) : List (Except Raise CodecResult) :=
  match codecOf i with
  | none => []
  | some .enc => (chunksOf s L i).map (encodeFrame s.params.dictCapacity)
  | some .dec => (chunksOf s L i).map (decodeFrame s.params.dictCapacity)

/-- The output of a command by its rule (R155, R156, R201, R202, R240, R243), DST_CAP left aside. -/
def outputOf (s : State) (L : Latch) (i : Instr) : List Byte :=
  match i with
  | .nop => []
  | .pack w => (pack (valueWords (s.readBuffer L.src)) w).1
  | .unpack w => wordBytes (unpack (s.readBuffer L.src) L.args.nbitsIn.toNat w)
  | .lzwEnc => ((sessionsOf s L i).map chunkOutput).flatten
  | .lzwDec => ((sessionsOf s L i).map chunkOutput).flatten
  | .parEnc _ ext => assemble ((sessionsOf s L i).map chunkOutput) (if ext then s.readBuffer L.ext else [])
  | .parDec _ _ => ((sessionsOf s L i).map chunkOutput).flatten

/-- The command reads the extension buffer (R81). -/
def usesExt : Instr → Bool
  | .nop => false
  | .pack _ => false
  | .unpack _ => false
  | .lzwEnc => false
  | .lzwDec => false
  | .parEnc _ ext => ext
  | .parDec _ _ => false

/-- The command's own checks before its workers pass (R155, R156, R240, R243). -/
def OwnChecksPass (s : State) (L : Latch) : Instr → Prop
  | .nop => True
  | .pack w => 1 ≤ w ∧ w ≤ 32 ∧ L.src.len % 4 = 0 ∧ L.src.len / 4 * w ≤ 2 ^ 31 - 1
  | .unpack w => 1 ≤ w ∧ w ≤ 32 ∧ L.args.nbitsIn.toNat ≤ 8 * L.src.len
  | .lzwEnc => True
  | .lzwDec => True
  | .parEnc n _ => 1 ≤ n ∧ n ≤ 255
  | .parDec _ ext => (ext = true → L.ext.len ≤ L.src.len) ∧
      ∃ frames, parseContainer (s.readBuffer L.src) ext L.ext.len = .ok frames

/-- The scan position of a session: `i` of an encode, `j` of a decode (R31). -/
def Session.scan : Session → Nat
  | .enc e => e.pos
  | .dec d => d.pos

/-- The units of the session of a slot (R200). -/
def Session.units (sl : Slot) : Session → Nat
  | .enc _ => sl.input.length
  | .dec d => d.codes.length

/-- A slot and CHUNK_CAUSE agree: a failed chunk has a cause, any other none. -/
def Slot.wf (sl : Slot) : Prop :=
  (sl.phase = .running ↔ sl.session.isSome = true) ∧ (sl.phase ≠ .failed ↔ sl.cause = .none)

/-- The invariant of the machine. -/
structure Inv (s : State) : Prop where
  /-- The parameters are legal (R7, R9, R10). -/
  legal : s.params.legal
  /-- The memory is in its canonical form and holds no address that does not exist (R80). -/
  memSorted : s.mem.wf = true
  memBelow : s.mem.below s.params.memSize = true
  /-- The latch holds a value exactly while a job runs (R66). -/
  latched : s.phase = .running ↔ s.latch.isSome = true
  /-- PROGRESS stands for a fraction of at most 1 (R55). -/
  progress : s.res.progress.toNat ≤ 65536
  /-- No more chunks than CHUNK_COUNT can hold (R11). -/
  slotCount : s.slots.length ≤ 255
  /-- No more sessions run than there are engines (R10, R248). -/
  engines : runningCount s.slots ≤ s.params.nEngines
  /-- Each slot agrees with itself (R68, R72). -/
  slotsWf : ∀ sl ∈ s.slots, sl.wf
  /-- While BUSY, DONE and JOB_FAIL are 0 (R37, R39). -/
  notDone : s.phase = .running → s.status.done = false ∧ s.status.jobFail = false
  /-- While BUSY, the registers that a job writes at its end read 0 (R358). -/
  pending : s.phase = .running → s.res.dstLen = 0 ∧ s.res.nbitsOut = 0 ∧ s.res.codeCount = 0 ∧ s.res.dictSize = 0 ∧
    s.res.bitWidth = 0 ∧ s.errs.jobCause = .none
  /-- While BUSY, nothing is recorded in the error registers before the first capture (R56 to R59, R313). -/
  uncaptured : s.phase = .running → s.errOnce = false → s.errs = {} ∧ s.status.err = false
  /-- Before the sequencer's first step there is no slot (R282, R288). -/
  fresh : s.phase = .running → s.stage = .check → s.slots = [] ∧ s.res = {} ∧ s.errOnce = false
  /-- After it, the latched word is a command that has workers (R288). -/
  command : s.phase = .running → s.stage = .join → ∃ L i, s.latch = some L ∧ decode L.cmd = .ok i ∧ (codecOf i).isSome = true
  /-- After it, the latched destination lies in the memory (R84, R284). -/
  bounds : s.phase = .running → s.stage = .join → ∀ L, s.latch = some L → L.dst.addr + L.dst.len ≤ s.params.memSize
  /-- While BUSY, CHUNK_COUNT is the number of slots, CHUNK_CAUSE[i] the cause of slot i and FAIL_COUNT the failed ones
  (R61 to R63, R311). -/
  chunkCount : s.phase = .running → s.res.chunkCount.toNat = s.slots.length
  chunkCause : s.phase = .running → ∀ i (h : i < 255), s.res.chunkCause[i] = ((s.slots[i]?).map Slot.cause).getD .none
  failCount : s.phase = .running → s.res.failCount.toNat = s.slots.countP fun sl => sl.phase == .failed
  /-- While BUSY, an error has been captured exactly when a chunk has failed: the capture is part of the failing worker's step
  (R311, R313), and a job failure ends the job. -/
  captured : s.phase = .running → (s.errOnce = true ↔ ∃ sl ∈ s.slots, sl.phase = .failed)
  /-- PROGRESS is not ahead of the progress-wired worker, the last one (R200, R233). -/
  wired : s.phase = .running → ∀ sl ∈ s.slots.getLast?, (sl.phase = .pending → s.res.progress = 0) ∧
    ∀ x ∈ sl.session, s.res.progress.toNat * x.units sl ≤ x.scan * 65536

end Sys2Proof.Machine
end

