-- ==== Sys2Proof/Certificates/Slice0/Obligations.lean ====
section
/-! DEFINITION. The statements for the provers. Each docstring names the rules of spec/ it formalises. -/

open Sys2Proof Sys2Proof.Machine

/-! ### Reset and the CSR window -/

/-- R351, R352, R354: after reset, whatever the parameters, every aligned offset of the CSR window reads its reset value, 0x4C5A5701 at ID
and 0 at every other; the block is IDLE, the latch holds no value, err_once is false, there is no chunk slot and so no session, and
IRQ is low with both interrupts masked. A reserved offset reads 0 at all times. -/
def Obligations.ResetValues : Prop :=
  (∀ (s : State) (off : Nat), off % 4 = 0 → off < 4096 → (0x064 ≤ off ∧ off < 0x400) ∨ off = 0x7FC ∨ 0xBFC ≤ off →
    s.csrRead (csrAt off) = 0) ∧
  ∀ p : Config.Params,
    (∀ off, off < 4096 → off % 4 = 0 → (State.resetWith p).csrRead (csrAt off) = if off = 0 then 0x4C5A5701 else 0) ∧
    (State.resetWith p).phase = .idle ∧ (State.resetWith p).latch = none ∧
    (State.resetWith p).errOnce = false ∧ (State.resetWith p).slots = [] ∧ (State.resetWith p).irq = false ∧
    (State.resetWith p).irqEn = { doneIe := false, errIe := false }

/-- The offsets that R32's table does not name read 0 and ignore writes, and ID reads its constant (R33) and CTRL 0 (R34), in every
state. -/
def Obligations.ReservedOffsetsReadZeroAndIgnoreWrites : Prop :=
  ∀ (s : State) (v : Word) (off : Nat), off % 4 = 0 → off < 4096 →
    ((0x064 ≤ off ∧ off < 0x400) ∨ off = 0x7FC ∨ 0xBFC ≤ off →
      s.csrRead (csrAt off) = 0 ∧ s.csrWrite v (csrAt off) = s) ∧
    (off = 0 → s.csrRead (csrAt off) = 0x4C5A5701 ∧ s.csrWrite v (csrAt off) = s) ∧
    (off = 4 → s.csrRead (csrAt off) = 0)

/-- R43 to R49, R280: while IDLE a host write to an argument register stores the word in that register, and changes what no other register
of the window reads and nothing else of the machine. -/
def Obligations.ArgumentWriteStoresTheWord : Prop :=
  ∀ (s : State) (rest : List Turn) (v : Word) (off : Nat), s.phase = .idle → off % 4 = 0 → 0x014 ≤ off → off ≤ 0x02C →
    s.agenda = .host (.csrWrite .word off v) :: rest →
    ∃ t, step s = .next t ∧ t.csrRead (csrAt off) = v ∧
      (∀ o, o % 4 = 0 → o < 4096 → o ≠ off → t.csrRead (csrAt o) = s.csrRead (csrAt o)) ∧
      t = { s with agenda := rest, args := t.args } ∧
      (off = 0x014 → t.args = { s.args with srcAddr := v }) ∧ (off = 0x018 → t.args = { s.args with srcLen := v }) ∧
      (off = 0x01C → t.args = { s.args with dstAddr := v }) ∧ (off = 0x020 → t.args = { s.args with dstCap := v }) ∧
      (off = 0x024 → t.args = { s.args with extAddr := v }) ∧ (off = 0x028 → t.args = { s.args with extLen := v }) ∧
      (off = 0x02C → t.args = { s.args with nbitsIn := v })

/-- R280, R43: a host write to a read-only or reserved offset changes nothing of the machine, in either phase, and while BUSY neither does
one to an argument register. -/
def Obligations.IgnoredCsrWrites : Prop :=
  ∀ (s : State) (rest : List Turn) (v : Word) (off : Nat), off % 4 = 0 → off < 4096 →
    off = 0 ∨ 0x030 ≤ off ∨ (s.phase = .running ∧ 0x014 ≤ off) →
    s.agenda = .host (.csrWrite .word off v) :: rest → step s = .next { s with agenda := rest }

/-- R35: STATUS holds BUSY, DONE, ERR, JOB_FAIL and OVERRUN in bits 0 to 4, and its other bits read 0. A host write, in either phase, clears
DONE, ERR, JOB_FAIL and OVERRUN where the written bit is 1 and leaves them where it is 0; BUSY and the reserved bits ignore it; nothing
else of the block changes. STATUS resets to 0. -/
def Obligations.StatusIsWriteOneToClear : Prop :=
  (∀ p, (State.resetWith p).statusWord = 0) ∧
  (∀ s : State, s.statusWord.getLsbD 0 = (s.phase == .running) ∧ s.statusWord.getLsbD 1 = s.status.done ∧
    s.statusWord.getLsbD 2 = s.status.err ∧ s.statusWord.getLsbD 3 = s.status.jobFail ∧
    s.statusWord.getLsbD 4 = s.status.overrun ∧ ∀ k, 5 ≤ k → s.statusWord.getLsbD k = false) ∧
  ∀ (s : State) (rest : List Turn) (v : Word), s.agenda = .host (.csrWrite .word 0x008 v) :: rest →
    ∃ t, step s = .next t ∧
      (∀ k, 1 ≤ k → k ≤ 4 → t.statusWord.getLsbD k = (s.statusWord.getLsbD k && !v.getLsbD k)) ∧
      t.statusWord.getLsbD 0 = s.statusWord.getLsbD 0 ∧ { t with status := s.status } = { s with agenda := rest }

/-- R41: a host write to IRQ_EN, in either phase, stores bits 1:0; the other bits read 0; nothing else of the block changes. IRQ_EN
resets to 0. -/
def Obligations.IrqEnableKeepsItsTwoBits : Prop :=
  (∀ p, (State.resetWith p).irqEn.word = 0) ∧
  ∀ (s : State) (rest : List Turn) (v : Word), s.agenda = .host (.csrWrite .word 0x00C v) :: rest →
    ∃ t, step s = .next t ∧ t.csrRead (csrAt 0x00C) = v &&& 3 ∧ { t with irqEn := s.irqEn } = { s with agenda := rest }

/-- R317: the interrupt line is DONE and DONE_IE, or ERR and ERR_IE, read off the two registers. -/
def Obligations.IrqFollowsStatusAndEnables : Prop :=
  ∀ s : State, s.irq = ((s.statusWord.getLsbD 1 && s.irqEn.word.getLsbD 0) || (s.statusWord.getLsbD 2 && s.irqEn.word.getLsbD 1))

/-- R89: a host CSR access that is not an aligned 32-bit word is refused, read or write, in every state. -/
def Obligations.UnalignedOrNarrowCsrAccessRefused : Prop :=
  ∀ (s : State) (rest : List Turn) (size : AccessSize) (off : Nat) (v : Word), size ≠ .word ∨ off % 4 ≠ 0 →
    (s.agenda = .host (.csrWrite size off v) :: rest → step s = .refused .csrAccessNotAlignedWord) ∧
    (s.agenda = .host (.csrRead size off) :: rest → step s = .refused .csrAccessNotAlignedWord)

/-- R32 to R64, R91, R300: what a host read of each offset of the window returns, zero-extended to 32 bits, in every state and phase; the
read has no side effect: all that changes is what the host has read (a field of the model, log entry 12). -/
def Obligations.CsrReadHasNoSideEffect : Prop :=
  ∀ s : State,
    let reads := fun (off : Nat) (w : Word) => ∀ rest, s.agenda = .host (.csrRead .word off) :: rest →
      step s = .next { s with agenda := rest, hostRead := some w }
    let code := fun c : Cause => match c with
      | .none => 0 | .badCompressedCode => 1 | .malformedContainer => 2 | .malformedFrame => 3 | .fieldOverflow => 4
      | .dictOverflow => 5 | .badCommand => 6 | .badArgs => 7 | .outputOverflow => 8
    (∀ off, off % 4 = 0 → off < 4096 → reads off (s.csrRead (csrAt off))) ∧
    reads 0x000 0x4C5A5701 ∧ reads 0x004 0 ∧
    reads 0x008 (BitVec.ofNat 32 ((s.phase == .running).toNat + 2 * s.status.done.toNat + 4 * s.status.err.toNat +
      8 * s.status.jobFail.toNat + 16 * s.status.overrun.toNat)) ∧
    reads 0x00C (BitVec.ofNat 32 (s.irqEn.doneIe.toNat + 2 * s.irqEn.errIe.toNat)) ∧ reads 0x010 s.cmd ∧
    reads 0x014 s.args.srcAddr ∧ reads 0x018 s.args.srcLen ∧ reads 0x01C s.args.dstAddr ∧ reads 0x020 s.args.dstCap ∧
    reads 0x024 s.args.extAddr ∧ reads 0x028 s.args.extLen ∧ reads 0x02C s.args.nbitsIn ∧
    reads 0x030 s.res.dstLen ∧ reads 0x034 s.res.nbitsOut ∧ reads 0x038 s.res.codeCount ∧ reads 0x03C s.res.dictSize ∧
    reads 0x040 (BitVec.ofNat 32 s.res.bitWidth.toNat) ∧ reads 0x044 (BitVec.ofNat 32 s.res.progress.toNat) ∧
    reads 0x048 (BitVec.ofNat 32 (code s.errs.cause)) ∧ reads 0x04C s.errs.chunk ∧ reads 0x050 s.errs.info ∧
    reads 0x054 s.errs.pos ∧ reads 0x058 (BitVec.ofNat 32 (code s.errs.jobCause)) ∧
    reads 0x05C (BitVec.ofNat 32 s.res.chunkCount.toNat) ∧ reads 0x060 (BitVec.ofNat 32 s.res.failCount.toNat) ∧
    (∀ i (h : i < 255), reads (0x400 + 4 * i) (BitVec.ofNat 32 (code s.res.chunkCause[i]))) ∧
    (∀ i (h : i < 255), reads (0x800 + 4 * i) s.res.chunkSize[i]) ∧
    (∀ off, off % 4 = 0 → off < 4096 → (0x064 ≤ off ∧ off < 0x400) ∨ off = 0x7FC ∨ 0xBFC ≤ off → reads off 0)

/-- R34, R350, R353: writing CTRL with bit 0 = 1, in either phase, puts every register at its reset value, the block IDLE with no latch,
no slot and err_once false; memory is unchanged, but for the destination range of a running job. Bit 0 = 0 does nothing, and CTRL
reads 0. -/
def Obligations.SoftResetRestoresResetState : Prop :=
  ∀ (s : State) (rest : List Turn) (v : Word), s.agenda = .host (.csrWrite .word 0x004 v) :: rest →
    s.csrRead (csrAt 0x004) = 0 ∧
    (v.getLsbD 0 = false → step s = .next { s with agenda := rest }) ∧
    (v.getLsbD 0 = true → ∃ t, step s = .next t ∧
      (∀ off, off < 4096 → off % 4 = 0 → t.csrRead (csrAt off) = if off = 0 then 0x4C5A5701 else 0) ∧
      t.phase = .idle ∧ t.latch = none ∧ t.errOnce = false ∧ t.slots = [] ∧ t.irq = false ∧ t.params = s.params ∧
      (∀ a, (∀ L, s.phase = .running → s.latch = some L → ¬(L.dst.addr ≤ a ∧ a < L.dst.addr + L.dst.len)) →
        t.readByte a = s.readByte a))

/-! ### The data memory -/

/-- R80, R91, R96: bytes the host writes are in the memory, every other byte is as before, and so is everything else of the machine but the
mark of R96. A host read returns the byte, or, in the destination range of a running job, any byte, and changes nothing else (what it
returns is a field of the model, log entry 12). An access past the last byte faults (the model's choice, log entry 11). -/
def Obligations.HostMemoryWriteIsReadBack : Prop :=
  ∀ (s : State) (rest : List Turn) (a : Nat),
    (∀ bytes, s.agenda = .host (.memWrite a bytes) :: rest →
      (a + bytes.length ≤ s.params.memSize → ∃ t, step s = .next t ∧ HoldsAt t a bytes ∧
        (∀ b, ¬(a ≤ b ∧ b < a + bytes.length) → t.readByte b = s.readByte b) ∧
        t = { s with agenda := rest, mem := t.mem, tainted := t.tainted }) ∧
      (s.params.memSize < a + bytes.length → step s = .fault .noSuchAddress)) ∧
    (s.agenda = .host (.memRead a) :: rest →
      let inRunningDst := ∃ L, s.phase = .running ∧ s.latch = some L ∧ L.dst.addr ≤ a ∧ a < L.dst.addr + L.dst.len
      (s.params.memSize ≤ a → step s = .fault .noSuchAddress) ∧
      (a < s.params.memSize → ¬inRunningDst →
        step s = .next { s with agenda := rest, hostRead := some (BitVec.ofNat 32 (s.readByte a).toNat) }) ∧
      (a < s.params.memSize → inRunningDst → ∃ b : Byte,
        step s = .next { s with agenda := rest, hostRead := some (BitVec.ofNat 32 b.toNat), draws := s.draws + 1 }))

/-! ### Command words -/

/-- The worked command words of 30_encoding.md section 1 stand for the commands it gives. -/
def Obligations.WorkedWordsDecode : Prop :=
  decode 0x00000000 = .ok .nop ∧ decode 0x00090001 = .ok (.pack 9) ∧ decode 0x00090002 = .ok (.unpack 9) ∧
  decode 0x00000003 = .ok .lzwEnc ∧ decode 0x00000004 = .ok .lzwDec ∧ decode 0x00000405 = .ok (.parEnc 4 false) ∧
  decode 0x01000205 = .ok (.parEnc 2 true) ∧ decode 0x01000006 = .ok (.parDec 0 true) ∧
  decode 0x00000406 = .ok (.parDec 4 false)

/-- Decoding the word of a command whose fields fit gives the command back, with every operand (R110 to R116). -/
def Obligations.DecodeOfEncode : Prop :=
  ∀ i : Instr, i.wf = true → decode (encode i) = .ok i

/-- Each word has one meaning: a word that decodes is the word of the command it decodes to, whose fields fit (R110 to R116). -/
def Obligations.EncodeOfDecode : Prop :=
  ∀ (v : Word) (i : Instr), decode v = .ok i → i.wf = true ∧ encode i = v

/-- R116: a word decodes exactly when a row of the opcode table has it, and then to that row's command. -/
def Obligations.DecodeAcceptsTheOpcodeTable : Prop :=
  ∀ (v : Word) (m : String), (∃ i, decode v = .ok i ∧ i.mnemonic = m) ↔
    ∃ r ∈ opcodeTable, r.mnemonic = m ∧ v &&& r.mask = r.pattern

/-! ### The life of a job -/

/-- A step runs the decoded command: where the block is IDLE and the host's next turn is RUN of a word that decodes to `i`, the step is
exec of `i` on the state that the job start leaves (R130, R282). That this is one step, and that its polls of STATUS leave `hostRead` as it
was, is the model's choice (log entries 6 and 12). -/
def Obligations.StepRunsTheDecodedCommand : Prop :=
  ∀ (s : State) (rest : List Turn) (v : Word) (i : Instr), s.phase = .idle → s.agenda = .run v :: rest → decode v = .ok i →
    step s = exec i (({ s with agenda := rest } : State).startJob v)

/-- R282: a host write of `v` to CMD while IDLE stores it, latches it with the arguments, makes the block BUSY, clears DONE, ERR and
JOB_FAIL but not OVERRUN and every result and error register, re-arms err_once and discards the slots; memory and the other
registers stay. The sequencer's first step is then the decode check (R283) and the checks and rule of the command. -/
def Obligations.CmdWriteStartsAJob : Prop :=
  ∀ (s : State) (rest : List Turn) (v : Word), s.phase = .idle → s.agenda = .host (.csrWrite .word 0x010 v) :: rest →
    ∃ t, step s = .next t ∧ JustStarted t { cmd := v, args := s.args } ∧ t.cmd = v ∧ t.args = s.args ∧ t.irqEn = s.irqEn ∧
      t.status.overrun = s.status.overrun ∧ t.mem = s.mem ∧ t.params = s.params ∧ t.agenda = rest ∧
      (∀ i, decode v = .ok i → t.sequencerStep = firstStep i { cmd := v, args := s.args } t) ∧
      (∀ b, decode v = .error b → t.sequencerStep = t.badCommand v)

/-- R281: a host write to CMD while BUSY is dropped and sets OVERRUN; nothing else changes. RUN (R130) is that write and then WAIT. WAIT ends
at a poll where DONE is 1, with nothing changed; at one where DONE is 0 the engine moves, as it does where nobody has the turn, and WAIT
polls again. That the engine moves at a poll is the model's choice (log entry 5), and so is that no poll changes `hostRead` (log
entry 12). -/
def Obligations.CmdWriteWhileBusyIsDropped : Prop :=
  ∀ (s : State) (rest : List Turn),
    (∀ v, s.phase = .running → s.agenda = .host (.csrWrite .word 0x010 v) :: rest →
      step s = .next { s with agenda := rest, status := { s.status with overrun := true } }) ∧
    (∀ v, s.phase = .running → s.agenda = .run v :: rest →
      step s = .next { s with agenda := .wait :: rest, status := { s.status with overrun := true } }) ∧
    (s.agenda = .wait :: rest → s.statusWord.getLsbD 1 = true → step s = .next { s with agenda := rest }) ∧
    (s.agenda = .wait :: rest → s.statusWord.getLsbD 1 = false →
      ∃ u, step { s with agenda := [] } = .next u ∧ step s = .next { u with agenda := .wait :: rest })

/-- R283, R306, R115, R117: a word that no row of the opcode table has completes, whether run at once or stepped by the sequencer, as a
BAD_COMMAND job failure with the word as its information; every result register is 0 and memory is unchanged. That RUN is one step that
leaves `hostRead` as it was, its polls of STATUS not kept, is the model's choice (log entries 6 and 12). -/
def Obligations.BadWordIsABadCommandJobFailure : Prop :=
  ∀ (s : State) (rest : List Turn) (v : Word), s.phase = .idle → s.agenda = .run v :: rest →
    (∀ r ∈ opcodeTable, v &&& r.mask ≠ r.pattern) →
    ∃ t, step s = .next t ∧ t.cmd = v ∧ t.res = {} ∧ MemoryKept s t ∧
      JobFailed { s with cmd := v, agenda := rest } t { cause := .badCommand, info := v.toNat, pos := 0 } ∧
      (({ s with agenda := rest } : State).startJob v).sequencerStep = t

/-- R66, U25: every command that reads the latch faults where it holds no value. -/
def Obligations.EmptyLatchFaults : Prop :=
  ∀ (i : Instr) (s : State), i ≠ .nop → s.latch = none → exec i s = .fault .latchEmpty

/-- R328, R281: while IDLE the engine does nothing, whoever of its agents has the turn. -/
def Obligations.IdleEngineDoesNothing : Prop :=
  ∀ (s : State) (rest : List Turn), s.phase = .idle →
    (s.agenda = [] → step s = .next s) ∧
    (s.agenda = .sequencer :: rest → step s = .next { s with agenda := rest }) ∧
    (∀ k, s.agenda = .worker k :: rest → step s = .next { s with agenda := rest })

/-- R359: while IDLE the result and error registers keep their values at every step but a job start or a reset; clearing STATUS bits does
not clear them, and a NOP does. -/
def Obligations.ResultsPersistUntilTheNextJob : Prop :=
  ∀ s t : State, s.phase = .idle → step s = .next t →
    ((∀ v rest, s.agenda ≠ .run v :: rest) → (∀ v rest, s.agenda ≠ .host (.csrWrite .word 0x004 v) :: rest) →
      (∀ v rest, s.agenda ≠ .host (.csrWrite .word 0x010 v) :: rest) → t.res = s.res ∧ t.errs = s.errs ∧ t.phase = .idle) ∧
    (∀ rest, s.agenda = .run 0 :: rest → t.res = {} ∧ t.errs = {} ∧ t.phase = .idle)

/-- R356, R357: no host access but a reset stops a running job or changes its command, its arguments or its chunks. -/
def Obligations.HostCannotStopARunningJob : Prop :=
  ∀ (s t : State) (a : HostAccess) (rest : List Turn), s.phase = .running → s.agenda = .host a :: rest → step s = .next t →
    (∀ v, a = .csrWrite .word 0x004 v → v.getLsbD 0 = false) →
    t.phase = .running ∧ t.latch = s.latch ∧ t.slots = s.slots ∧ t.stage = s.stage ∧ t.args = s.args ∧ t.cmd = s.cmd

/-- R96 as the model carries it (log entry 9): a host write of bytes of which any lies in a latched buffer of a running job marks the job, any
other write does not, and neither touches a register or anything else but those bytes. -/
def Obligations.HostWriteToALatchedBufferMarksTheJob : Prop :=
  ∀ (s : State) (L : Latch) (rest : List Turn) (a : Nat) (bytes : List Byte), s.phase = .running → s.latch = some L →
    a + bytes.length ≤ s.params.memSize → s.agenda = .host (.memWrite a bytes) :: rest →
    ∃ t, step s = .next t ∧ t = { s with agenda := rest, mem := t.mem, tainted := t.tainted } ∧
      (t.tainted = true ↔ s.tainted = true ∨ ∃ k, k < bytes.length ∧
        ((L.src.addr ≤ a + k ∧ a + k < L.src.addr + L.src.len) ∨ (L.dst.addr ≤ a + k ∧ a + k < L.dst.addr + L.dst.len) ∨
          (L.ext.addr ≤ a + k ∧ a + k < L.ext.addr + L.ext.len)))

/-! ### The commands -/

/-- R286: NOP completes with DONE = 1, ERR = JOB_FAIL = 0 and every result and error register 0, whatever the arguments hold, and is the
word 0 exactly; a word with OP 0 and any other bit set is no command. Memory is unchanged by R118, against R289's general sentence (log entry 8). -/
def Obligations.NopOnlyCompletes : Prop :=
  (∀ v : Word, opField v = 0 → (v = 0 ∧ decode v = .ok .nop) ∨ (v ≠ 0 ∧ ∃ b, decode v = .error b)) ∧
  ∀ (s : State) (L : Latch), JustStarted s L →
    ∃ t, exec .nop s = .next t ∧ Completed t ∧ t.res = {} ∧ t.errs = {} ∧ t.status.err = false ∧ t.status.jobFail = false ∧
      MemoryKept s t ∧ HostSideKept s t

/-- R155, R128: PACK writes the packed value words, each four bytes of the source, least significant first (R86), and their numbers. -/
def Obligations.PackWritesThePackedWords : Prop :=
  ∀ (w : Nat) (s : State) (L : Latch), JustStarted s L → ArgsPass s L false → OwnChecksPass s L (.pack w) →
    ceilDiv (L.src.len / 4 * w) 8 ≤ L.dst.len →
    (∀ k, k < L.src.len / 4 → (valueWords (s.readBuffer L.src))[k]? = some (
      (s.readByte (L.src.addr + 4 * k)).toNat + 2 ^ 8 * (s.readByte (L.src.addr + 4 * k + 1)).toNat +
      2 ^ 16 * (s.readByte (L.src.addr + 4 * k + 2)).toNat + 2 ^ 24 * (s.readByte (L.src.addr + 4 * k + 3)).toNat)) ∧
    ∃ t, exec (.pack w) s = .next t ∧ Delivered s t L (pack (valueWords (s.readBuffer L.src)) w).1 ∧
      t.res = {
        dstLen := BitVec.ofNat 32 (ceilDiv (L.src.len / 4 * w) 8)
        nbitsOut := BitVec.ofNat 32 (L.src.len / 4 * w)
        codeCount := BitVec.ofNat 32 (L.src.len / 4)
        bitWidth := BitVec.ofNat 6 w } ∧
      t.errs = {} ∧ t.status.err = false

/-- R156, R128: UNPACK writes the unpacked value words, each as four bytes, least significant first (R86), and their numbers. -/
def Obligations.UnpackWritesTheValueWords : Prop :=
  ∀ (w : Nat) (s : State) (L : Latch), JustStarted s L → ArgsPass s L false → OwnChecksPass s L (.unpack w) →
    4 * (L.args.nbitsIn.toNat / w) ≤ L.dst.len →
    ∃ t, exec (.unpack w) s = .next t ∧
      Delivered s t L (wordBytes (unpack (s.readBuffer L.src) L.args.nbitsIn.toNat w)) ∧
      (∀ k v, (unpack (s.readBuffer L.src) L.args.nbitsIn.toNat w)[k]? = some v →
        t.readByte (L.dst.addr + 4 * k) = BitVec.ofNat 8 v ∧ t.readByte (L.dst.addr + 4 * k + 1) = BitVec.ofNat 8 (v / 2 ^ 8) ∧
        t.readByte (L.dst.addr + 4 * k + 2) = BitVec.ofNat 8 (v / 2 ^ 16) ∧
        t.readByte (L.dst.addr + 4 * k + 3) = BitVec.ofNat 8 (v / 2 ^ 24)) ∧
      t.res = {
        dstLen := BitVec.ofNat 32 (4 * (L.args.nbitsIn.toNat / w))
        codeCount := BitVec.ofNat 32 (L.args.nbitsIn.toNat / w)
        bitWidth := BitVec.ofNat 6 w } ∧
      t.errs = {} ∧ t.status.err = false

/-- R201, R202: LZW_ENC and LZW_DEC, where the session of their one chunk succeeds and its result fits, write the frame, or the decoded
bytes, and the session's numbers. -/
def Obligations.SingleChunkCommandWritesItsResult : Prop :=
  ∀ (i : Instr) (codec : Codec) (s : State) (L : Latch) (r : CodecResult),
    (i = .lzwEnc ∧ codec = .enc) ∨ (i = .lzwDec ∧ codec = .dec) →
    JustStarted s L → ArgsPass s L false → sessionOf codec s.params.dictCapacity (s.readBuffer L.src) = .ok r →
    r.out.length ≤ L.dst.len →
    ∃ t, exec i s = .next t ∧ Delivered s t L r.out ∧
      t.res = {
        dstLen := BitVec.ofNat 32 r.out.length
        nbitsOut := BitVec.ofNat 32 r.nbits
        codeCount := BitVec.ofNat 32 r.codes.length
        dictSize := BitVec.ofNat 32 r.dictSize
        bitWidth := BitVec.ofNat 6 r.width
        progress := 65536
        chunkCount := 1
        chunkSize := (Vector.replicate 255 0).set 0 (BitVec.ofNat 32 r.out.length) } ∧
      t.errs = {} ∧ t.status.err = false

/-- R201, R202, R311: where the session of LZW_ENC or LZW_DEC raises, the job still completes with an empty output, the chunk's cause in
CHUNK_CAUSE[0] and the raise in the error registers; DST_LEN, NBITS_OUT, CODE_COUNT, DICT_SIZE and BIT_WIDTH are 0 and JOB_FAIL is
not set. -/
def Obligations.FailedSingleChunkLeavesEmptyOutput : Prop :=
  ∀ (i : Instr) (codec : Codec) (s : State) (L : Latch) (r : Raise),
    (i = .lzwEnc ∧ codec = .enc) ∨ (i = .lzwDec ∧ codec = .dec) →
    JustStarted s L → ArgsPass s L false → sessionOf codec s.params.dictCapacity (s.readBuffer L.src) = .error r →
    ∃ t, exec i s = .next t ∧ Delivered s t L [] ∧ ChunksRecorded t [.error r] ∧ SizesRecorded t [.error r] ∧
      ProgressRecorded t codec (s.readBuffer L.src) (.error r) ∧
      t.res.nbitsOut = 0 ∧ t.res.codeCount = 0 ∧ t.res.dictSize = 0 ∧ t.res.bitWidth = 0 ∧
      t.status.err = true ∧ t.status.jobFail = false ∧
      t.errs = { cause := r.cause, chunk := 0, info := BitVec.ofNat 32 r.info, pos := BitVec.ofNat 32 r.pos, jobCause := .none }

/-- R240: PAR_ENC, where the container fits, writes the container of the chunks' frames, a failed chunk's frame being empty, and records
each chunk. -/
def Obligations.ParEncWritesTheContainer : Prop :=
  ∀ (n : Nat) (ext : Bool) (s : State) (L : Latch), JustStarted s L → ArgsPass s L ext → 1 ≤ n → n ≤ 255 →
    let chunks := split (s.readBuffer L.src) n
    let rs := chunks.map (encodeFrame s.params.dictCapacity)
    let out := assemble (rs.map chunkOutput) (if ext then s.readBuffer L.ext else [])
    out.length ≤ L.dst.len →
    ∃ t, exec (.parEnc n ext) s = .next t ∧ Delivered s t L out ∧ ChunksRecorded t rs ∧ SizesRecorded t rs ∧
      CapturedOneOf t rs ∧
      (∀ chunk r, chunks.getLast? = some chunk → rs.getLast? = some r → ProgressRecorded t .enc chunk r) ∧
      t.res.nbitsOut = 0 ∧ t.res.codeCount = 0 ∧ t.res.dictSize = 0 ∧ t.res.bitWidth = 0 ∧ t.status.jobFail = false

/-- R243, R244, R245: PAR_DEC, where the container parses and the output fits, writes the chunks' outputs in index order, a failed
chunk's being empty, and records each chunk, whatever the command's N. -/
def Obligations.ParDecWritesTheChunksInOrder : Prop :=
  ∀ (n : Nat) (ext : Bool) (s : State) (L : Latch) (frames : List (List Byte)), JustStarted s L → ArgsPass s L false →
    (ext = true → L.ext.len ≤ L.src.len) → parseContainer (s.readBuffer L.src) ext L.ext.len = .ok frames →
    let rs := frames.map (decodeFrame s.params.dictCapacity)
    let out := (rs.map chunkOutput).flatten
    out.length ≤ L.dst.len →
    ∃ t, exec (.parDec n ext) s = .next t ∧ Delivered s t L out ∧ ChunksRecorded t rs ∧ SizesRecorded t rs ∧
      CapturedOneOf t rs ∧
      (∀ f r, frames.getLast? = some f → rs.getLast? = some r → ProgressRecorded t .dec f r) ∧
      (frames = [] → t.res.progress = 0) ∧
      t.res.nbitsOut = 0 ∧ t.res.codeCount = 0 ∧ t.res.dictSize = 0 ∧ t.res.bitWidth = 0 ∧ t.status.jobFail = false

/-! ### Job failures -/

/-- R284: for every command but NOP the five common checks are made in their order, and the first that fails is a BAD_ARGS job failure
before any memory access: every result register is 0 and memory is unchanged. -/
def Obligations.CommonArgumentChecks : Prop :=
  ∀ (i : Instr) (s : State) (L : Latch), i ≠ .nop → JustStarted s L →
    let srcOk := L.src.addr + L.src.len ≤ s.params.memSize
    let dstOk := L.dst.addr + L.dst.len ≤ s.params.memSize
    let extOk := usesExt i = true → L.ext.addr + L.ext.len ≤ s.params.memSize
    let failsWith := fun info pos => ∃ t, exec i s = .next t ∧ JobFailed s t { cause := .badArgs, info := info, pos := pos } ∧
      t.res = {} ∧ MemoryKept s t
    (¬srcOk → failsWith 3 0) ∧
    (srcOk ∧ ¬dstOk → failsWith 3 1) ∧
    (srcOk ∧ dstOk ∧ ¬extOk → failsWith 3 2) ∧
    (srcOk ∧ dstOk ∧ extOk ∧ ¬L.dst.Apart L.src → failsWith 4 1) ∧
    (srcOk ∧ dstOk ∧ extOk ∧ L.dst.Apart L.src ∧ usesExt i = true ∧ ¬L.dst.Apart L.ext → failsWith 4 2)

/-- R155, R156, R240, R243: where the common checks pass, each command's own argument checks are made in the order its rule lists, and the
first that fails is a job failure with the sub-condition R307 gives it (FIELD_OVERFLOW for PACK's bit count, R304); memory is
unchanged. -/
def Obligations.OwnArgumentChecks : Prop :=
  ∀ (s : State) (L : Latch) (w n : Nat) (ext : Bool), JustStarted s L →
    let failsWith := fun (i : Instr) (cause : Cause) (info : Nat) => ∃ t, exec i s = .next t ∧
      JobFailed s t { cause := cause, info := info, pos := 0 } ∧ t.res = {} ∧ MemoryKept s t
    (ArgsPass s L false →
      (¬(1 ≤ w ∧ w ≤ 32) → failsWith (.pack w) .badArgs 2 ∧ failsWith (.unpack w) .badArgs 2) ∧
      (1 ≤ w ∧ w ≤ 32 → L.src.len % 4 ≠ 0 → failsWith (.pack w) .badArgs 6) ∧
      (1 ≤ w ∧ w ≤ 32 → L.src.len % 4 = 0 → 2 ^ 31 - 1 < L.src.len / 4 * w → failsWith (.pack w) .fieldOverflow 1) ∧
      (1 ≤ w ∧ w ≤ 32 → 8 * L.src.len < L.args.nbitsIn.toNat → failsWith (.unpack w) .badArgs 7) ∧
      (ext = true ∧ L.src.len < L.ext.len → failsWith (.parDec n ext) .badArgs 5)) ∧
    (ArgsPass s L ext → failsWith (.parEnc 0 ext) .badArgs 1)

/-- R242: PAR_DEC of a source that does not parse is the job failure that `parseContainer` raises, before any worker starts: no chunk is
recorded, every result register is 0 and memory is unchanged. -/
def Obligations.MalformedContainerIsAJobFailure : Prop :=
  ∀ (n : Nat) (ext : Bool) (s : State) (L : Latch) (r : Raise), JustStarted s L → ArgsPass s L false →
    (ext = true → L.ext.len ≤ L.src.len) → parseContainer (s.readBuffer L.src) ext L.ext.len = .error r →
    ∃ t, exec (.parDec n ext) s = .next t ∧ r.cause = .malformedContainer ∧ JobFailed s t r ∧ t.res = {} ∧ MemoryKept s t

/-- R308, R312: an output longer than DST_CAP is an OUTPUT_OVERFLOW job failure after the workers have joined: JOB_CAUSE 8, DST_LEN,
NBITS_OUT, CODE_COUNT, DICT_SIZE and BIT_WIDTH 0, CHUNK_COUNT, FAIL_COUNT and CHUNK_CAUSE as the workers set them and every
CHUNK_SIZE 0; the error registers keep a chunk's error that was captured first (R316), and else hold the overflow's. PROGRESS keeps what
the last chunk's worker wrote (R65), and is 0 where there is no chunk. -/
def Obligations.OutputLongerThanCapacityFailsTheJob : Prop :=
  ∀ (i : Instr) (s : State) (L : Latch), i ≠ .nop → JustStarted s L → ArgsPass s L (usesExt i) → OwnChecksPass s L i →
    L.dst.len < (outputOf s L i).length →
    ∃ t, exec i s = .next t ∧ Completed t ∧ t.status.jobFail = true ∧ t.status.err = true ∧
      t.errs.jobCause = .outputOverflow ∧ t.res.dstLen = 0 ∧ t.res.nbitsOut = 0 ∧ t.res.codeCount = 0 ∧ t.res.dictSize = 0 ∧
      t.res.bitWidth = 0 ∧ ChunksRecorded t (sessionsOf s L i) ∧ (∀ k (h : k < 255), t.res.chunkSize[k] = 0) ∧
      (∀ codec chunk r, codecOf i = some codec → (chunksOf s L i).getLast? = some chunk →
        (sessionsOf s L i).getLast? = some r → ProgressRecorded t codec chunk r) ∧
      (chunksOf s L i = [] → t.res.progress = 0) ∧
      ((∀ r ∈ sessionsOf s L i, chunkCauseOf r = .none) → JobFailed s t
        { cause := .outputOverflow, info := min (outputOf s L i).length (2 ^ 32 - 1), pos := 0 }) ∧
      ((∃ r ∈ sessionsOf s L i, chunkCauseOf r ≠ .none) → CapturedOneOf t (sessionsOf s L i)) ∧
      KeptOutside s t L.dst ∧ HostSideKept s t

/-! ### Frames over all commands -/

/-- R81, R96, R285, R289: whatever a command does, it completes, no byte outside the latched destination range changes, and neither do IRQ_EN,
CMD, the argument registers, OVERRUN and what is the host's. The same frame holds of every step of the engine, whoever moves, and at the
end of a job whose buffers the host has written: no byte outside the latched destination range changes, nor those registers. That a poll
of WAIT, which reads STATUS (R130), leaves `hostRead` as it was is the model's choice (log entry 12). -/
def Obligations.CommandsWriteOnlyTheDestination : Prop :=
  (∀ (i : Instr) (s t : State) (L : Latch), s.latch = some L → exec i s = .next t →
    Completed t ∧ KeptOutside s t L.dst ∧ HostSideKept s t) ∧
  ∀ (s t : State) (L : Latch), s.latch = some L → step s = .next t →
    s.agenda = [] ∨ (∃ x rest, s.agenda = x :: rest ∧ (x = .sequencer ∨ x = .wait ∨ ∃ i, x = .worker i)) →
    KeptOutside s t L.dst ∧ HostSideKept { s with agenda := t.agenda } t

/-- R289: a job failure other than OUTPUT_OVERFLOW leaves every byte of the memory unchanged. -/
def Obligations.EarlyJobFailureLeavesMemory : Prop :=
  ∀ (i : Instr) (s t : State) (L : Latch), JustStarted s L → exec i s = .next t → t.status.jobFail = true →
    t.errs.jobCause ≠ .outputOverflow → MemoryKept s t

/-- R81, R101: a command reads no byte but those of the latched source buffer, and for PAR_ENC with EXT of the extension buffer: on two
memories that agree on these, the registers it leaves are equal and so are the bytes of its output. -/
def Obligations.CommandsReadOnlyTheirBuffers : Prop :=
  ∀ (i : Instr) (s : State) (m : Memory) (L : Latch), JustStarted s L →
    (∀ a, L.src.addr ≤ a ∧ a < L.src.addr + L.src.len → ({ s with mem := m } : State).readByte a = s.readByte a) →
    (usesExt i = true → ∀ a, L.ext.addr ≤ a ∧ a < L.ext.addr + L.ext.len →
      ({ s with mem := m } : State).readByte a = s.readByte a) →
    ∃ t u, exec i s = .next t ∧ exec i { s with mem := m } = .next u ∧ u.res = t.res ∧ u.errs = t.errs ∧ u.status = t.status ∧
      u.slots = t.slots ∧ ∀ k, k < t.res.dstLen.toNat → u.readByte (L.dst.addr + k) = t.readByte (L.dst.addr + k)

/-! ### The bit packer -/

/-- R150, R151, R152: `pack` gives `ceil(n*w/8)` bytes and `n*w` bits; stream bit `k` is bit `w-1 - k mod w` of value `k div w`, so the low
`w` bits of each value stand most significant first, and every padding bit is 0. -/
def Obligations.PackPlacesEveryBit : Prop :=
  ∀ (vals : List Nat) (w : Nat), 1 ≤ w → w ≤ 32 →
    (pack vals w).2 = vals.length * w ∧ (pack vals w).1.length = ceilDiv (vals.length * w) 8 ∧
    ∀ k, k < 8 * (pack vals w).1.length →
      ((pack vals w).1.getD (k / 8) 0).getLsbD (7 - k % 8) =
        (decide (k < vals.length * w) && (vals.getD (k / w) 0).testBit (w - 1 - k % w))

/-- R157: unpacking what `pack` gives returns the values, each cut to its low `w` bits: the values themselves where each is below
`2^w`. -/
def Obligations.UnpackOfPack : Prop :=
  ∀ (vals : List Nat) (w : Nat), 1 ≤ w → w ≤ 32 →
    unpack (pack vals w).1 (pack vals w).2 w = vals.map (· % 2 ^ w) ∧
    ((∀ v ∈ vals, v < 2 ^ w) → unpack (pack vals w).1 (pack vals w).2 w = vals)

/-- R153, R154: `unpack` gives `totalBits div w` values, each below `2^w`, and reads no bit past those: two byte sequences that agree on
the first `(totalBits div w) * w` stream bits unpack alike. -/
def Obligations.UnpackDropsTheRemainder : Prop :=
  ∀ (bytes other : List Byte) (total w : Nat), 1 ≤ w → w ≤ 32 → total ≤ 8 * bytes.length → total ≤ 8 * other.length →
    (unpack bytes total w).length = total / w ∧ (∀ v ∈ unpack bytes total w, v < 2 ^ w) ∧
    ((∀ k, k < total / w * w → (bytes.getD (k / 8) 0).getLsbD (7 - k % 8) = (other.getD (k / 8) 0).getLsbD (7 - k % 8)) →
      unpack bytes total w = unpack other total w)

/-! ### The codec -/

/-- R186: `bitWidth(s)` is the least `w` with `2^w >= s`, and lies in 8 .. 31 for every dictionary size from 256 to `2^31`. -/
def Obligations.BitWidthIsTheLeast : Prop :=
  ∀ s : Nat, s ≤ 2 ^ bitWidth s ∧ (∀ w, s ≤ 2 ^ w → bitWidth s ≤ w) ∧
    (256 ≤ s → s ≤ 2 ^ 31 → 8 ≤ bitWidth s ∧ bitWidth s ≤ 31)

/-- R184, R185: an empty input gives no code and size 256; any other gives `finalDictionarySize = 255 + len(codes)`, every code below it,
and at most one code a byte. -/
def Obligations.EncodeSizesAndCodeBounds : Prop :=
  ∀ (cap : Nat) (input : List Byte) (codes : List Nat) (size : Nat), lzwEncode cap input = .ok (codes, size) →
    (input = [] → codes = [] ∧ size = 256) ∧
    (input ≠ [] → size = 255 + codes.length ∧ (∀ c ∈ codes, c < size) ∧ codes.length ≤ input.length)

/-- R180, R182, R183, R187: what the encoder does with each byte, by the session `e` of the bytes before it. The seed maps each one-byte sequence
to its byte. A byte that extends the match is added to `cur`, with no code. At a mismatch below capacity the code of `cur` is emitted,
`cur ++ [c]` gets the next code and the match restarts at the byte; at capacity the raise is DICT_OVERFLOW with the capacity and the
scan position, and `lzwEncode` raises nothing else. After the last byte the code of what is left in `cur` is emitted. No sequence has
two codes. -/
def Obligations.EncodeOverflowsOnlyAtCapacity : Prop :=
  (∀ (cap : Nat) (input : List Byte) (r : Raise), lzwEncode cap input = .error r ↔
    ∃ (c : Byte) (e : EncSession), input[r.pos]? = some c ∧ EncSession.start.run cap (input.take r.pos) = .ok e ∧
      e.dict.length = cap ∧ e.cur ++ [c] ∉ e.dict ∧ r.cause = .dictOverflow ∧ r.info = cap) ∧
  EncSession.start = { dict := (List.range 256).map fun b => [BitVec.ofNat 8 b], cur := [], pos := 0, codes := [] } ∧
  ∀ (cap : Nat) (before : List Byte) (e : EncSession), EncSession.start.run cap before = .ok e →
    e.pos = before.length ∧ e.dict.Nodup ∧
    (∀ c, e.cur ++ [c] ∈ e.dict → EncSession.start.run cap (before ++ [c]) =
      .ok { dict := e.dict, cur := e.cur ++ [c], pos := e.pos + 1, codes := e.codes }) ∧
    (∀ c, e.cur ++ [c] ∉ e.dict → e.dict.length ≠ cap → ∃ k, e.dict[k]? = some e.cur ∧
      EncSession.start.run cap (before ++ [c]) =
        .ok { dict := e.dict ++ [e.cur ++ [c]], cur := [c], pos := e.pos + 1, codes := e.codes ++ [k] }) ∧
    (e.cur = [] → lzwEncode cap before = .ok (e.codes, e.dict.length)) ∧
    (e.cur ≠ [] → ∃ k, e.dict[k]? = some e.cur ∧ lzwEncode cap before = .ok (e.codes ++ [k], e.dict.length))

/-- R121, R188, R189, R304: `encodeFrame` raises what `lzwEncode` raises, or FIELD_OVERFLOW when the codes times the width of the final size do not
fit the field; else the frame is the packed codes and the 5-byte trailer, the bit count in four bytes, least significant first (R86),
and the width. Its length is `ceil(nbits/8) + 5`, the width is 8 to 31 and no code needs more bits than it. -/
def Obligations.FramesHaveTheirTrailer : Prop :=
  ∀ (cap : Nat) (input : List Byte), 256 ≤ cap → cap ≤ 2 ^ 31 →
    (∀ r, lzwEncode cap input = .error r → encodeFrame cap input = .error r) ∧
    (∀ codes size, lzwEncode cap input = .ok (codes, size) → encodeFrame cap input =
      if 2 ^ 31 - 1 < codes.length * bitWidth size then .error { cause := .fieldOverflow, info := 1, pos := 0 }
      else .ok {
        out := (pack codes (bitWidth size)).1 ++ [
          BitVec.ofNat 8 (codes.length * bitWidth size), BitVec.ofNat 8 (codes.length * bitWidth size / 2 ^ 8),
          BitVec.ofNat 8 (codes.length * bitWidth size / 2 ^ 16), BitVec.ofNat 8 (codes.length * bitWidth size / 2 ^ 24),
          BitVec.ofNat 8 (bitWidth size)]
        codes := codes
        dictSize := size
        width := bitWidth size
        nbits := codes.length * bitWidth size }) ∧
    (∀ r : CodecResult, encodeFrame cap input = .ok r →
      lzwEncode cap input = .ok (r.codes, r.dictSize) ∧ r.width = bitWidth r.dictSize ∧
      r.nbits = r.codes.length * r.width ∧ r.nbits ≤ 2 ^ 31 - 1 ∧ 8 ≤ r.width ∧ r.width ≤ 31 ∧
      (∀ c ∈ r.codes, c < 2 ^ r.width) ∧ r.out.length = ceilDiv r.nbits 8 + 5)

/-- R204: the frame of `L >= 1` bytes is at most `ceil(L * bitWidth(255 + L) / 8) + 5` bytes. -/
def Obligations.FrameLengthBound : Prop :=
  ∀ (cap : Nat) (input : List Byte) (r : CodecResult), input ≠ [] → encodeFrame cap input = .ok r →
    r.codes.length ≤ input.length ∧ r.width ≤ bitWidth (255 + input.length) ∧
    r.out.length ≤ ceilDiv (input.length * bitWidth (255 + input.length)) 8 + 5

/-- R191 to R197: what the decoder does with each code, by the size its dictionary has when it comes to it. No code gives no byte and size
256. A first code below 256 is put out as the byte it is, with no insertion; one of 256 or more is BAD_COMPRESSED_CODE at 0. A later one
is BAD_COMPRESSED_CODE when it is above the size; else, at capacity, DICT_OVERFLOW; else it adds to the output the entry of the code, or,
at exactly the size (KwKwK), the previous sequence and its first byte, and the previous sequence with the first byte of that gets the
next code. After the last code the output and the size are the result. -/
def Obligations.DecoderJudgesEachCode : Prop :=
  ∀ (cap : Nat) (before after : List Nat) (k : Nat) (d : DecSession),
    lzwDecode cap [] = .ok ([], 256) ∧
    (256 ≤ k → lzwDecode cap (k :: after) = .error { cause := .badCompressedCode, info := k, pos := 0 }) ∧
    (k < 256 → (DecSession.start (k :: after) 0 0).run cap [k] = .ok {
      codes := k :: after, nbits := 0, width := 0, dict := (List.range 256).map fun b => [BitVec.ofNat 8 b]
      prev := [BitVec.ofNat 8 k], pos := 1, out := [BitVec.ofNat 8 k] }) ∧
    ((DecSession.start before 0 0).run cap before = .ok d → lzwDecode cap before = .ok (d.out, d.dict.length)) ∧
    (before ≠ [] → (DecSession.start (before ++ k :: after) 0 0).run cap before = .ok d →
      (d.dict.length < k → lzwDecode cap (before ++ k :: after) =
        .error { cause := .badCompressedCode, info := k, pos := before.length }) ∧
      (k ≤ d.dict.length → d.dict.length = cap → lzwDecode cap (before ++ k :: after) =
        .error { cause := .dictOverflow, info := cap, pos := before.length }) ∧
      (k ≤ d.dict.length → d.dict.length ≠ cap → ∃ d',
        (DecSession.start (before ++ k :: after) 0 0).run cap (before ++ [k]) = .ok d' ∧ d'.pos = before.length + 1 ∧
        d'.out = d.out ++ d'.prev ∧ d'.dict = d.dict ++ [d.prev ++ d'.prev.take 1] ∧ d.prev ≠ [] ∧
        (k < d.dict.length → some d'.prev = d.dict[k]?) ∧ (k = d.dict.length → d'.prev = d.prev ++ d.prev.take 1)))

/-- R190, R303: the four structural checks of a frame, in their order, each a MALFORMED_FRAME with its number; where all pass, whatever the
width from 1 to 32, the codes are unpacked from the bytes before the trailer and decoded. The bit count is four bytes, least
significant first (R86). -/
def Obligations.MalformedFramesAreRaised : Prop :=
  ∀ (cap : Nat) (f : List Byte),
    let w := (f.getD (f.length - 1) 0).toNat
    let nb := (f.getD (f.length - 5) 0).toNat + 2 ^ 8 * (f.getD (f.length - 4) 0).toNat +
      2 ^ 16 * (f.getD (f.length - 3) 0).toNat + 2 ^ 24 * (f.getD (f.length - 2) 0).toNat
    let codes := unpack (f.take (f.length - 5)) nb w
    let raises := fun k => decodeFrame cap f = .error { cause := .malformedFrame, info := k, pos := 0 }
    (f.length < 5 → raises 1) ∧
    (5 ≤ f.length → ¬(1 ≤ w ∧ w ≤ 32) → raises 2) ∧
    (5 ≤ f.length → 1 ≤ w ∧ w ≤ 32 → 2 ^ 31 ≤ nb → raises 3) ∧
    (5 ≤ f.length → 1 ≤ w ∧ w ≤ 32 → nb < 2 ^ 31 → 8 * (f.length - 5) < nb → raises 4) ∧
    (5 ≤ f.length → 1 ≤ w ∧ w ≤ 32 → nb < 2 ^ 31 → nb ≤ 8 * (f.length - 5) →
      (∀ r, lzwDecode cap codes = .error r → decodeFrame cap f = .error r) ∧
      (∀ out size, lzwDecode cap codes = .ok (out, size) →
        decodeFrame cap f = .ok { out := out, codes := codes, dictSize := size, width := w, nbits := nb }))

/-- R198: lockstep. On the codes of an encode that succeeds, the decoder raises nothing, after index `j` its dictionary is the encoder's
after the first `j` insertions, and its final size is the encoder's. -/
def Obligations.DecoderMirrorsTheEncoder : Prop :=
  ∀ (cap : Nat) (input : List Byte) (e : EncSession), 256 ≤ cap → EncSession.start.run cap input = .ok e → input ≠ [] →
    (∀ j, j < e.flushed.length → ∃ d, (DecSession.start e.flushed 0 0).run cap (e.flushed.take (j + 1)) = .ok d ∧
      d.dict = e.dict.take (256 + j)) ∧
    lzwDecode cap e.flushed = .ok (input, e.dict.length)

/-- R199: decoding the frame of any bytes that encode gives the bytes back, with the encoder's codes and numbers. -/
def Obligations.DecodeOfEncodedFrame : Prop :=
  ∀ (cap : Nat) (input : List Byte) (r : CodecResult), 256 ≤ cap → cap ≤ 2 ^ 31 → encodeFrame cap input = .ok r →
    decodeFrame cap r.out = .ok { r with out := input }

/-! ### Chunks and containers -/

/-- R230, R231: the chunks of a split, in index order, are the bytes; there are `n`, each but the last of `len div n` bytes. -/
def Obligations.SplitChunksJoinToTheBytes : Prop :=
  ∀ (bytes : List Byte) (n : Nat), 1 ≤ n →
    (split bytes n).length = n ∧ (split bytes n).flatten = bytes ∧
    (∀ i, i + 1 < n → ((split bytes n).getD i []).length = bytes.length / n) ∧
    ((split bytes n).getD (n - 1) []).length = bytes.length - (n - 1) * (bytes.length / n)

/-- R241, R242: the checks of `parseContainer`, in their order, on the bytes left when the extension is stripped; where all pass the frames
are as many as ChunkCount, of the lengths in the size table, and fill the bytes before it. -/
def Obligations.ContainerChecks : Prop :=
  ∀ (src : List Byte) (ext : Bool) (xl : Nat), (ext = true → xl ≤ src.length) →
    let len := src.length - (if ext then xl else 0)
    let c := (src.getD (len - 1) 0).toNat
    let T := len - 1 - 4 * c
    let entry := fun i => (src.getD (T + 4 * i) 0).toNat + 2 ^ 8 * (src.getD (T + 4 * i + 1) 0).toNat +
      2 ^ 16 * (src.getD (T + 4 * i + 2) 0).toNat + 2 ^ 24 * (src.getD (T + 4 * i + 3) 0).toNat
    let raises := fun info pos => parseContainer src ext xl = .error { cause := .malformedContainer, info := info, pos := pos }
    (len < 1 → raises 1 0) ∧
    (1 ≤ len → len - 1 < 4 * c → raises 2 0) ∧
    (1 ≤ len → 4 * c ≤ len - 1 →
      (∀ i, i < c → 2 ^ 31 ≤ entry i → (∀ j, j < i → entry j < 2 ^ 31) → raises 3 i) ∧
      ((∀ i, i < c → entry i < 2 ^ 31) →
        (((List.range c).map entry).sum ≠ T → raises 4 0) ∧
        (((List.range c).map entry).sum = T → ∃ frames, parseContainer src ext xl = .ok frames ∧ frames.length = c ∧
          frames.map List.length = (List.range c).map entry ∧ frames.flatten = src.take T)))

/-- R237, R239, R241: an assembled container is the frames, their lengths in four bytes each, least significant first (R86), their number, and
then the extension, verbatim; parsing it gives the frames back, with and without the extension, for at most 255 frames of at most
FIELD_MAX bytes. -/
def Obligations.ParseOfAssembledContainer : Prop :=
  ∀ (frames : List (List Byte)) (x : List Byte), frames.length ≤ 255 → (∀ f ∈ frames, f.length ≤ 2 ^ 31 - 1) →
    (assemble frames x = frames.flatten ++ (frames.flatMap fun f => [
        BitVec.ofNat 8 f.length, BitVec.ofNat 8 (f.length / 2 ^ 8), BitVec.ofNat 8 (f.length / 2 ^ 16),
        BitVec.ofNat 8 (f.length / 2 ^ 24)]) ++ [BitVec.ofNat 8 frames.length] ++ x) ∧
    (assemble frames x).length = frames.flatten.length + 4 * frames.length + 1 + x.length ∧
    (assemble frames x).drop (frames.flatten.length + 4 * frames.length + 1) = x ∧
    parseContainer (assemble frames x) true x.length = .ok frames ∧
    (x = [] → ∀ xl, parseContainer (assemble frames x) false xl = .ok frames)

/-- R246: the parallel round trip on the machine. Where PAR_ENC ended with no job failure and no failed chunk, PAR_DEC of the container it
wrote, with the same EXT and extension length and any N, into a destination that has room, writes the source bytes and reports no
error. -/
def Obligations.ParallelRoundTrip : Prop :=
  ∀ (n m : Nat) (ext : Bool) (s t u : State) (L K : Latch), s.params.legal → 1 ≤ n → n ≤ 255 →
    JustStarted s L → ArgsPass s L ext → exec (.parEnc n ext) s = .next t →
    t.status.jobFail = false → t.res.failCount = 0 →
    JustStarted u K → u.params = s.params → ArgsPass u K false →
    K.src.len = t.res.dstLen.toNat → (ext = true → K.ext.len = L.ext.len) → L.src.len ≤ K.dst.len →
    (∀ k, k < K.src.len → u.readByte (K.src.addr + k) = t.readByte (L.dst.addr + k)) →
    ∃ v, exec (.parDec m ext) u = .next v ∧ Delivered u v K (s.readBuffer L.src) ∧ v.errs = {} ∧ v.status.err = false ∧
      v.status.jobFail = false ∧ v.res.failCount = 0

/-! ### The machine, step by step -/

/-- The invariant holds right after reset, for all legal parameters. -/
def Obligations.ResetMeetsTheInvariant : Prop :=
  ∀ p : Config.Params, p.legal → Inv (State.resetWith p)

/-- Every step keeps the invariant. -/
def Obligations.StepKeepsTheInvariant : Prop :=
  ∀ s t : State, Inv s → step s = .next t → Inv t

/-- R38, R311, R313, R316, R322: the first error of a job is captured at the step of the agent that raises it, and no later one is. Once a job
has captured, no step of it sets ERR again, whatever the host has cleared, while it runs its error registers stay, and its end (an
OUTPUT_OVERFLOW included) leaves ERR_CAUSE, ERR_CHUNK, ERR_INFO and ERR_POS; only a reset clears them. Before, the step at which a chunk
fails sets ERR and records the chunk and its cause. (A job whose buffers the host has written is a free draw, R96, and is left out.) -/
def Obligations.ErrIsCapturedOncePerJob : Prop :=
  ∀ s t : State, s.phase = .running → s.tainted = false → step s = .next t →
    (s.errOnce = true →
      (s.status.err = false → t.status.err = false) ∧ (t.phase = .running → t.errs = s.errs ∧ t.errOnce = true) ∧
      ((∀ v rest, s.agenda = .host (.csrWrite .word 0x004 v) :: rest → v.getLsbD 0 = false) →
        t.errs = { s.errs with jobCause := t.errs.jobCause })) ∧
    (s.errOnce = false → ∀ i sl sl', s.slots[i]? = some sl → t.slots[i]? = some sl' → sl.phase ≠ .failed → sl'.phase = .failed →
      t.errOnce = true ∧ t.status.err = true ∧ t.errs.cause = sl'.cause ∧ t.errs.chunk = BitVec.ofNat 32 i ∧
      ∀ h : i < 255, t.res.chunkCause[i] = sl'.cause)

/-- R55, R65, R200: within a job PROGRESS never decreases, at its completing step (a job failure included) neither. Left out are a reset, and the
end of a job whose buffers the host has written, which draws it (R96, log entry 9). -/
def Obligations.ProgressNeverDecreases : Prop :=
  ∀ s t : State, Inv s → s.phase = .running → step s = .next t →
    (t.phase = .idle → s.tainted = false ∧ ∀ v rest, s.agenda = .host (.csrWrite .word 0x004 v) :: rest → v.getLsbD 0 = false) →
    s.res.progress.toNat ≤ t.res.progress.toNat

/-- R287: every running job ends. Where the agenda names nobody, the engine alone brings it to its completion. -/
def Obligations.EveryJobEnds : Prop :=
  ∀ s : State, Inv s → s.phase = .running → s.agenda = [] →
    ∃ (k : Nat) (t : State), Host.Core.run Sys2Proof.core k s = .next t ∧ t.phase = .idle ∧ t.status.done = true

/-- R247: schedule independence. A job that the host starts and then leaves alone, however the turns of the sequencer and the workers
fall, leaves, once it has ended, the results of the whole command run at once: only the error registers that record which failing
chunk was first, and PROGRESS, can differ, and the error registers only when two or more chunks failed. Where a chunk has failed, ERR_CAUSE,
ERR_CHUNK, ERR_INFO and ERR_POS are all four those of one failing chunk (R313, R314), whatever ended the job. -/
def Obligations.ResultsDoNotDependOnTheSchedule : Prop :=
  ∀ (s t u : State) (v : Word) (turns : List Turn), Inv s → s.phase = .idle →
    (∀ x ∈ turns, x = .sequencer ∨ ∃ i, x = .worker i) →
    Host.Core.run Sys2Proof.core (turns.length + 1) { s with agenda := .host (.csrWrite .word 0x010 v) :: turns } = .next t →
    t.phase = .idle → step { s with agenda := [.run v] } = .next u →
    t.res = { u.res with progress := t.res.progress } ∧ t.status = u.status ∧ t.errs.jobCause = u.errs.jobCause ∧
      t.slots = u.slots ∧ (u.res.failCount.toNat ≤ 1 → t.errs = u.errs) ∧
      (∀ i, decode v = .ok i → 1 ≤ u.res.failCount.toNat →
        CapturedOneOf t (sessionsOf s { cmd := v, args := s.args } i)) ∧
      (∀ k, k < u.res.dstLen.toNat → t.readByte (s.args.dstAddr.toNat + k) = u.readByte (s.args.dstAddr.toNat + k)) ∧
      (∀ a, ¬(s.args.dstAddr.toNat ≤ a ∧ a < s.args.dstAddr.toNat + s.args.dstCap.toNat) → t.readByte a = s.readByte a)
end

