-- ==== Sys2Proof/Laws/Bits.lean ====
section
/-! SUPPORT. The laws of bit streams and of 4-byte fields: a value's bits give the value back, and bytes their stream. -/

namespace Sys2Proof.Machine

/-! ### Values and their bits (R87, R151) -/

@[simp] theorem valueBits_length (w v : Nat) : (valueBits w v).length = w := by simp [valueBits]

theorem valueBits_getElem (w v k : Nat) (h : k < (valueBits w v).length) : (valueBits w v)[k] = v.testBit (w - 1 - k) := by
  simp [valueBits]

/-- The bits of a value are those of its upper part and then its least significant bit. -/
theorem valueBits_succ (w v : Nat) : valueBits (w + 1) v = valueBits w (v / 2) ++ [v.testBit 0] := by
  apply List.ext_getElem (by simp)
  intro k h1 h2
  simp only [valueBits_length] at h1
  rw [valueBits_getElem]
  by_cases hk : k < w
  · rw [List.getElem_append_left (by simpa using hk), valueBits_getElem, ← Nat.testBit_succ]
    congr 1
    omega
  · obtain rfl : k = w := by omega
    simp

theorem bitsValue_append (xs ys : List Bool) : bitsValue (xs ++ ys) = bitsValue xs * 2 ^ ys.length + bitsValue ys := by
  have key (ys : List Bool) (a : Nat) :
      ys.foldl (fun v b => 2 * v + b.toNat) a = a * 2 ^ ys.length + ys.foldl (fun v b => 2 * v + b.toNat) 0 := by
    induction ys generalizing a with
    | nil => simp
    | cons y ys ih =>
      simp only [List.foldl_cons, List.length_cons]
      rw [ih (2 * a + y.toNat), ih (2 * 0 + y.toNat)]
      ring
  simp only [bitsValue, List.foldl_append]
  exact key ys _

theorem bitsValue_lt (bits : List Bool) : bitsValue bits < 2 ^ bits.length := by
  induction bits using List.reverseRecOn with
  | nil => simp [bitsValue]
  | append_singleton bits b ih =>
    rw [bitsValue_append]
    have : bitsValue [b] < 2 := by cases b <;> decide
    simp only [List.length_append, List.length_cons, List.length_nil, pow_add]
    omega

/-- A value's low `w` bits, read back, are the value cut to `w` bits (R151). -/
theorem bitsValue_valueBits (w v : Nat) : bitsValue (valueBits w v) = v % 2 ^ w := by
  induction w generalizing v with
  | zero => simp [valueBits, bitsValue, Nat.mod_one]
  | succ w ih =>
    rw [valueBits_succ, bitsValue_append, ih]
    have hb : bitsValue [v.testBit 0] = v % 2 := by
      rcases Nat.mod_two_eq_zero_or_one v with h | h <;> simp [bitsValue, h]
    have h := Nat.mod_mul (x := v) (a := 2) (b := 2 ^ w)
    rw [hb, pow_succ', h]
    simp only [List.length_cons, List.length_nil]
    ring

/-- Bits, read as a value and written out again at their own length, are the bits. -/
theorem valueBits_bitsValue (bits : List Bool) : valueBits bits.length (bitsValue bits) = bits := by
  induction bits using List.reverseRecOn with
  | nil => rfl
  | append_singleton bits b ih =>
    have hb : bitsValue (bits ++ [b]) = 2 * bitsValue bits + b.toNat := by
      rw [bitsValue_append]
      simp [bitsValue, Nat.mul_comm]
    rw [List.length_append, List.length_singleton, valueBits_succ, hb]
    have hlt : b.toNat < 2 := by cases b <;> decide
    have h2 : (2 * bitsValue bits + b.toNat) / 2 = bitsValue bits := by omega
    rw [h2, ih]
    cases b <;> simp

/-! ### Bytes and their stream -/

theorem streamOf_append (xs ys : List Byte) : streamOf (xs ++ ys) = streamOf xs ++ streamOf ys := by simp [streamOf]

@[simp] theorem streamOf_length (bytes : List Byte) : (streamOf bytes).length = 8 * bytes.length := by
  induction bytes with
  | nil => rfl
  | cons b bs ih =>
    have : streamOf (b :: bs) = valueBits 8 b.toNat ++ streamOf bs := rfl
    rw [this, List.length_append, ih, valueBits_length, List.length_cons]
    omega

@[simp] theorem bytesOfStream_length (n : Nat) (bits : List Bool) : (bytesOfStream n bits).length = n := by
  induction n generalizing bits with
  | zero => rfl
  | succ n ih => simp [bytesOfStream, ih]

/-- The bytes cut from a stream give its bits back, where there are enough. -/
theorem streamOf_bytesOfStream (n : Nat) (bits : List Bool) (h : 8 * n ≤ bits.length) :
    streamOf (bytesOfStream n bits) = bits.take (8 * n) := by
  induction n generalizing bits with
  | zero => simp [bytesOfStream, streamOf]
  | succ n ih =>
    have hl : (bits.take 8).length = 8 := by simp; omega
    have hv : (byteOf (bitsValue (bits.take 8))).toNat = bitsValue (bits.take 8) := by
      have := bitsValue_lt (bits.take 8)
      rw [hl] at this
      simp only [byteOf, BitVec.toNat_ofNat]
      omega
    have hs : streamOf (bytesOfStream (n + 1) bits) =
        valueBits 8 (byteOf (bitsValue (bits.take 8))).toNat ++ streamOf (bytesOfStream n (bits.drop 8)) := rfl
    have hb := valueBits_bitsValue (bits.take 8)
    rw [hl] at hb
    rw [hs, hv, ih _ (by simp; omega), hb, show 8 * (n + 1) = 8 + 8 * n by ring, List.take_add]

@[simp] theorem valuesOfStream_length (w n : Nat) (bits : List Bool) : (valuesOfStream w n bits).length = n := by
  induction n generalizing bits with
  | zero => rfl
  | succ n ih => simp [valuesOfStream, ih]

/-- The values of `w` bits cut from the bits of values, whatever follows, are the values cut to `w` bits. -/
theorem valuesOfStream_valueBits (w : Nat) (vals : List Nat) (rest : List Bool) :
    valuesOfStream w vals.length (vals.flatMap (valueBits w) ++ rest) = vals.map (· % 2 ^ w) := by
  induction vals with
  | nil => rfl
  | cons v vals ih =>
    have ht : (valueBits w v ++ (vals.flatMap (valueBits w) ++ rest)).take w = valueBits w v :=
      List.take_left' (valueBits_length w v)
    have hd : (valueBits w v ++ (vals.flatMap (valueBits w) ++ rest)).drop w = vals.flatMap (valueBits w) ++ rest :=
      List.drop_left' (valueBits_length w v)
    simp only [List.length_cons, valuesOfStream, List.flatMap_cons, List.append_assoc, ht, hd, ih, List.map_cons,
      bitsValue_valueBits]

@[simp] theorem flatMap_valueBits_length (w : Nat) (vals : List Nat) :
    (vals.flatMap (valueBits w)).length = vals.length * w := by
  induction vals with
  | nil => simp
  | cons v vals ih => simp [ih]; ring

/-! ### Lengths of what the packer gives (R152, R153) -/

@[simp] theorem pack_bytes_length (vals : List Nat) (w : Nat) : (pack vals w).1.length = ceilDiv (vals.length * w) 8 := by
  simp [pack]

@[simp] theorem pack_totalBits (vals : List Nat) (w : Nat) : (pack vals w).2 = vals.length * w := rfl

@[simp] theorem unpack_length (bytes : List Byte) (n w : Nat) : (unpack bytes n w).length = n / w := by simp [unpack]

@[simp] theorem valueWords_length (bytes : List Byte) : (valueWords bytes).length = bytes.length / 4 := by simp [valueWords]

@[simp] theorem wordBytes_length (vals : List Nat) : (wordBytes vals).length = 4 * vals.length := by
  induction vals with
  | nil => rfl
  | cons v vals ih =>
    have : wordBytes (v :: vals) = le32 v ++ wordBytes vals := rfl
    rw [this, List.length_append, ih]
    simp [le32]
    omega

/-! ### 4-byte fields (R18, R86) -/

@[simp] theorem le32_length (v : Nat) : (le32 v).length = 4 := rfl

/-- A field that was written in front of other bytes reads back, cut to 32 bits. -/
theorem rdLE32_le32 (pre post : List Byte) (v : Nat) : rdLE32 (pre ++ le32 v ++ post) pre.length = v % 2 ^ 32 := by
  have h (k : Nat) (hk : k < 4) : (pre ++ le32 v ++ post).getD (pre.length + k) 0 = (le32 v).getD k 0 := by
    rw [List.append_assoc, List.getD_append_right _ _ _ _ (by omega), Nat.add_sub_cancel_left,
      List.getD_append _ _ _ _ (by simpa using hk)]
  have h0 := h 0 (by omega)
  rw [Nat.add_zero] at h0
  simp only [rdLE32, h0, h 1 (by omega), h 2 (by omega), h 3 (by omega)]
  simp only [le32, byteOf, List.getD_cons_zero, List.getD_cons_succ, BitVec.toNat_ofNat]
  omega

theorem rdLE32_lt (s : List Byte) (o : Nat) : rdLE32 s o < 2 ^ 32 := by
  have h (k : Nat) : (s.getD k 0).toNat < 256 := (s.getD k 0).isLt
  have h0 := h o
  have h1 := h (o + 1)
  have h2 := h (o + 2)
  have h3 := h (o + 3)
  unfold rdLE32
  omega

/-- `sext_32` of a field that fits 32 bits: negative exactly from `2^31` on, else the field itself. -/
theorem sext32_of_lt {v : Nat} (h : v < 2 ^ 32) :
    (sext32 v < 0 ↔ 2 ^ 31 ≤ v) ∧ (v < 2 ^ 31 → (sext32 v).toNat = v) := by
  have hv : (BitVec.ofNat 32 v).toNat = v := by simp; omega
  unfold sext32
  rw [BitVec.toInt_eq_toNat_cond, hv]
  constructor <;> split_ifs <;> omega

end Sys2Proof.Machine
end

