-- ==== Sys2Proof/Laws/Codec.lean ====
section
/-! SUPPORT. What one unit of a session does, said once; whole sessions by their units; what the frame functions raise. -/

namespace Sys2Proof.Machine

/-! ### The seed dictionary (R180, R191) -/

@[simp] theorem seedDict_length : seedDict.length = 256 := by simp [seedDict]

theorem seedDict_getElem (k : Nat) (h : k < seedDict.length) : seedDict[k] = [byteOf k] := by simp [seedDict]

/-! ### Encoder -/

/-- Everything one unit of an encode session does (R182, R187). -/
theorem EncSession.unit_cases (cap : Nat) (c : Byte) (e : EncSession) :
    (e.cur ++ [c] ∈ e.dict ∧ e.unit cap c = .ok { e with cur := e.cur ++ [c], pos := e.pos + 1 }) ∨
    (e.cur ++ [c] ∉ e.dict ∧ e.dict.length = cap ∧
      e.unit cap c = .error { cause := .dictOverflow, info := cap, pos := e.pos }) ∨
    (e.cur ++ [c] ∉ e.dict ∧ e.dict.length ≠ cap ∧ e.unit cap c = .ok {
      dict := e.dict ++ [e.cur ++ [c]], cur := [c], pos := e.pos + 1, codes := e.codes ++ [codeOf e.dict e.cur] }) := by
  unfold EncSession.unit
  by_cases h : e.cur ++ [c] ∈ e.dict
  · simp [h]
  · by_cases hc : e.dict.length = cap <;> simp [h, hc]

theorem EncSession.unit_pos {cap : Nat} {c : Byte} {e e' : EncSession} (h : e.unit cap c = .ok e') : e'.pos = e.pos + 1 := by
  rcases e.unit_cases cap c with ⟨-, h'⟩ | ⟨-, -, h'⟩ | ⟨-, -, h'⟩ <;> rw [h'] at h <;> cases h <;> rfl

theorem EncSession.unit_error {cap : Nat} {c : Byte} {e : EncSession} {r : Raise} (h : e.unit cap c = .error r) :
    r = { cause := .dictOverflow, info := cap, pos := e.pos } := by
  rcases e.unit_cases cap c with ⟨-, h'⟩ | ⟨-, -, h'⟩ | ⟨-, -, h'⟩ <;> rw [h'] at h <;> cases h
  rfl

theorem EncSession.run_cons (cap : Nat) (c : Byte) (cs : List Byte) (e : EncSession) :
    EncSession.run cap (c :: cs) e = (e.unit cap c).bind (EncSession.run cap cs) := by
  rw [EncSession.run]
  cases e.unit cap c <;> rfl

/-- The units of a session, cut in two. -/
theorem EncSession.run_append (cap : Nat) (xs ys : List Byte) (e : EncSession) :
    EncSession.run cap (xs ++ ys) e = (EncSession.run cap xs e).bind (EncSession.run cap ys) := by
  induction xs generalizing e with
  | nil => rfl
  | cons c cs ih =>
    rw [List.cons_append, EncSession.run_cons, EncSession.run_cons]
    cases e.unit cap c with
    | error r => rfl
    | ok e' => exact ih e'

theorem EncSession.run_pos {cap : Nat} {xs : List Byte} {e e' : EncSession} (h : EncSession.run cap xs e = .ok e') :
    e'.pos = e.pos + xs.length := by
  induction xs generalizing e with
  | nil => cases h; rfl
  | cons c cs ih =>
    rw [EncSession.run_cons] at h
    cases hu : e.unit cap c with
    | error r => rw [hu] at h; cases h
    | ok e₁ =>
      rw [hu] at h
      rw [ih h, EncSession.unit_pos hu, List.length_cons]
      omega

/-- A session that raises raises DICT_OVERFLOW, after the units before it (R187). -/
theorem EncSession.run_error {cap : Nat} {xs : List Byte} {e : EncSession} {r : Raise}
    (h : EncSession.run cap xs e = .error r) :
    ∃ pre c post e', xs = pre ++ c :: post ∧ EncSession.run cap pre e = .ok e' ∧ e'.unit cap c = .error r := by
  induction xs generalizing e with
  | nil => cases h
  | cons c cs ih =>
    rw [EncSession.run_cons] at h
    cases hu : e.unit cap c with
    | error q =>
      rw [hu] at h
      exact ⟨[], c, cs, e, rfl, rfl, hu.trans (by simpa [Except.bind] using h)⟩
    | ok e₁ =>
      rw [hu] at h
      obtain ⟨pre, d, post, e', rfl, h1, h2⟩ := ih h
      exact ⟨c :: pre, d, post, e', rfl, by rw [EncSession.run_cons, hu]; exact h1, h2⟩

/-- A frame is closed unless its bit count does not fit the field (R188). -/
theorem closeFrame_cases (codes : List Nat) (size : Nat) :
    (codes.length * bitWidth size > Config.fieldMax ∧
      closeFrame codes size = .error { cause := .fieldOverflow, info := 1, pos := 0 }) ∨
    (codes.length * bitWidth size ≤ Config.fieldMax ∧ closeFrame codes size = .ok {
      out := (pack codes (bitWidth size)).1 ++ le32 (codes.length * bitWidth size) ++ [byteOf (bitWidth size)]
      codes := codes, dictSize := size, width := bitWidth size, nbits := codes.length * bitWidth size }) := by
  unfold closeFrame
  by_cases h : codes.length * bitWidth size > Config.fieldMax
  · simp [h]
  · right
    exact ⟨by omega, by simp [h]⟩

theorem encodeFrame_eq (cap : Nat) (input : List Byte) :
    encodeFrame cap input = (EncSession.start.run cap input).bind fun e => closeFrame e.flushed e.dict.length := by
  unfold encodeFrame lzwEncode
  cases EncSession.start.run cap input <;> rfl

/-- `2^bitWidth(s)` reaches `s`, and no smaller width does (R186). -/
theorem leastWidth_spec (fuel w s : Nat) (h : s ≤ 2 ^ (w + fuel)) :
    s ≤ 2 ^ leastWidth fuel w s ∧ w ≤ leastWidth fuel w s ∧ ∀ v, w ≤ v → s ≤ 2 ^ v → leastWidth fuel w s ≤ v := by
  induction fuel generalizing w with
  | zero => exact ⟨h, le_refl _, fun v hv _ => hv⟩
  | succ fuel ih =>
    unfold leastWidth
    split
    next hw => exact ⟨hw, le_refl _, fun v hv _ => hv⟩
    next hw =>
      obtain ⟨h1, h2, h3⟩ := ih (w + 1) (by rwa [Nat.add_assoc, Nat.add_comm 1])
      refine ⟨h1, by omega, fun v hv hs => h3 v ?_ hs⟩
      rcases Nat.eq_or_lt_of_le hv with rfl | hlt
      · exact absurd hs hw
      · exact hlt

/-! ### Decoder -/

/-- Everything one unit of a decode session does at its first code (R192). -/
theorem DecSession.unit_first (cap k : Nat) (d : DecSession) (h : d.pos = 0) :
    (256 ≤ k ∧ d.unit cap k = .error { cause := .badCompressedCode, info := k, pos := 0 }) ∨
    (k < 256 ∧ d.unit cap k = .ok { d with prev := seqOf d.dict k, out := seqOf d.dict k, pos := 1 }) := by
  unfold DecSession.unit
  by_cases hk : 256 ≤ k
  · simp [h, hk]
  · right
    exact ⟨by omega, by simp [h, hk]⟩

/-- Everything one unit of a decode session does at a later code (R191, R193, R194, R197). -/
theorem DecSession.unit_later (cap k : Nat) (d : DecSession) (h : d.pos ≠ 0) :
    (d.dict.length < k ∧ d.unit cap k = .error { cause := .badCompressedCode, info := k, pos := d.pos }) ∨
    (k ≤ d.dict.length ∧ d.dict.length = cap ∧
      d.unit cap k = .error { cause := .dictOverflow, info := cap, pos := d.pos }) ∨
    (k ≤ d.dict.length ∧ d.dict.length ≠ cap ∧ ∃ e,
      (k < d.dict.length ∧ e = seqOf d.dict k ∨ k = d.dict.length ∧ e = d.prev ++ d.prev.take 1) ∧
      d.unit cap k = .ok { d with
        out := d.out ++ e, dict := d.dict ++ [d.prev ++ e.take 1], prev := e, pos := d.pos + 1 }) := by
  unfold DecSession.unit DecSession.entry?
  simp only [h, if_false]
  rcases Nat.lt_trichotomy k d.dict.length with hk | hk | hk
  · by_cases hc : d.dict.length = cap
    · exact .inr (.inl ⟨hk.le, hc, by rw [if_pos hk]; simp [hc]⟩)
    · exact .inr (.inr ⟨hk.le, hc, _, .inl ⟨hk, rfl⟩, by simp [hk, hc]⟩)
  · by_cases hc : d.dict.length = cap
    · exact .inr (.inl ⟨hk.le, hc, by simp [hk, hc]⟩)
    · exact .inr (.inr ⟨hk.le, hc, _, .inr ⟨hk, rfl⟩, by simp [hk, hc]⟩)
  · exact .inl ⟨hk, by simp [Nat.not_lt.2 hk.le, hk.ne']⟩

/-- What every unit of a decode session keeps. -/
theorem DecSession.unit_frame {cap k : Nat} {d d' : DecSession} (h : d.unit cap k = .ok d') :
    d'.pos = d.pos + 1 ∧ d'.codes = d.codes ∧ d'.nbits = d.nbits ∧ d'.width = d.width := by
  by_cases hp : d.pos = 0
  · rcases d.unit_first cap k hp with ⟨-, h'⟩ | ⟨-, h'⟩ <;> rw [h'] at h <;> cases h
    exact ⟨by simp [hp], rfl, rfl, rfl⟩
  · rcases d.unit_later cap k hp with ⟨-, h'⟩ | ⟨-, -, h'⟩ | ⟨-, -, e, -, h'⟩ <;> rw [h'] at h <;> cases h
    exact ⟨rfl, rfl, rfl, rfl⟩

theorem DecSession.unit_error {cap k : Nat} {d : DecSession} {r : Raise} (h : d.unit cap k = .error r) :
    (r = { cause := .badCompressedCode, info := k, pos := d.pos }) ∨
      r = { cause := .dictOverflow, info := cap, pos := d.pos } := by
  by_cases hp : d.pos = 0
  · rcases d.unit_first cap k hp with ⟨-, h'⟩ | ⟨-, h'⟩ <;> rw [h'] at h <;> cases h
    exact .inl (by rw [hp])
  · rcases d.unit_later cap k hp with ⟨-, h'⟩ | ⟨-, -, h'⟩ | ⟨-, -, e, -, h'⟩ <;> rw [h'] at h <;> cases h
    · exact .inl rfl
    · exact .inr rfl

theorem DecSession.run_cons (cap k : Nat) (ks : List Nat) (d : DecSession) :
    DecSession.run cap (k :: ks) d = (d.unit cap k).bind (DecSession.run cap ks) := by
  rw [DecSession.run]
  cases d.unit cap k <;> rfl

/-- The units of a session, cut in two. -/
theorem DecSession.run_append (cap : Nat) (xs ys : List Nat) (d : DecSession) :
    DecSession.run cap (xs ++ ys) d = (DecSession.run cap xs d).bind (DecSession.run cap ys) := by
  induction xs generalizing d with
  | nil => rfl
  | cons k ks ih =>
    rw [List.cons_append, DecSession.run_cons, DecSession.run_cons]
    cases d.unit cap k with
    | error r => rfl
    | ok d' => exact ih d'

theorem DecSession.run_frame {cap : Nat} {ks : List Nat} {d d' : DecSession} (h : DecSession.run cap ks d = .ok d') :
    d'.pos = d.pos + ks.length ∧ d'.codes = d.codes ∧ d'.nbits = d.nbits ∧ d'.width = d.width := by
  induction ks generalizing d with
  | nil => cases h; exact ⟨rfl, rfl, rfl, rfl⟩
  | cons k ks ih =>
    rw [DecSession.run_cons] at h
    cases hu : d.unit cap k with
    | error r => rw [hu] at h; cases h
    | ok d₁ =>
      rw [hu] at h
      obtain ⟨h1, h2, h3, h4⟩ := ih h
      obtain ⟨g1, g2, g3, g4⟩ := DecSession.unit_frame hu
      refine ⟨?_, h2.trans g2, h3.trans g3, h4.trans g4⟩
      rw [h1, g1, List.length_cons]
      omega

theorem DecSession.run_error {cap : Nat} {ks : List Nat} {d : DecSession} {r : Raise}
    (h : DecSession.run cap ks d = .error r) :
    ∃ pre k post d', ks = pre ++ k :: post ∧ DecSession.run cap pre d = .ok d' ∧ d'.unit cap k = .error r := by
  induction ks generalizing d with
  | nil => cases h
  | cons k ks ih =>
    rw [DecSession.run_cons] at h
    cases hu : d.unit cap k with
    | error q =>
      rw [hu] at h
      exact ⟨[], k, ks, d, rfl, rfl, hu.trans (by simpa [Except.bind] using h)⟩
    | ok d₁ =>
      rw [hu] at h
      obtain ⟨pre, j, post, d', rfl, h1, h2⟩ := ih h
      exact ⟨k :: pre, j, post, d', rfl, by rw [DecSession.run_cons, hu]; exact h1, h2⟩

/-- A unit does not read the session's own list of codes, nor the frame's numbers. -/
theorem DecSession.unit_congr (cap k : Nat) (d : DecSession) (codes : List Nat) (nbits width : Nat) :
    ({ d with codes := codes, nbits := nbits, width := width } : DecSession).unit cap k =
      (d.unit cap k).map fun d' => { d' with codes := codes, nbits := nbits, width := width } := by
  unfold DecSession.unit DecSession.entry?
  split_ifs <;> simp [Except.map]

theorem readFrame_cause {f : List Byte} {r : Raise} (h : readFrame f = .error r) : r.cause = .malformedFrame ∧ r.pos = 0 := by
  unfold readFrame at h
  dsimp only at h
  split_ifs at h <;> (simp only [Except.error.injEq] at h; subst h; exact ⟨rfl, rfl⟩)

/-- The raises of a session: chunk failures of R300, never the code NONE. -/
theorem sessionOf_cause {codec : Codec} {cap : Nat} {input : List Byte} {r : Raise}
    (h : sessionOf codec cap input = .error r) :
    r.cause = .badCompressedCode ∨ r.cause = .malformedFrame ∨ r.cause = .fieldOverflow ∨ r.cause = .dictOverflow := by
  cases codec with
  | enc =>
    simp only [sessionOf, encodeFrame_eq] at h
    cases hr : EncSession.start.run cap input with
    | error q =>
      rw [hr] at h
      cases h
      obtain ⟨_, _, _, _, _, _, hu⟩ := EncSession.run_error hr
      rw [EncSession.unit_error hu]
      simp
    | ok e =>
      rw [hr] at h
      rcases closeFrame_cases e.flushed e.dict.length with ⟨-, h'⟩ | ⟨-, h'⟩ <;> rw [Except.bind, h'] at h <;> cases h
      simp
  | dec =>
    simp only [sessionOf, decodeFrame] at h
    cases hf : readFrame input with
    | error q =>
      rw [hf] at h
      cases h
      simp [(readFrame_cause hf).1]
    | ok p =>
      obtain ⟨codes, nbits, width⟩ := p
      simp only [hf, lzwDecode] at h
      cases hr : (DecSession.start codes 0 0).run cap codes with
      | ok d => simp [hr] at h
      | error q =>
        simp only [hr, Except.error.injEq] at h
        subst h
        obtain ⟨_, _, _, _, _, _, hu⟩ := DecSession.run_error hr
        rcases DecSession.unit_error hu with rfl | rfl <;> simp

end Sys2Proof.Machine
end

