-- ==== Sys2Proof/Laws/Decode.lean ====
section
/-! SUPPORT. The fields of a word that was put together, and what a decoded word says of its fields. -/

namespace Sys2Proof

/-- The fields of an assembled word are the ones it was assembled from, where they fit (R110 to R115). -/
theorem assembleWord_fields (op n w : Nat) (ext : Bool) (ho : op < 16) (hn : n < 256) (hw : w < 64) :
    opField (assembleWord op n w ext) = op ∧ nField (assembleWord op n w ext) = n ∧
      widthField (assembleWord op n w ext) = w ∧ extField (assembleWord op n w ext) = ext ∧
      reservedClear (assembleWord op n w ext) = true := by
  have he : ext.toNat < 2 := by cases ext <;> decide
  have hv : (assembleWord op n w ext).toNat = op + 2 ^ 8 * n + 2 ^ 16 * w + 2 ^ 24 * ext.toNat := by
    simp only [assembleWord, BitVec.toNat_ofNat]
    omega
  simp only [opField, nField, widthField, extField, reservedClear, BitVec.extractLsb'_toNat, BitVec.getLsbD, Nat.testBit,
    Nat.shiftRight_eq_div_pow, hv, Nat.one_and_eq_mod_two, Bool.and_eq_true, beq_iff_eq]
  refine ⟨by omega, by omega, by omega, ?_, ⟨by omega, by omega⟩, by omega⟩
  have : (op + 2 ^ 8 * n + 2 ^ 16 * w + 2 ^ 24 * ext.toNat) / 2 ^ 24 % 2 = ext.toNat := by omega
  rw [this]
  cases ext <;> rfl

/-- A word that decodes stands for a command whose fields fit: they are fields of the word. -/
theorem decode_wf {v : Word} {i : Instr} (h : decode v = .ok i) : i.wf = true := by
  unfold decode ifZero at h
  dsimp only at h
  split at h
  · cases h
  · split at h
    all_goals first
      | cases h
      | (split_ifs at h
         cases h
         first
           | rfl
           | exact decide_eq_true (BitVec.isLt _))

/-- No row of the opcode table names a word of another row (R117, R118). -/
theorem opcodeTable_disjoint :
    opcodeTable.Pairwise fun r q => r.pattern &&& (r.mask &&& q.mask) ≠ q.pattern &&& (r.mask &&& q.mask) := by decide

end Sys2Proof
end

