-- ==== Sys2Proof/Laws/State.lean ====
section
/-! SUPPORT. One lemma for each field under each update of the state, so that no later proof unfolds a record update. -/

namespace Sys2Proof.Machine

section
variable (s : State)


/-! ### Job start (R282) -/

@[simp] theorem State.startJob_params (v : Word) : (s.startJob v).params = s.params := rfl
@[simp] theorem State.startJob_status (v : Word) : (s.startJob v).status = { s.status with done := false, err := false, jobFail := false } := rfl
@[simp] theorem State.startJob_irqEn (v : Word) : (s.startJob v).irqEn = s.irqEn := rfl
@[simp] theorem State.startJob_cmd (v : Word) : (s.startJob v).cmd = v := rfl
@[simp] theorem State.startJob_args (v : Word) : (s.startJob v).args = s.args := rfl
@[simp] theorem State.startJob_res (v : Word) : (s.startJob v).res = {} := rfl
@[simp] theorem State.startJob_errs (v : Word) : (s.startJob v).errs = {} := rfl
@[simp] theorem State.startJob_phase (v : Word) : (s.startJob v).phase = .running := rfl
@[simp] theorem State.startJob_stage (v : Word) : (s.startJob v).stage = .check := rfl
@[simp] theorem State.startJob_latch (v : Word) : (s.startJob v).latch = some { cmd := v, args := s.args } := rfl
@[simp] theorem State.startJob_errOnce (v : Word) : (s.startJob v).errOnce = false := rfl
@[simp] theorem State.startJob_slots (v : Word) : (s.startJob v).slots = [] := rfl
@[simp] theorem State.startJob_staged (v : Word) : (s.startJob v).staged = [] := rfl
@[simp] theorem State.startJob_tainted (v : Word) : (s.startJob v).tainted = false := rfl
@[simp] theorem State.startJob_mem (v : Word) : (s.startJob v).mem = s.mem := rfl
@[simp] theorem State.startJob_agenda (v : Word) : (s.startJob v).agenda = s.agenda := rfl
@[simp] theorem State.startJob_hostRead (v : Word) : (s.startJob v).hostRead = s.hostRead := rfl
@[simp] theorem State.startJob_draws (v : Word) : (s.startJob v).draws = s.draws := rfl

/-! ### Job completion (R285) -/

@[simp] theorem State.complete_params : (s.complete).params = s.params := rfl
@[simp] theorem State.complete_status : (s.complete).status = { s.status with done := true } := rfl
@[simp] theorem State.complete_irqEn : (s.complete).irqEn = s.irqEn := rfl
@[simp] theorem State.complete_cmd : (s.complete).cmd = s.cmd := rfl
@[simp] theorem State.complete_args : (s.complete).args = s.args := rfl
@[simp] theorem State.complete_res : (s.complete).res = s.res := rfl
@[simp] theorem State.complete_errs : (s.complete).errs = s.errs := rfl
@[simp] theorem State.complete_phase : (s.complete).phase = .idle := rfl
@[simp] theorem State.complete_stage : (s.complete).stage = .check := rfl
@[simp] theorem State.complete_latch : (s.complete).latch = none := rfl
@[simp] theorem State.complete_errOnce : (s.complete).errOnce = s.errOnce := rfl
@[simp] theorem State.complete_slots : (s.complete).slots = s.slots := rfl
@[simp] theorem State.complete_staged : (s.complete).staged = [] := rfl
@[simp] theorem State.complete_tainted : (s.complete).tainted = false := rfl
@[simp] theorem State.complete_mem : (s.complete).mem = s.mem := rfl
@[simp] theorem State.complete_agenda : (s.complete).agenda = s.agenda := rfl
@[simp] theorem State.complete_hostRead : (s.complete).hostRead = s.hostRead := rfl
@[simp] theorem State.complete_draws : (s.complete).draws = s.draws := rfl

/-! ### Memory writes (R80) and free bytes -/

@[simp] theorem State.memWrite_params (a : Nat) (bs : List Byte) : (s.memWrite a bs).params = s.params := rfl
@[simp] theorem State.memWrite_status (a : Nat) (bs : List Byte) : (s.memWrite a bs).status = s.status := rfl
@[simp] theorem State.memWrite_irqEn (a : Nat) (bs : List Byte) : (s.memWrite a bs).irqEn = s.irqEn := rfl
@[simp] theorem State.memWrite_cmd (a : Nat) (bs : List Byte) : (s.memWrite a bs).cmd = s.cmd := rfl
@[simp] theorem State.memWrite_args (a : Nat) (bs : List Byte) : (s.memWrite a bs).args = s.args := rfl
@[simp] theorem State.memWrite_res (a : Nat) (bs : List Byte) : (s.memWrite a bs).res = s.res := rfl
@[simp] theorem State.memWrite_errs (a : Nat) (bs : List Byte) : (s.memWrite a bs).errs = s.errs := rfl
@[simp] theorem State.memWrite_phase (a : Nat) (bs : List Byte) : (s.memWrite a bs).phase = s.phase := rfl
@[simp] theorem State.memWrite_stage (a : Nat) (bs : List Byte) : (s.memWrite a bs).stage = s.stage := rfl
@[simp] theorem State.memWrite_latch (a : Nat) (bs : List Byte) : (s.memWrite a bs).latch = s.latch := rfl
@[simp] theorem State.memWrite_errOnce (a : Nat) (bs : List Byte) : (s.memWrite a bs).errOnce = s.errOnce := rfl
@[simp] theorem State.memWrite_slots (a : Nat) (bs : List Byte) : (s.memWrite a bs).slots = s.slots := rfl
@[simp] theorem State.memWrite_staged (a : Nat) (bs : List Byte) : (s.memWrite a bs).staged = s.staged := rfl
@[simp] theorem State.memWrite_tainted (a : Nat) (bs : List Byte) : (s.memWrite a bs).tainted = s.tainted := rfl
@[simp] theorem State.memWrite_mem (a : Nat) (bs : List Byte) : (s.memWrite a bs).mem = s.mem.writeBytes a bs := rfl
@[simp] theorem State.memWrite_agenda (a : Nat) (bs : List Byte) : (s.memWrite a bs).agenda = s.agenda := rfl
@[simp] theorem State.memWrite_hostRead (a : Nat) (bs : List Byte) : (s.memWrite a bs).hostRead = s.hostRead := rfl
@[simp] theorem State.memWrite_draws (a : Nat) (bs : List Byte) : (s.memWrite a bs).draws = s.draws := rfl
@[simp] theorem State.havoc_params (a n : Nat) : (s.havoc a n).params = s.params := rfl
@[simp] theorem State.havoc_status (a n : Nat) : (s.havoc a n).status = s.status := rfl
@[simp] theorem State.havoc_irqEn (a n : Nat) : (s.havoc a n).irqEn = s.irqEn := rfl
@[simp] theorem State.havoc_cmd (a n : Nat) : (s.havoc a n).cmd = s.cmd := rfl
@[simp] theorem State.havoc_args (a n : Nat) : (s.havoc a n).args = s.args := rfl
@[simp] theorem State.havoc_res (a n : Nat) : (s.havoc a n).res = s.res := rfl
@[simp] theorem State.havoc_errs (a n : Nat) : (s.havoc a n).errs = s.errs := rfl
@[simp] theorem State.havoc_phase (a n : Nat) : (s.havoc a n).phase = s.phase := rfl
@[simp] theorem State.havoc_stage (a n : Nat) : (s.havoc a n).stage = s.stage := rfl
@[simp] theorem State.havoc_latch (a n : Nat) : (s.havoc a n).latch = s.latch := rfl
@[simp] theorem State.havoc_errOnce (a n : Nat) : (s.havoc a n).errOnce = s.errOnce := rfl
@[simp] theorem State.havoc_slots (a n : Nat) : (s.havoc a n).slots = s.slots := rfl
@[simp] theorem State.havoc_staged (a n : Nat) : (s.havoc a n).staged = s.staged := rfl
@[simp] theorem State.havoc_tainted (a n : Nat) : (s.havoc a n).tainted = s.tainted := rfl
@[simp] theorem State.havoc_mem (a n : Nat) : (s.havoc a n).mem = s.mem.writeBytes a (freeBytes s.draws n) := rfl
@[simp] theorem State.havoc_agenda (a n : Nat) : (s.havoc a n).agenda = s.agenda := rfl
@[simp] theorem State.havoc_hostRead (a n : Nat) : (s.havoc a n).hostRead = s.hostRead := rfl
@[simp] theorem State.havoc_draws (a n : Nat) : (s.havoc a n).draws = s.draws + n := rfl
@[simp] theorem State.havocDst_params (L : Latch) : (s.havocDst L).params = s.params := rfl
@[simp] theorem State.havocDst_status (L : Latch) : (s.havocDst L).status = s.status := rfl
@[simp] theorem State.havocDst_irqEn (L : Latch) : (s.havocDst L).irqEn = s.irqEn := rfl
@[simp] theorem State.havocDst_cmd (L : Latch) : (s.havocDst L).cmd = s.cmd := rfl
@[simp] theorem State.havocDst_args (L : Latch) : (s.havocDst L).args = s.args := rfl
@[simp] theorem State.havocDst_res (L : Latch) : (s.havocDst L).res = s.res := rfl
@[simp] theorem State.havocDst_errs (L : Latch) : (s.havocDst L).errs = s.errs := rfl
@[simp] theorem State.havocDst_phase (L : Latch) : (s.havocDst L).phase = s.phase := rfl
@[simp] theorem State.havocDst_stage (L : Latch) : (s.havocDst L).stage = s.stage := rfl
@[simp] theorem State.havocDst_latch (L : Latch) : (s.havocDst L).latch = s.latch := rfl
@[simp] theorem State.havocDst_errOnce (L : Latch) : (s.havocDst L).errOnce = s.errOnce := rfl
@[simp] theorem State.havocDst_slots (L : Latch) : (s.havocDst L).slots = s.slots := rfl
@[simp] theorem State.havocDst_staged (L : Latch) : (s.havocDst L).staged = s.staged := rfl
@[simp] theorem State.havocDst_tainted (L : Latch) : (s.havocDst L).tainted = s.tainted := rfl
@[simp] theorem State.havocDst_agenda (L : Latch) : (s.havocDst L).agenda = s.agenda := rfl
@[simp] theorem State.havocDst_hostRead (L : Latch) : (s.havocDst L).hostRead = s.hostRead := rfl

/-! ### Capture (R313) -/

@[simp] theorem State.capture_params (c : Word) (r : Raise) : (s.capture c r).params = s.params := by
  unfold State.capture; split <;> rfl
@[simp] theorem State.capture_irqEn (c : Word) (r : Raise) : (s.capture c r).irqEn = s.irqEn := by
  unfold State.capture; split <;> rfl
@[simp] theorem State.capture_cmd (c : Word) (r : Raise) : (s.capture c r).cmd = s.cmd := by
  unfold State.capture; split <;> rfl
@[simp] theorem State.capture_args (c : Word) (r : Raise) : (s.capture c r).args = s.args := by
  unfold State.capture; split <;> rfl
@[simp] theorem State.capture_res (c : Word) (r : Raise) : (s.capture c r).res = s.res := by
  unfold State.capture; split <;> rfl
@[simp] theorem State.capture_phase (c : Word) (r : Raise) : (s.capture c r).phase = s.phase := by
  unfold State.capture; split <;> rfl
@[simp] theorem State.capture_stage (c : Word) (r : Raise) : (s.capture c r).stage = s.stage := by
  unfold State.capture; split <;> rfl
@[simp] theorem State.capture_latch (c : Word) (r : Raise) : (s.capture c r).latch = s.latch := by
  unfold State.capture; split <;> rfl
@[simp] theorem State.capture_slots (c : Word) (r : Raise) : (s.capture c r).slots = s.slots := by
  unfold State.capture; split <;> rfl
@[simp] theorem State.capture_staged (c : Word) (r : Raise) : (s.capture c r).staged = s.staged := by
  unfold State.capture; split <;> rfl
@[simp] theorem State.capture_tainted (c : Word) (r : Raise) : (s.capture c r).tainted = s.tainted := by
  unfold State.capture; split <;> rfl
@[simp] theorem State.capture_mem (c : Word) (r : Raise) : (s.capture c r).mem = s.mem := by
  unfold State.capture; split <;> rfl
@[simp] theorem State.capture_agenda (c : Word) (r : Raise) : (s.capture c r).agenda = s.agenda := by
  unfold State.capture; split <;> rfl
@[simp] theorem State.capture_hostRead (c : Word) (r : Raise) : (s.capture c r).hostRead = s.hostRead := by
  unfold State.capture; split <;> rfl
@[simp] theorem State.capture_draws (c : Word) (r : Raise) : (s.capture c r).draws = s.draws := by
  unfold State.capture; split <;> rfl

/-- Everything a capture does: nothing when the job has captured before, else the error registers, ERR and the flag (R313). -/
theorem State.capture_cases (c : Word) (r : Raise) :
    (s.errOnce = true ∧ s.capture c r = s) ∨
    (s.errOnce = false ∧ s.capture c r = { s with
      errOnce := true
      errs := { s.errs with
        cause := r.cause, chunk := c, info := BitVec.ofNat 32 r.info, pos := BitVec.ofNat 32 r.pos }
      status := { s.status with err := true } }) := by
  unfold State.capture
  cases h : s.errOnce <;> simp

@[simp] theorem State.capture_errOnce (c : Word) (r : Raise) : (s.capture c r).errOnce = true := by
  unfold State.capture; split <;> simp_all

@[simp] theorem State.capture_status_done (c : Word) (r : Raise) : (s.capture c r).status.done = s.status.done := by
  unfold State.capture; split <;> rfl

@[simp] theorem State.capture_status_jobFail (c : Word) (r : Raise) : (s.capture c r).status.jobFail = s.status.jobFail := by
  unfold State.capture; split <;> rfl

@[simp] theorem State.capture_status_overrun (c : Word) (r : Raise) : (s.capture c r).status.overrun = s.status.overrun := by
  unfold State.capture; split <;> rfl

@[simp] theorem State.capture_errs_jobCause (c : Word) (r : Raise) : (s.capture c r).errs.jobCause = s.errs.jobCause := by
  unfold State.capture; split <;> rfl


/-! ### Job failure (R312) -/

@[simp] theorem State.recordJobFail_params (r : Raise) : (s.recordJobFail r).params = s.params := by
  simp [State.recordJobFail]
@[simp] theorem State.recordJobFail_irqEn (r : Raise) : (s.recordJobFail r).irqEn = s.irqEn := by
  simp [State.recordJobFail]
@[simp] theorem State.recordJobFail_cmd (r : Raise) : (s.recordJobFail r).cmd = s.cmd := by
  simp [State.recordJobFail]
@[simp] theorem State.recordJobFail_args (r : Raise) : (s.recordJobFail r).args = s.args := by
  simp [State.recordJobFail]
@[simp] theorem State.recordJobFail_phase (r : Raise) : (s.recordJobFail r).phase = s.phase := by
  simp [State.recordJobFail]
@[simp] theorem State.recordJobFail_stage (r : Raise) : (s.recordJobFail r).stage = s.stage := by
  simp [State.recordJobFail]
@[simp] theorem State.recordJobFail_latch (r : Raise) : (s.recordJobFail r).latch = s.latch := by
  simp [State.recordJobFail]
@[simp] theorem State.recordJobFail_slots (r : Raise) : (s.recordJobFail r).slots = s.slots := by
  simp [State.recordJobFail]
@[simp] theorem State.recordJobFail_staged (r : Raise) : (s.recordJobFail r).staged = s.staged := by
  simp [State.recordJobFail]
@[simp] theorem State.recordJobFail_tainted (r : Raise) : (s.recordJobFail r).tainted = s.tainted := by
  simp [State.recordJobFail]
@[simp] theorem State.recordJobFail_mem (r : Raise) : (s.recordJobFail r).mem = s.mem := by
  simp [State.recordJobFail]
@[simp] theorem State.recordJobFail_agenda (r : Raise) : (s.recordJobFail r).agenda = s.agenda := by
  simp [State.recordJobFail]
@[simp] theorem State.recordJobFail_hostRead (r : Raise) : (s.recordJobFail r).hostRead = s.hostRead := by
  simp [State.recordJobFail]
@[simp] theorem State.recordJobFail_draws (r : Raise) : (s.recordJobFail r).draws = s.draws := by
  simp [State.recordJobFail]

@[simp] theorem State.recordJobFail_errOnce (r : Raise) : (s.recordJobFail r).errOnce = true := by
  simp [State.recordJobFail]

@[simp] theorem State.recordJobFail_res (r : Raise) : (s.recordJobFail r).res =
    { s.res with dstLen := 0, nbitsOut := 0, codeCount := 0, dictSize := 0, bitWidth := 0 } := by
  simp [State.recordJobFail]

@[simp] theorem State.recordJobFail_status (r : Raise) : (s.recordJobFail r).status =
    { (s.capture jobLevel r).status with jobFail := true } := rfl

@[simp] theorem State.recordJobFail_errs (r : Raise) : (s.recordJobFail r).errs =
    { (s.capture jobLevel r).errs with jobCause := r.cause } := rfl

@[simp] theorem State.jobFail_params (r : Raise) : (s.jobFail r).params = s.params := by
  simp [State.jobFail]
@[simp] theorem State.jobFail_irqEn (r : Raise) : (s.jobFail r).irqEn = s.irqEn := by
  simp [State.jobFail]
@[simp] theorem State.jobFail_cmd (r : Raise) : (s.jobFail r).cmd = s.cmd := by
  simp [State.jobFail]
@[simp] theorem State.jobFail_args (r : Raise) : (s.jobFail r).args = s.args := by
  simp [State.jobFail]
@[simp] theorem State.jobFail_phase (r : Raise) : (s.jobFail r).phase = .idle := by
  simp [State.jobFail]
@[simp] theorem State.jobFail_stage (r : Raise) : (s.jobFail r).stage = .check := by
  simp [State.jobFail]
@[simp] theorem State.jobFail_latch (r : Raise) : (s.jobFail r).latch = none := by
  simp [State.jobFail]
@[simp] theorem State.jobFail_slots (r : Raise) : (s.jobFail r).slots = s.slots := by
  simp [State.jobFail]
@[simp] theorem State.jobFail_staged (r : Raise) : (s.jobFail r).staged = [] := by
  simp [State.jobFail]
@[simp] theorem State.jobFail_tainted (r : Raise) : (s.jobFail r).tainted = false := by
  simp [State.jobFail]
@[simp] theorem State.jobFail_mem (r : Raise) : (s.jobFail r).mem = s.mem := by
  simp [State.jobFail]
@[simp] theorem State.jobFail_agenda (r : Raise) : (s.jobFail r).agenda = s.agenda := by
  simp [State.jobFail]
@[simp] theorem State.jobFail_hostRead (r : Raise) : (s.jobFail r).hostRead = s.hostRead := by
  simp [State.jobFail]
@[simp] theorem State.jobFail_draws (r : Raise) : (s.jobFail r).draws = s.draws := by
  simp [State.jobFail]

@[simp] theorem State.jobFail_errOnce (r : Raise) : (s.jobFail r).errOnce = true := by simp [State.jobFail]

@[simp] theorem State.jobFail_res (r : Raise) : (s.jobFail r).res =
    { s.res with dstLen := 0, nbitsOut := 0, codeCount := 0, dictSize := 0, bitWidth := 0 } := by
  simp [State.jobFail]

@[simp] theorem State.jobFail_status (r : Raise) : (s.jobFail r).status =
    { (s.capture jobLevel r).status with jobFail := true, done := true } := rfl

@[simp] theorem State.jobFail_errs (r : Raise) : (s.jobFail r).errs =
    { (s.capture jobLevel r).errs with jobCause := r.cause } := rfl


/-! ### The capture of a job whose workers ran at the same time (R314) -/

@[simp] theorem State.captureOneOf_params (fs : List (Nat × Raise)) : (s.captureOneOf fs).params = s.params := by
  unfold State.captureOneOf; split <;> simp
@[simp] theorem State.captureOneOf_irqEn (fs : List (Nat × Raise)) : (s.captureOneOf fs).irqEn = s.irqEn := by
  unfold State.captureOneOf; split <;> simp
@[simp] theorem State.captureOneOf_cmd (fs : List (Nat × Raise)) : (s.captureOneOf fs).cmd = s.cmd := by
  unfold State.captureOneOf; split <;> simp
@[simp] theorem State.captureOneOf_args (fs : List (Nat × Raise)) : (s.captureOneOf fs).args = s.args := by
  unfold State.captureOneOf; split <;> simp
@[simp] theorem State.captureOneOf_res (fs : List (Nat × Raise)) : (s.captureOneOf fs).res = s.res := by
  unfold State.captureOneOf; split <;> simp
@[simp] theorem State.captureOneOf_phase (fs : List (Nat × Raise)) : (s.captureOneOf fs).phase = s.phase := by
  unfold State.captureOneOf; split <;> simp
@[simp] theorem State.captureOneOf_stage (fs : List (Nat × Raise)) : (s.captureOneOf fs).stage = s.stage := by
  unfold State.captureOneOf; split <;> simp
@[simp] theorem State.captureOneOf_latch (fs : List (Nat × Raise)) : (s.captureOneOf fs).latch = s.latch := by
  unfold State.captureOneOf; split <;> simp
@[simp] theorem State.captureOneOf_slots (fs : List (Nat × Raise)) : (s.captureOneOf fs).slots = s.slots := by
  unfold State.captureOneOf; split <;> simp
@[simp] theorem State.captureOneOf_staged (fs : List (Nat × Raise)) : (s.captureOneOf fs).staged = s.staged := by
  unfold State.captureOneOf; split <;> simp
@[simp] theorem State.captureOneOf_tainted (fs : List (Nat × Raise)) : (s.captureOneOf fs).tainted = s.tainted := by
  unfold State.captureOneOf; split <;> simp
@[simp] theorem State.captureOneOf_mem (fs : List (Nat × Raise)) : (s.captureOneOf fs).mem = s.mem := by
  unfold State.captureOneOf; split <;> simp
@[simp] theorem State.captureOneOf_agenda (fs : List (Nat × Raise)) : (s.captureOneOf fs).agenda = s.agenda := by
  unfold State.captureOneOf; split <;> simp
@[simp] theorem State.captureOneOf_hostRead (fs : List (Nat × Raise)) : (s.captureOneOf fs).hostRead = s.hostRead := by
  unfold State.captureOneOf; split <;> simp
@[simp] theorem State.captureOneOf_status_done (fs : List (Nat × Raise)) :
    (s.captureOneOf fs).status.done = s.status.done := by
  unfold State.captureOneOf; split <;> simp
@[simp] theorem State.captureOneOf_status_jobFail (fs : List (Nat × Raise)) :
    (s.captureOneOf fs).status.jobFail = s.status.jobFail := by
  unfold State.captureOneOf; split <;> simp
@[simp] theorem State.captureOneOf_status_overrun (fs : List (Nat × Raise)) :
    (s.captureOneOf fs).status.overrun = s.status.overrun := by
  unfold State.captureOneOf; split <;> simp
@[simp] theorem State.captureOneOf_errs_jobCause (fs : List (Nat × Raise)) :
    (s.captureOneOf fs).errs.jobCause = s.errs.jobCause := by
  unfold State.captureOneOf; split <;> simp

/-! ### Chunk failure (R311) -/

@[simp] theorem State.chunkFail_params (i : Nat) (r : Raise) : (s.chunkFail i r).params = s.params := by
  simp [State.chunkFail]
@[simp] theorem State.chunkFail_irqEn (i : Nat) (r : Raise) : (s.chunkFail i r).irqEn = s.irqEn := by
  simp [State.chunkFail]
@[simp] theorem State.chunkFail_cmd (i : Nat) (r : Raise) : (s.chunkFail i r).cmd = s.cmd := by
  simp [State.chunkFail]
@[simp] theorem State.chunkFail_args (i : Nat) (r : Raise) : (s.chunkFail i r).args = s.args := by
  simp [State.chunkFail]
@[simp] theorem State.chunkFail_phase (i : Nat) (r : Raise) : (s.chunkFail i r).phase = s.phase := by
  simp [State.chunkFail]
@[simp] theorem State.chunkFail_stage (i : Nat) (r : Raise) : (s.chunkFail i r).stage = s.stage := by
  simp [State.chunkFail]
@[simp] theorem State.chunkFail_latch (i : Nat) (r : Raise) : (s.chunkFail i r).latch = s.latch := by
  simp [State.chunkFail]
@[simp] theorem State.chunkFail_staged (i : Nat) (r : Raise) : (s.chunkFail i r).staged = s.staged := by
  simp [State.chunkFail]
@[simp] theorem State.chunkFail_tainted (i : Nat) (r : Raise) : (s.chunkFail i r).tainted = s.tainted := by
  simp [State.chunkFail]
@[simp] theorem State.chunkFail_mem (i : Nat) (r : Raise) : (s.chunkFail i r).mem = s.mem := by
  simp [State.chunkFail]
@[simp] theorem State.chunkFail_agenda (i : Nat) (r : Raise) : (s.chunkFail i r).agenda = s.agenda := by
  simp [State.chunkFail]
@[simp] theorem State.chunkFail_hostRead (i : Nat) (r : Raise) : (s.chunkFail i r).hostRead = s.hostRead := by
  simp [State.chunkFail]
@[simp] theorem State.chunkFail_draws (i : Nat) (r : Raise) : (s.chunkFail i r).draws = s.draws := by
  simp [State.chunkFail]

@[simp] theorem State.chunkFail_slots (i : Nat) (r : Raise) :
    (s.chunkFail i r).slots = s.slots.modify i fun sl => sl.fail r := by
  simp [State.chunkFail]

@[simp] theorem State.chunkFail_errOnce (i : Nat) (r : Raise) : (s.chunkFail i r).errOnce = true := by
  simp [State.chunkFail]

@[simp] theorem State.chunkFail_res (i : Nat) (r : Raise) : (s.chunkFail i r).res = { s.res with
    chunkCause := s.res.chunkCause.setIfInBounds i r.cause
    chunkSize := s.res.chunkSize.setIfInBounds i 0
    failCount := s.res.failCount + 1 } := by
  simp [State.chunkFail]


/-! ### The workers run at once (R232 to R236) -/

@[simp] theorem State.runWorkers_params (c : Codec) : (s.runWorkers c).params = s.params := by
  simp only [State.runWorkers]; split <;> simp
@[simp] theorem State.runWorkers_irqEn (c : Codec) : (s.runWorkers c).irqEn = s.irqEn := by
  simp only [State.runWorkers]; split <;> simp
@[simp] theorem State.runWorkers_cmd (c : Codec) : (s.runWorkers c).cmd = s.cmd := by
  simp only [State.runWorkers]; split <;> simp
@[simp] theorem State.runWorkers_args (c : Codec) : (s.runWorkers c).args = s.args := by
  simp only [State.runWorkers]; split <;> simp
@[simp] theorem State.runWorkers_phase (c : Codec) : (s.runWorkers c).phase = s.phase := by
  simp only [State.runWorkers]; split <;> simp
@[simp] theorem State.runWorkers_stage (c : Codec) : (s.runWorkers c).stage = s.stage := by
  simp only [State.runWorkers]; split <;> simp
@[simp] theorem State.runWorkers_latch (c : Codec) : (s.runWorkers c).latch = s.latch := by
  simp only [State.runWorkers]; split <;> simp
@[simp] theorem State.runWorkers_staged (c : Codec) : (s.runWorkers c).staged = s.staged := by
  simp only [State.runWorkers]; split <;> simp
@[simp] theorem State.runWorkers_tainted (c : Codec) : (s.runWorkers c).tainted = s.tainted := by
  simp only [State.runWorkers]; split <;> simp
@[simp] theorem State.runWorkers_mem (c : Codec) : (s.runWorkers c).mem = s.mem := by
  simp only [State.runWorkers]; split <;> simp
@[simp] theorem State.runWorkers_agenda (c : Codec) : (s.runWorkers c).agenda = s.agenda := by
  simp only [State.runWorkers]; split <;> simp
@[simp] theorem State.runWorkers_hostRead (c : Codec) : (s.runWorkers c).hostRead = s.hostRead := by
  simp only [State.runWorkers]; split <;> simp

@[simp] theorem State.runWorkers_slots (c : Codec) : (s.runWorkers c).slots =
    List.zipWith Slot.settle s.slots (s.slots.map fun sl => sessionOf c s.params.dictCapacity sl.input) := by
  simp only [State.runWorkers]; split <;> simp

@[simp] theorem State.runWorkers_status_done (c : Codec) : (s.runWorkers c).status.done = s.status.done := by
  simp only [State.runWorkers]; split <;> simp
@[simp] theorem State.runWorkers_status_jobFail (c : Codec) : (s.runWorkers c).status.jobFail = s.status.jobFail := by
  simp only [State.runWorkers]; split <;> simp
@[simp] theorem State.runWorkers_status_overrun (c : Codec) : (s.runWorkers c).status.overrun = s.status.overrun := by
  simp only [State.runWorkers]; split <;> simp
@[simp] theorem State.runWorkers_errs_jobCause (c : Codec) :
    (s.runWorkers c).errs.jobCause = s.errs.jobCause := by
  simp only [State.runWorkers]; split <;> simp

end

end Sys2Proof.Machine
end

