-- ==== Sys2Proof/Laws/Memory.lean ====
section
/-! SUPPORT. The laws of the data memory: a read after a write, and that every operation keeps the canonical form and the bounds. -/

namespace Sys2Proof.Machine

/-! ### Reads after writes -/

theorem Memory.read?_write (m : Memory) (a b : Nat) (v : Byte) :
    (m.write a v).read? b = if b = a then some v else m.read? b := by
  induction m with
  | nil => by_cases h : a = b <;> simp [Memory.write, Memory.read?, h, eq_comm]
  | cons c rest ih =>
    obtain ⟨k, w⟩ := c
    by_cases h1 : a < k
    · by_cases h : b = a
      · subst h; simp [Memory.write, Memory.read?, h1]
      · simp [Memory.write, Memory.read?, h1, h, Ne.symm h]
    · by_cases h2 : a = k
      · subst h2
        by_cases h : b = a
        · subst h; simp [Memory.write, Memory.read?]
        · simp [Memory.write, Memory.read?, h, Ne.symm h]
      · by_cases h3 : k = b
        · subst h3; simp [Memory.write, Memory.read?, h1, h2, Ne.symm h2]
        · simp [Memory.write, Memory.read?, h1, h2, h3, ih]

theorem Memory.read?_writeBytes_outside (m : Memory) (a : Nat) (bs : List Byte) (b : Nat)
    (h : ¬(a ≤ b ∧ b < a + bs.length)) : (m.writeBytes a bs).read? b = m.read? b := by
  induction bs generalizing m a with
  | nil => rfl
  | cons v bs ih =>
    simp only [List.length_cons] at h
    rw [Memory.writeBytes, ih _ _ (by omega), Memory.read?_write, if_neg (by omega)]

theorem Memory.read?_writeBytes_inside (m : Memory) (a : Nat) (bs : List Byte) (k : Nat) (h : k < bs.length) :
    (m.writeBytes a bs).read? (a + k) = some bs[k] := by
  induction bs generalizing m a k with
  | nil => simp at h
  | cons v bs ih =>
    cases k with
    | zero =>
      rw [Memory.writeBytes, Memory.read?_writeBytes_outside _ _ _ _ (by omega), Memory.read?_write]
      simp
    | succ k =>
      have := ih (m.write a v) (a + 1) k (by simpa using h)
      rw [Memory.writeBytes, show a + (k + 1) = a + 1 + k by omega, this]
      simp

/-! ### The canonical form -/

theorem Memory.wf_cons (x : Host.Cell) (m : Memory) :
    Memory.wf (x :: m) = true ↔ (∀ y ∈ m.head?, x.1 < y.1) ∧ Memory.wf m = true := by
  cases m <;> simp [Memory.wf]

theorem Memory.wf_write (m : Memory) (a : Nat) (v : Byte) (h : m.wf = true) : (m.write a v).wf = true := by
  induction m with
  | nil => rfl
  | cons c rest ih =>
    obtain ⟨k, w⟩ := c
    rw [Memory.wf_cons] at h
    unfold Memory.write
    split_ifs with h1 h2
    · exact (Memory.wf_cons _ _).2 ⟨by simpa using h1, (Memory.wf_cons _ _).2 h⟩
    · subst h2; exact (Memory.wf_cons _ _).2 h
    · refine (Memory.wf_cons _ _).2 ⟨?_, ih h.2⟩
      intro y hy
      cases rest with
      | nil => simp [Memory.write] at hy; subst hy; simp; omega
      | cons d rest =>
        obtain ⟨j, u⟩ := d
        have hk : k < j := h.1 (j, u) (by simp)
        simp only [Memory.write] at hy
        split_ifs at hy <;> simp at hy <;> subst hy <;> simp <;> omega

theorem Memory.wf_writeBytes (m : Memory) (a : Nat) (bs : List Byte) (h : m.wf = true) :
    (m.writeBytes a bs).wf = true := by
  induction bs generalizing m a with
  | nil => exact h
  | cons v bs ih => exact ih _ _ (Memory.wf_write m a v h)

theorem Memory.below_write (m : Memory) (a : Nat) (v : Byte) (n : Nat) (h : m.below n = true) (ha : a < n) :
    (m.write a v).below n = true := by
  simp only [Memory.below, List.all_eq_true, decide_eq_true_eq] at *
  induction m with
  | nil => simpa [Memory.write] using ha
  | cons c rest ih =>
    obtain ⟨k, w⟩ := c
    have hr := ih fun x hx => h x (List.mem_cons_of_mem _ hx)
    have hk : k < n := h (k, w) (by simp)
    unfold Memory.write
    split_ifs <;> simp only [List.mem_cons, forall_eq_or_imp]
    · exact ⟨ha, hk, fun x hx => h x (List.mem_cons_of_mem _ hx)⟩
    · exact ⟨ha, fun x hx => h x (List.mem_cons_of_mem _ hx)⟩
    · exact ⟨hk, hr⟩

theorem Memory.below_writeBytes (m : Memory) (a : Nat) (bs : List Byte) (n : Nat) (h : m.below n = true)
    (ha : a + bs.length ≤ n) : (m.writeBytes a bs).below n = true := by
  induction bs generalizing m a with
  | nil => exact h
  | cons v bs ih =>
    simp only [List.length_cons] at ha
    exact ih _ _ (Memory.below_write m a v n h (by omega)) (by omega)

/-! ### The machine's reads and writes -/

@[simp] theorem freeBytes_length (k n : Nat) : (freeBytes k n).length = n := by simp [freeBytes]

@[simp] theorem State.memRead_length (s : State) (a n : Nat) : (s.memRead a n).length = n := by simp [State.memRead]

theorem State.memRead_getElem (s : State) (a n k : Nat) (h : k < (s.memRead a n).length) :
    (s.memRead a n)[k] = s.readByte (a + k) := by simp [State.memRead]

/-- A read depends on the written bytes only. -/
theorem State.readByte_congr {s t : State} (h : t.mem = s.mem) (a : Nat) : t.readByte a = s.readByte a := by
  simp [State.readByte, h]

theorem State.memRead_congr {s t : State} (h : t.mem = s.mem) (a n : Nat) : t.memRead a n = s.memRead a n := by
  simp [State.memRead, State.readByte, h]

theorem State.readByte_memWrite_outside (s : State) (a : Nat) (bs : List Byte) (b : Nat)
    (h : ¬(a ≤ b ∧ b < a + bs.length)) : (s.memWrite a bs).readByte b = s.readByte b := by
  simp [State.readByte, Memory.read?_writeBytes_outside _ _ _ _ h]

theorem State.readByte_memWrite_inside (s : State) (a : Nat) (bs : List Byte) (k : Nat) (h : k < bs.length) :
    (s.memWrite a bs).readByte (a + k) = bs[k] := by
  simp [State.readByte, Memory.read?_writeBytes_inside _ _ _ _ h]

/-- `MemRead` after `MemWrite` at the same place gives the bytes written. -/
theorem State.memRead_memWrite (s : State) (a : Nat) (bs : List Byte) :
    (s.memWrite a bs).memRead a bs.length = bs := by
  apply List.ext_getElem (by simp)
  intro k h1 h2
  rw [State.memRead_getElem, State.readByte_memWrite_inside s a bs k h2]

theorem State.readByte_havoc_outside (s : State) (a n b : Nat) (h : ¬(a ≤ b ∧ b < a + n)) :
    (s.havoc a n).readByte b = s.readByte b := by
  simp [State.readByte, Memory.read?_writeBytes_outside _ _ _ _ (show ¬(a ≤ b ∧ b < a + (freeBytes s.draws n).length) by simpa using h)]

/-- The free draw of the destination range touches no byte outside it (R81, R289). -/
theorem State.readByte_havocDst_outside (s : State) (L : Latch) (b : Nat)
    (h : ¬(L.dst.addr ≤ b ∧ b < L.dst.addr + L.dst.len)) : (s.havocDst L).readByte b = s.readByte b := by
  apply State.readByte_havoc_outside
  simp only [Latch.dst] at h
  omega

theorem State.wf_memWrite (s : State) (a : Nat) (bs : List Byte) (h : s.mem.wf = true) :
    (s.memWrite a bs).mem.wf = true := Memory.wf_writeBytes _ _ _ h

theorem State.wf_havoc (s : State) (a n : Nat) (h : s.mem.wf = true) : (s.havoc a n).mem.wf = true :=
  Memory.wf_writeBytes _ _ _ h

theorem State.wf_havocDst (s : State) (L : Latch) (h : s.mem.wf = true) : (s.havocDst L).mem.wf = true :=
  State.wf_havoc _ _ _ h

theorem State.below_havoc (s : State) (a n size : Nat) (h : s.mem.below size = true) (ha : a + n ≤ size ∨ n = 0) :
    (s.havoc a n).mem.below size = true := by
  rcases ha with ha | ha
  · exact Memory.below_writeBytes _ _ _ _ h (by simpa using ha)
  · subst ha; simpa [freeBytes, Memory.writeBytes] using h

theorem State.below_havocDst (s : State) (L : Latch) (h : s.mem.below s.params.memSize = true) :
    (s.havocDst L).mem.below s.params.memSize = true := by
  apply State.below_havoc _ _ _ _ h
  omega

theorem State.reset_mem_wf (p : Config.Params) : (State.resetWith p).mem.wf = true := rfl

end Sys2Proof.Machine
end

