-- ==== Sys2Proof/Laws/Jobs.lean ====
section
/-! SUPPORT. What the shared operations of a job do, said once: the argument checks, a job failure, a delivered output, a soft reset. -/

namespace Sys2Proof.Machine

/-! ### The argument checks (R84, R85, R284) -/

@[simp] theorem Buffer.overlaps_eq_false (b c : Buffer) : b.overlaps c = false ↔ b.Apart c := by
  simp only [Buffer.overlaps, Buffer.Apart, Bool.and_eq_false_iff, decide_eq_false_iff_not]
  omega

@[simp] theorem Buffer.valid_eq_true (b : Buffer) (size : Nat) : b.valid size = true ↔ b.addr + b.len ≤ size := by
  simp [Buffer.valid]

@[simp] theorem Buffer.holds_eq_true (b : Buffer) (a : Nat) : b.holds a = true ↔ b.addr ≤ a ∧ a < b.addr + b.len := by
  simp [Buffer.holds]

/-- The common checks pass exactly on arguments that pass them. -/
theorem argFault_eq_none (s : State) (L : Latch) (e : Bool) : argFault s.params.memSize L e = none ↔ ArgsPass s L e := by
  have hv (b : Buffer) : (!b.valid s.params.memSize) = true ↔ ¬(b.addr + b.len ≤ s.params.memSize) := by
    simp [Buffer.valid]
  have ho (b c : Buffer) : b.overlaps c = true ↔ ¬b.Apart c := by
    rw [← Buffer.overlaps_eq_false, Bool.not_eq_false]
  unfold argFault
  constructor
  · intro h
    split_ifs at h with h1 h2 h3 h4 h5
    simp only [hv, ho, Bool.and_eq_true, not_and, not_not] at h1 h2 h3 h4 h5
    exact ⟨h1, h2, h3, h4, h5⟩
  · rintro ⟨h1, h2, h3, h4, h5⟩
    simp [hv, ho, h1, h2, h4]
    cases e
    · simp
    · simp [h3 rfl, ho, h5 rfl]

/-- Where the common checks fail, the raise is a BAD_ARGS (R284). -/
theorem argFault_cause {m : Nat} {L : Latch} {e : Bool} {r : Raise} (h : argFault m L e = some r) : r.cause = .badArgs := by
  unfold argFault at h
  split_ifs at h <;> (simp only [Option.some.injEq] at h; subst h; rfl)

/-! ### The latch (R66) -/

theorem State.withLatch_of_latch {s : State} {L : Latch} (h : s.latch = some L) (k : Latch → State) :
    s.withLatch k = .next (k L) := by simp [State.withLatch, h]

theorem State.withLatch_of_none {s : State} (h : s.latch = none) (k : Latch → State) :
    s.withLatch k = .fault .latchEmpty := by simp [State.withLatch, h]

/-- Every command but NOP reads the latch, and with no value there it faults. -/
theorem exec_of_latch_none {i : Instr} {s : State} (hi : i ≠ .nop) (h : s.latch = none) : exec i s = .fault .latchEmpty := by
  cases i <;> first | exact absurd rfl hi | exact State.withLatch_of_none h _

/-! ### Job start (R282) -/

theorem State.startJob_justStarted (s : State) (v : Word) : JustStarted (s.startJob v) { cmd := v, args := s.args } := by
  constructor <;> rfl

/-! ### What a job leaves of the host's side, and of the memory -/

theorem HostSideKept.refl (s : State) : HostSideKept s s := by constructor <;> rfl

theorem HostSideKept.trans {s t u : State} (h : HostSideKept s t) (k : HostSideKept t u) : HostSideKept s u := by
  constructor <;> simp [h.params, h.irqEn, h.cmd, h.args, h.overrun, h.agenda, h.hostRead, k.params, k.irqEn, k.cmd, k.args, k.overrun,
    k.agenda, k.hostRead]

theorem KeptOutside.refl (s : State) (b : Buffer) : KeptOutside s s b := fun _ _ => rfl

theorem KeptOutside.of_mem_eq {s t : State} (h : t.mem = s.mem) (b : Buffer) : KeptOutside s t b :=
  fun a _ => State.readByte_congr h a

theorem KeptOutside.trans {s t u : State} {b : Buffer} (h : KeptOutside s t b) (k : KeptOutside t u b) : KeptOutside s u b :=
  fun a ha => (k a ha).trans (h a ha)

theorem MemoryKept.of_mem_eq {s t : State} (h : t.mem = s.mem) : MemoryKept s t := fun a => State.readByte_congr h a

theorem State.complete_completed (s : State) : Completed s.complete := by constructor <;> rfl

theorem State.complete_host (s : State) : HostSideKept s s.complete := by constructor <;> simp

theorem State.jobFail_completed (s : State) (r : Raise) : Completed (s.jobFail r) := by
  constructor <;> simp

theorem State.jobFail_host (s : State) (r : Raise) : HostSideKept s (s.jobFail r) := by
  constructor <;> simp

/-! ### Job failure (R312) -/

/-- A job failure in a job that has captured nothing: everything it records. -/
theorem State.jobFail_records (s : State) (r : Raise) (hOnce : s.errOnce = false) : JobFailed s (s.jobFail r) r := by
  constructor
  case completed => exact s.jobFail_completed r
  case host => exact s.jobFail_host r
  all_goals simp [State.capture, hOnce, jobLevel]

/-- A job failure right after the job start: all of it. -/
theorem JustStarted.jobFail {s : State} {L : Latch} (h : JustStarted s L) (r : Raise) :
    JobFailed s (s.jobFail r) r ∧ (s.jobFail r).res = {} ∧ MemoryKept s (s.jobFail r) :=
  ⟨s.jobFail_records r h.armed, by simp [h.res], MemoryKept.of_mem_eq (by simp)⟩

/-! ### The end of a command that has an output (R308, R289) -/

/-- Too long an output: a job failure, and any bytes in the destination range. -/
theorem State.deliver_overflow (s : State) (L : Latch) (out : List Byte) (regs : Results → Results)
    (h : L.dst.len < out.length) :
    s.deliver L out regs =
      (s.jobFail { cause := .outputOverflow, info := min out.length (2 ^ 32 - 1), pos := 0 }).havocDst L := by
  simp only [Latch.dst] at h
  simp [State.deliver, h]

/-- An output that fits: it is in the destination, the registers are the command's, and nothing else is touched. -/
theorem State.deliver_fits (s : State) (L : Latch) (out : List Byte) (regs : Results → Results)
    (h : out.length ≤ L.dst.len) :
    Completed (s.deliver L out regs) ∧ HoldsAt (s.deliver L out regs) L.dst.addr out ∧
      KeptOutside s (s.deliver L out regs) L.dst ∧ HostSideKept s (s.deliver L out regs) ∧
      (s.deliver L out regs).res = regs { s.res with dstLen := BitVec.ofNat 32 out.length } ∧
      (s.deliver L out regs).errs = s.errs ∧ (s.deliver L out regs).status = { s.status with done := true } ∧
      (s.deliver L out regs).errOnce = s.errOnce ∧ (s.deliver L out regs).slots = s.slots := by
  simp only [Latch.dst] at h
  have hn : ¬L.args.dstCap.toNat < out.length := by omega
  simp only [State.deliver, hn, if_false]
  refine ⟨by constructor <;> rfl, ?_, ?_, by constructor <;> rfl, rfl, rfl, rfl, rfl, rfl⟩
  · intro k hk
    refine (State.readByte_congr (State.complete_mem _) _).trans ?_
    refine (State.readByte_havoc_outside _ _ _ _ (by simp only [Latch.dst]; omega)).trans ?_
    exact State.readByte_memWrite_inside _ _ _ k hk
  · intro a ha
    simp only [Latch.dst] at ha
    refine (State.readByte_congr (State.complete_mem _) _).trans ?_
    refine (State.readByte_havoc_outside _ _ _ _ (by omega)).trans ?_
    exact State.readByte_memWrite_outside _ _ _ _ (by omega)

/-- Whatever the length of the output: completed, the frame kept, the slots as they were. -/
theorem State.deliver_frame (s : State) (L : Latch) (out : List Byte) (regs : Results → Results) :
    Completed (s.deliver L out regs) ∧ KeptOutside s (s.deliver L out regs) L.dst ∧
      HostSideKept s (s.deliver L out regs) ∧ (s.deliver L out regs).slots = s.slots := by
  by_cases h : L.dst.len < out.length
  · rw [State.deliver_overflow _ _ _ _ h]
    refine ⟨by constructor <;> simp, ?_, by constructor <;> simp, by simp⟩
    intro a ha
    exact (State.readByte_havocDst_outside _ L a ha).trans (State.readByte_congr (by simp) a)
  · obtain ⟨h1, -, h3, h4, -, -, -, -, h9⟩ := s.deliver_fits L out regs (by omega)
    exact ⟨h1, h3, h4, h9⟩

/-- The memory after an output keeps its form, and its bounds where the destination lies in the memory. -/
theorem State.deliver_mem_wf (s : State) (L : Latch) (out : List Byte) (regs : Results → Results) (h : s.mem.wf = true) :
    (s.deliver L out regs).mem.wf = true := by
  unfold State.deliver
  split
  · exact State.wf_havocDst _ L (by simpa using h)
  · simpa using State.wf_havoc _ _ _ (State.wf_memWrite s _ out h)

theorem State.deliver_mem_below (s : State) (L : Latch) (out : List Byte) (regs : Results → Results)
    (h : s.mem.below s.params.memSize = true) (hd : L.dst.addr + L.dst.len ≤ s.params.memSize) :
    (s.deliver L out regs).mem.below s.params.memSize = true := by
  simp only [Latch.dst] at hd
  unfold State.deliver
  split
  · have := State.below_havocDst (s.jobFail { cause := .outputOverflow, info := min out.length (2 ^ 32 - 1), pos := 0 }) L (by simpa using h)
    simpa using this
  · simp only [State.complete_mem]
    refine State.below_havoc _ _ _ _ (Memory.below_writeBytes _ _ _ _ h (by omega)) (Or.inl (by omega))

/-! ### Soft reset (R350 to R353) -/

/-- Everything a soft reset leaves but the memory. -/
theorem State.softReset_fields (s : State) :
    s.softReset.params = s.params ∧ s.softReset.status = {} ∧ s.softReset.irqEn = {} ∧ s.softReset.cmd = 0 ∧
      s.softReset.args = {} ∧ s.softReset.res = {} ∧ s.softReset.errs = {} ∧ s.softReset.phase = .idle ∧
      s.softReset.latch = none ∧ s.softReset.errOnce = false ∧ s.softReset.slots = [] ∧ s.softReset.staged = [] ∧
      s.softReset.tainted = false ∧ s.softReset.agenda = s.agenda ∧ s.softReset.hostRead = s.hostRead := by
  unfold State.softReset
  split <;> exact ⟨rfl, rfl, rfl, rfl, rfl, rfl, rfl, rfl, rfl, rfl, rfl, rfl, rfl, rfl, rfl⟩

/-- A byte outside the destination range of a running job is as before. -/
theorem State.softReset_readByte (s : State) (a : Nat)
    (h : ∀ L, s.phase = .running → s.latch = some L → ¬(L.dst.addr ≤ a ∧ a < L.dst.addr + L.dst.len)) :
    s.softReset.readByte a = s.readByte a := by
  unfold State.softReset
  split
  next L hp hl => exact (State.readByte_havocDst_outside _ L a (h L hp hl)).trans (State.readByte_congr rfl a)
  next => exact State.readByte_congr rfl a

theorem State.softReset_mem (s : State) (h : s.mem.wf = true) (hb : s.mem.below s.params.memSize = true) :
    s.softReset.mem.wf = true ∧ s.softReset.mem.below s.params.memSize = true := by
  unfold State.softReset
  split
  next L _ _ =>
    exact ⟨State.wf_havocDst _ L h, State.below_havocDst { State.resetWith s.params with
      mem := s.mem, agenda := s.agenda, hostRead := s.hostRead, draws := s.draws } L hb⟩
  next => exact ⟨h, hb⟩

end Sys2Proof.Machine
end

