-- ==== Sys2Proof/Laws/PerInstr.lean ====
section
/-! SUPPORT. Statements about every command, one lemma a constructor. -/

namespace Sys2Proof.Laws.EncodedFields

/-- The word of a well-formed command carries the command's opcode in bits 3:0 and no reserved bit (R111, R115). -/
def Statement (i : Instr) : Prop := i.wf = true → opField (encode i) = i.opcode ∧ reservedClear (encode i) = true

theorem nop : Statement .nop := fun _ => ⟨rfl, rfl⟩

theorem pack (width : Nat) : Statement (.pack width) := fun h =>
  have f := assembleWord_fields 1 0 width false (by omega) (by omega) (of_decide_eq_true h)
  ⟨f.1, f.2.2.2.2⟩

theorem unpack (width : Nat) : Statement (.unpack width) := fun h =>
  have f := assembleWord_fields 2 0 width false (by omega) (by omega) (of_decide_eq_true h)
  ⟨f.1, f.2.2.2.2⟩

theorem lzwEnc : Statement .lzwEnc := fun _ => ⟨rfl, rfl⟩

theorem lzwDec : Statement .lzwDec := fun _ => ⟨rfl, rfl⟩

theorem parEnc (n : Nat) (ext : Bool) : Statement (.parEnc n ext) := fun h =>
  have f := assembleWord_fields 5 n 0 ext (by omega) (of_decide_eq_true h) (by omega)
  ⟨f.1, f.2.2.2.2⟩

theorem parDec (n : Nat) (ext : Bool) : Statement (.parDec n ext) := fun h =>
  have f := assembleWord_fields 6 n 0 ext (by omega) (of_decide_eq_true h) (by omega)
  ⟨f.1, f.2.2.2.2⟩

end Sys2Proof.Laws.EncodedFields
end

