-- ==== Sys2Proof/Laws/Workers.lean ====
section
/-! SUPPORT. What a worker's turn does, said once; what the workers of a whole command do at once. -/

namespace Sys2Proof.Machine

/-! ### Counting slots -/

theorem countP_modify {α : Type} (p : α → Bool) (f : α → α) (l : List α) (i : Nat) (x : α) (h : l[i]? = some x) :
    (l.modify i f).countP p + (p x).toNat = l.countP p + (p (f x)).toNat := by
  induction l generalizing i with
  | nil => simp at h
  | cons y l ih =>
    cases i with
    | zero =>
      obtain rfl : y = x := by simpa using h
      simp only [List.modify_zero_cons, List.countP_cons]
      cases p y <;> cases p (f y) <;> simp
    | succ i =>
      have := ih i (by simpa using h)
      simp only [List.modify_succ_cons, List.countP_cons]
      omega

/-- The slot at an index of the modified list. -/
theorem getElem?_modify_slot (l : List Slot) (f : Slot → Slot) (i j : Nat) :
    (l.modify i f)[j]? = if i = j then (l[j]?).map f else l[j]? := by
  rw [List.getElem?_modify]
  split <;> simp

theorem mem_modify_slot {l : List Slot} {f : Slot → Slot} {i : Nat} {sl x : Slot} (h : l[i]? = some sl)
    (hx : x ∈ l.modify i f) : x = f sl ∨ x ∈ l := by
  obtain ⟨j, hj⟩ := List.mem_iff_getElem?.1 hx
  rw [getElem?_modify_slot] at hj
  split at hj
  next hij =>
    subst hij
    rw [h] at hj
    exact .inl (by simpa using hj.symm)
  next => exact .inr (List.mem_of_getElem? hj)

/-! ### One worker, one unit (R21, R31, R232) -/

/-- What the turn of worker `i` can do to a state. -/
inductive WorkerMove (s : State) (i : Nat) : State → Prop where
  /-- The turn passes: no such worker, or it cannot move. -/
  | pass : WorkerMove s i s
  /-- A pending worker starts its session, an engine being free (R10, R232). -/
  | start (sl : Slot) (x : Session) (hs : s.slots[i]? = some sl) (hp : sl.phase = .pending)
      (he : runningCount s.slots < s.params.nEngines) (hx : x.scan = 0) :
      WorkerMove s i { s with slots := s.slots.modify i fun sl => { sl with phase := .running, session := some x } }
  /-- The session raises: a chunk failure (R311). -/
  | fail (sl : Slot) (r : Raise) (hs : s.slots[i]? = some sl) (hp : sl.phase = .pending ∨ sl.phase = .running)
      (hr : r.cause ≠ .none) : WorkerMove s i (s.chunkFail i r)
  /-- The session has no unit left and ends with its result. -/
  | ok (sl : Slot) (x : Session) (r : CodecResult) (hs : s.slots[i]? = some sl) (hp : sl.phase = .running)
      (hx : sl.session = some x) (hend : x.units sl ≤ x.scan) : WorkerMove s i (s.chunkOk i r)
  /-- The session takes one unit: its scan position moves by one (R31). -/
  | unit (sl : Slot) (x y : Session) (hs : s.slots[i]? = some sl) (hp : sl.phase = .running) (hx : sl.session = some x)
      (hscan : y.scan = x.scan + 1) (hunits : y.units sl = x.units sl) (hlt : x.scan < x.units sl) :
      WorkerMove s i (s.chunkUnit i y.scan (y.units sl) y)

/-- Everything a worker's turn can do. -/
theorem State.workerStep_move (codec : Codec) (s : State) (i : Nat) : WorkerMove s i (s.workerStep codec i) := by
  unfold State.workerStep
  split
  · exact .pass
  next sl hs =>
    split
    swap
    · exact .pass
    next hm =>
      split
      next hp =>
        have he : runningCount s.slots < s.params.nEngines := by simpa [Slot.canMove, hp] using hm
        cases codec with
        | enc => exact .start sl (.enc EncSession.start) hs hp he rfl
        | dec =>
          simp only [State.startWorker]
          split
          next r hr => exact .fail sl r hs (.inl hp) (by simp [(readFrame_cause hr).1])
          next codes nbits width _ => exact .start sl (.dec (DecSession.start codes nbits width)) hs hp he rfl
      next x hp hx =>
        cases x with
        | enc e =>
          simp only [State.advanceWorker]
          split
          next c hc =>
            have hlt : e.pos < sl.input.length := by
              by_contra hn
              rw [List.getElem?_eq_none (by omega)] at hc
              cases hc
            split
            next r hr => exact .fail sl r hs (.inr hp) (by rw [EncSession.unit_error hr]; simp)
            next e' he => exact .unit sl (.enc e) (.enc e') hs hp hx (EncSession.unit_pos he) rfl hlt
          next hc =>
            have hend : sl.input.length ≤ e.pos := by simpa using hc
            rcases closeFrame_cases e.flushed e.dict.length with ⟨-, h⟩ | ⟨-, h⟩ <;> rw [h]
            · exact .fail sl _ hs (.inr hp) (by simp)
            · exact .ok sl (.enc e) _ hs hp hx hend
        | dec d =>
          simp only [State.advanceWorker]
          split
          next k hk =>
            have hlt : d.pos < d.codes.length := by
              by_contra hn
              rw [List.getElem?_eq_none (by omega)] at hk
              cases hk
            split
            next r hr =>
              exact .fail sl r hs (.inr hp) (by rcases DecSession.unit_error hr with rfl | rfl <;> simp)
            next d' hd =>
              obtain ⟨h1, h2, -, -⟩ := DecSession.unit_frame hd
              have hu : (Session.dec d').units sl = d.codes.length := by simp [Session.units, h2]
              have := WorkerMove.unit (s := s) (i := i) sl (.dec d) (.dec d') hs hp hx h1 hu hlt
              rwa [hu] at this
          next hk => exact .ok sl (.dec d) _ hs hp hx (List.getElem?_eq_none_iff.1 hk)
      next => exact .pass

/-- What no worker's turn touches. -/
theorem WorkerMove.frame {s t : State} {i : Nat} (h : WorkerMove s i t) :
    t.params = s.params ∧ t.irqEn = s.irqEn ∧ t.cmd = s.cmd ∧ t.args = s.args ∧ t.phase = s.phase ∧ t.stage = s.stage ∧
      t.latch = s.latch ∧ t.staged = s.staged ∧ t.tainted = s.tainted ∧ t.mem = s.mem ∧ t.agenda = s.agenda ∧
      t.hostRead = s.hostRead ∧ t.slots.length = s.slots.length ∧ t.status.done = s.status.done ∧
      t.status.jobFail = s.status.jobFail ∧ t.errs.jobCause = s.errs.jobCause := by
  cases h <;> simp [State.chunkFail, State.chunkOk, State.chunkUnit]
  split <;> simp

theorem WorkerMove.overrun {s t : State} {i : Nat} (h : WorkerMove s i t) : t.status.overrun = s.status.overrun := by
  cases h with
  | fail sl r =>
    simp only [State.chunkFail, State.capture]
    split <;> rfl
  | unit =>
    simp only [State.chunkUnit]
    split <;> rfl
  | _ => rfl

/-! ### All the workers of a command at once (R232 to R236) -/

theorem failuresOf_length (rs : List (Except Raise CodecResult)) :
    (failuresOf rs).length = rs.countP fun r => match r with | .ok _ => false | .error _ => true := by
  have key (n : Nat) : ((rs.zipIdx n).filterMap fun (r, i) =>
      match r with
      | .ok _ => (none : Option (Nat × Raise))
      | .error e => some (i, e)).length = rs.countP fun r => match r with | .ok _ => false | .error _ => true := by
    induction rs generalizing n with
    | nil => rfl
    | cons r rs ih => cases r <;> simp [List.zipIdx_cons, ih]
  exact key 0

theorem mem_failuresOf (rs : List (Except Raise CodecResult)) (i : Nat) (r : Raise) :
    (i, r) ∈ failuresOf rs ↔ rs[i]? = some (.error r) := by
  simp only [failuresOf, List.mem_filterMap, List.mem_zipIdx_iff_getElem?]
  constructor
  · rintro ⟨⟨x, j⟩, h, hx⟩
    cases x with
    | ok _ => simp at hx
    | error e =>
      simp only [Option.some.injEq, Prod.mk.injEq] at hx
      obtain ⟨rfl, rfl⟩ := hx
      exact h
  · intro h
    exact ⟨(.error r, i), h, rfl⟩

/-- The capture of several failing chunks in a job that has captured nothing: one of them is recorded, or there is none (R314). -/
theorem State.captureOneOf_cases (s : State) (fs : List (Nat × Raise)) (h : s.errOnce = false) :
    (fs = [] ∧ s.captureOneOf fs = s) ∨
    ∃ i r n, (i, r) ∈ fs ∧ s.captureOneOf fs = { s with
      errOnce := true
      errs := { s.errs with cause := r.cause, chunk := BitVec.ofNat 32 i, info := BitVec.ofNat 32 r.info, pos := BitVec.ofNat 32 r.pos }
      status := { s.status with err := true }
      draws := n } := by
  match fs with
  | [] => exact .inl ⟨rfl, rfl⟩
  | [(i, r)] => exact .inr ⟨i, r, s.draws, by simp, by simp [State.captureOneOf, State.capture, h]⟩
  | f :: g :: rest =>
    have hlt : Config.freeValue s.draws % (f :: g :: rest).length < (f :: g :: rest).length :=
      Nat.mod_lt _ (by simp)
    refine .inr ⟨_, _, s.draws + 1, List.getElem_mem hlt, ?_⟩
    simp only [State.captureOneOf, State.capture, h, List.getD_eq_getElem _ _ hlt]
    rfl

/-- The result registers after the workers: all but the records of the chunks and PROGRESS as before. -/
theorem State.runWorkers_res (codec : Codec) (s : State) :
    (s.runWorkers codec).res = { s.res with
      progress := (s.runWorkers codec).res.progress
      chunkCause := causesAfter (s.slots.map fun sl => sessionOf codec s.params.dictCapacity sl.input) s.res.chunkCause
      chunkSize := sizesAfter (s.slots.map fun sl => sessionOf codec s.params.dictCapacity sl.input) s.res.chunkSize
      failCount := s.res.failCount +
        BitVec.ofNat 8 (failuresOf (s.slots.map fun sl => sessionOf codec s.params.dictCapacity sl.input)).length } := by
  unfold State.runWorkers
  dsimp only
  split <;> simp

theorem progressAt_toNat (d T : Nat) (h : d ≤ T) : (progressAt d T).toNat = d * 65536 / T := by
  have : d * 65536 / T ≤ 65536 := by
    rcases Nat.eq_zero_or_pos T with rfl | hT
    · simp
    · exact Nat.div_le_of_le_mul (by nlinarith)
  simp only [progressAt, Config.progressOne, BitVec.toNat_ofNat]
  exact Nat.mod_eq_of_lt (this.trans_lt (by norm_num))

/-- A report of the progress-wired worker is at most 1 and, before its end, below it (R200). -/
theorem progressAt_le (d T : Nat) (h : d ≤ T) : (progressAt d T).toNat ≤ 65536 := by
  rw [progressAt_toNat d T h]
  rcases Nat.eq_zero_or_pos T with rfl | hT
  · simp
  · exact Nat.div_le_of_le_mul (by nlinarith)

end Sys2Proof.Machine
end

