-- ==== Sys2Proof/Laws/Steps.lean ====
section
/-! SUPPORT. What the sequencer's steps, a whole command, the engine of a running job, a host access and a turn can do, said once each. -/

namespace Sys2Proof.Machine

/-! ### Parsing a container (R241) -/

theorem sizeTable_length {s : List Byte} {T n i : Nat} {zs : List Nat} (h : sizeTable s T n i = .ok zs) : zs.length = n := by
  induction n generalizing i zs with
  | zero => cases h; rfl
  | succ n ih =>
    unfold sizeTable at h
    dsimp only at h
    split_ifs at h
    split at h
    next => cases h
    next ys hy => cases h; simp [ih hy]

theorem sizeTable_cause {s : List Byte} {T n i : Nat} {r : Raise} (h : sizeTable s T n i = .error r) :
    r.cause = .malformedContainer := by
  induction n generalizing i with
  | zero => cases h
  | succ n ih =>
    unfold sizeTable at h
    dsimp only at h
    split_ifs at h
    · simp only [Except.error.injEq] at h
      subst h
      rfl
    split at h
    next q hq => cases h; exact ih hq
    next => cases h

@[simp] theorem slices_length (s : List Byte) (zs : List Nat) : (slices s zs).length = zs.length := by
  induction zs generalizing s with
  | nil => rfl
  | cons z zs ih => simp [slices, ih]

/-- A container has at most 255 frames (R11). -/
theorem parseContainer_length {s : List Byte} {ext : Bool} {xl : Nat} {frames : List (List Byte)}
    (h : parseContainer s ext xl = .ok frames) : frames.length ≤ 255 := by
  unfold parseContainer at h
  dsimp only at h
  generalize hb : s.getD ((if ext = true then s.length - xl else s.length) - 1) 0 = b at h
  have hlt := b.isLt
  split_ifs at h
  all_goals
    split at h
    next => cases h
    next zs hz =>
      split_ifs at h
      simp only [Except.ok.injEq] at h
      rw [← h, slices_length, sizeTable_length hz]
      omega

theorem parseContainer_cause {s : List Byte} {ext : Bool} {xl : Nat} {r : Raise}
    (h : parseContainer s ext xl = .error r) : r.cause = .malformedContainer := by
  unfold parseContainer at h
  dsimp only at h
  split_ifs at h
  all_goals first
    | (simp only [Except.error.injEq] at h; subst h; rfl)
    | (split at h
       next hq => (simp only [Except.error.injEq] at h; subst h; exact sizeTable_cause hq)
       next =>
         split_ifs at h
         simp only [Except.error.injEq] at h
         subst h
         rfl)

/-! ### The sequencer's steps (R288) -/

/-- The state in which the workers of a job with the given chunks are ready. -/
def State.ready (s : State) (chunks : List (List Byte)) (staged : List Byte) : State :=
  { s with
    stage := .join
    slots := chunks.map fun chunk => { input := chunk }
    staged := staged
    res := { s.res with chunkCount := BitVec.ofNat 8 chunks.length } }

/-- A command's registers, written at its end, leave DST_LEN, PROGRESS and the records of the chunks' failures alone. -/
structure WritesOwn (regs : Results → Results) : Prop where
  dstLen : ∀ r, (regs r).dstLen = r.dstLen
  progress : ∀ r, (regs r).progress = r.progress
  chunkCount : ∀ r, (regs r).chunkCount = r.chunkCount
  failCount : ∀ r, (regs r).failCount = r.failCount
  chunkCause : ∀ r, (regs r).chunkCause = r.chunkCause

/-- What the end of a command's sequencing can be: it completes, fails the job, or delivers an output. -/
inductive Ending (s : State) (L : Latch) : State → Prop where
  | complete : Ending s L s.complete
  | fail (r : Raise) (hr : r.cause ≠ .none) : Ending s L (s.jobFail r)
  | deliver (out : List Byte) (regs : Results → Results) (h : WritesOwn regs) : Ending s L (s.deliver L out regs)

theorem Ending.frame {s t : State} {L : Latch} (h : Ending s L t) :
    Completed t ∧ KeptOutside s t L.dst ∧ HostSideKept s t ∧ t.slots = s.slots := by
  cases h with
  | complete => exact ⟨s.complete_completed, KeptOutside.of_mem_eq rfl _, s.complete_host, rfl⟩
  | fail r => exact ⟨s.jobFail_completed r, KeptOutside.of_mem_eq (by simp) _, s.jobFail_host r, by simp⟩
  | deliver out regs _ => exact s.deliver_frame L out regs

/-- What the sequencer's first step can do: it ends the job, the arguments having passed where there is an output, or it readies the
workers of at most 255 chunks. -/
inductive FirstMove (i : Instr) (L : Latch) (s : State) : State → Prop where
  | complete : FirstMove i L s s.complete
  | fail (r : Raise) (hr : r.cause ≠ .none) : FirstMove i L s (s.jobFail r)
  | deliver (out : List Byte) (regs : Results → Results) (h : WritesOwn regs) (ha : ArgsPass s L (usesExt i)) :
      FirstMove i L s (s.deliver L out regs)
  | ready (chunks : List (List Byte)) (staged : List Byte) (h : chunks.length ≤ 255) (hc : (codecOf i).isSome = true)
      (ha : ArgsPass s L (usesExt i)) : FirstMove i L s (s.ready chunks staged)

theorem packJob_move (w : Nat) (L : Latch) (s : State) : FirstMove (.pack w) L s (packJob w L s) := by
  unfold packJob
  split
  next r hr => exact .fail r (by simp [argFault_cause hr])
  next hn =>
    split_ifs
    · exact .fail _ (by simp [badArgs])
    · exact .fail _ (by simp [badArgs])
    · exact .fail _ (by simp)
    · exact .deliver _ _ (by constructor <;> intro r <;> rfl) ((argFault_eq_none s L false).1 hn)

theorem unpackJob_move (w : Nat) (L : Latch) (s : State) : FirstMove (.unpack w) L s (unpackJob w L s) := by
  unfold unpackJob
  split
  next r hr => exact .fail r (by simp [argFault_cause hr])
  next hn =>
    split_ifs
    · exact .fail _ (by simp [badArgs])
    · exact .fail _ (by simp [badArgs])
    · exact .deliver _ _ (by constructor <;> intro r <;> rfl) ((argFault_eq_none s L false).1 hn)

theorem oneChunkStart_cases (L : Latch) (s : State) :
    (∃ r, oneChunkStart L s = .error r ∧ r.cause = .badArgs) ∨
    (ArgsPass s L false ∧ oneChunkStart L s = .ok (s.ready [s.readBuffer L.src] s.staged)) := by
  unfold oneChunkStart
  split
  next r hr => exact .inl ⟨r, rfl, argFault_cause hr⟩
  next hn => exact .inr ⟨(argFault_eq_none s L false).1 hn, rfl⟩

theorem parEncStart_cases (n : Nat) (ext : Bool) (L : Latch) (s : State) :
    (∃ r, parEncStart n ext L s = .error r ∧ r.cause = .badArgs) ∨
    (ArgsPass s L ext ∧ n ≠ 0 ∧ parEncStart n ext L s =
      .ok (s.ready (split (s.readBuffer L.src) n) (if ext then s.readBuffer L.ext else []))) := by
  unfold parEncStart
  split
  next r hr => exact .inl ⟨r, rfl, argFault_cause hr⟩
  next hn =>
    by_cases h0 : n = 0
    · exact .inl ⟨badArgs 1 0, by simp [h0], rfl⟩
    · exact .inr ⟨(argFault_eq_none s L ext).1 hn, h0, by simp [h0, State.ready, split]⟩

theorem parDecStart_cases (ext : Bool) (L : Latch) (s : State) :
    (∃ r, parDecStart ext L s = .error r ∧ (r.cause = .badArgs ∨ r.cause = .malformedContainer)) ∨
    (∃ frames, ArgsPass s L false ∧ parseContainer (s.readBuffer L.src) ext L.ext.len = .ok frames ∧
      parDecStart ext L s = .ok (s.ready frames s.staged)) := by
  unfold parDecStart
  split
  next r hr => exact .inl ⟨r, rfl, .inl (argFault_cause hr)⟩
  next hn =>
    split_ifs
    · exact .inl ⟨badArgs 5 0, rfl, .inl rfl⟩
    · split
      next r hr => exact .inl ⟨r, rfl, .inr (parseContainer_cause hr)⟩
      next frames hf => exact .inr ⟨frames, (argFault_eq_none s L false).1 hn, hf, rfl⟩

/-- Everything the sequencer's first step can do on a command whose fields fit (R284, R288). -/
theorem firstStep_move (i : Instr) (hi : i.wf = true) (L : Latch) (s : State) : FirstMove i L s (firstStep i L s) := by
  have one (i : Instr) (hc : (codecOf i).isSome = true) (hu : usesExt i = false) :
      FirstMove i L s (s.orFail (oneChunkStart L s)) := by
    rcases oneChunkStart_cases L s with ⟨r, h, hr⟩ | ⟨ha, h⟩ <;> rw [h]
    · exact .fail r (by simp [hr])
    · exact .ready _ _ (by simp) hc (by rwa [hu])
  cases i with
  | nop => exact .complete
  | pack w => exact packJob_move w L s
  | unpack w => exact unpackJob_move w L s
  | lzwEnc => exact one _ rfl rfl
  | lzwDec => exact one _ rfl rfl
  | parEnc n ext =>
    simp only [firstStep]
    rcases parEncStart_cases n ext L s with ⟨r, h, hr⟩ | ⟨ha, -, h⟩ <;> rw [h]
    · exact .fail r (by simp [hr])
    · have hn : n < 256 := by simpa [Instr.wf, countFits] using hi
      exact .ready _ _ (by simp [split]; omega) rfl ha
  | parDec n ext =>
    simp only [firstStep]
    rcases parDecStart_cases ext L s with ⟨r, h, hr⟩ | ⟨frames, ha, hf, h⟩ <;> rw [h]
    · exact .fail r (by rcases hr with hr | hr <;> simp [hr])
    · exact .ready _ _ (parseContainer_length hf) rfl ha

theorem oneChunkFinish_ending (L : Latch) (s : State) : Ending s L (oneChunkFinish L s) := by
  unfold oneChunkFinish
  split
  · exact .deliver _ _ (by constructor <;> intro r <;> rfl)
  · refine .deliver _ _ ?_
    constructor <;> intro r <;> dsimp only <;> split <;> rfl

/-- The sequencer's last step of a command that has workers delivers an output (R288). -/
theorem lastStep_ending (i : Instr) (L : Latch) (s : State) (hi : (codecOf i).isSome = true) :
    Ending s L (lastStep i L s) := by
  cases i with
  | nop => cases hi
  | pack => cases hi
  | unpack => cases hi
  | lzwEnc => exact oneChunkFinish_ending L s
  | lzwDec => exact oneChunkFinish_ending L s
  | parEnc =>
    simp only [lastStep, parEncFinish]
    exact .deliver _ _ ⟨fun _ => rfl, fun _ => rfl, fun _ => rfl, fun _ => rfl, fun _ => rfl⟩
  | parDec =>
    simp only [lastStep, parDecFinish]
    exact .deliver _ _ ⟨fun _ => rfl, fun _ => rfl, fun _ => rfl, fun _ => rfl, fun _ => rfl⟩

/-! ### A whole command at once -/

/-- A command without workers is its sequencer's first step; any other is its first step and, where that readies the workers, their run and
the last step. -/
theorem exec_eq (i : Instr) (s : State) (L : Latch) (h : s.latch = some L) :
    exec i s = .next (match codecOf i with
      | none => firstStep i L s
      | some codec =>
        if (firstStep i L s).phase = .idle ∧ (firstStep i L s).latch = none then firstStep i L s
        else lastStep i L ((firstStep i L s).runWorkers codec)) := by
  cases i with
  | nop => rfl
  | pack w => exact State.withLatch_of_latch h _
  | unpack w => exact State.withLatch_of_latch h _
  | lzwEnc =>
    refine (State.withLatch_of_latch h _).trans ?_
    simp only [codecOf, lzwEncJob, firstStep, lastStep]
    rcases oneChunkStart_cases L s with ⟨r, hr, -⟩ | ⟨-, hr⟩ <;> simp [hr, State.orFail, State.ready, h]
  | lzwDec =>
    refine (State.withLatch_of_latch h _).trans ?_
    simp only [codecOf, lzwDecJob, firstStep, lastStep]
    rcases oneChunkStart_cases L s with ⟨r, hr, -⟩ | ⟨-, hr⟩ <;> simp [hr, State.orFail, State.ready, h]
  | parEnc n ext =>
    refine (State.withLatch_of_latch h _).trans ?_
    simp only [codecOf, parEncJob, firstStep, lastStep]
    rcases parEncStart_cases n ext L s with ⟨r, hr, -⟩ | ⟨-, -, hr⟩ <;> simp [hr, State.orFail, State.ready, h]
  | parDec n ext =>
    refine (State.withLatch_of_latch h _).trans ?_
    simp only [codecOf, parDecJob, firstStep, lastStep]
    rcases parDecStart_cases ext L s with ⟨r, hr, -⟩ | ⟨_, -, -, hr⟩ <;> simp [hr, State.orFail, State.ready, h]

/-! ### The engine in a running job (R21, R288) -/

/-- What the end of a job whose buffers the host has written leaves alone (R96): everything but the result and error registers, ERR,
JOB_FAIL, the draws and the bytes of the destination range. -/
theorem State.scramble_frame (s : State) (L : Latch) :
    KeptOutside s (s.scramble L) L.dst ∧ HostSideKept s (s.scramble L) ∧ (s.scramble L).phase = s.phase ∧
      (s.scramble L).latch = s.latch ∧ (s.scramble L).status.done = s.status.done ∧ (s.scramble L).slots = s.slots ∧
      (s.scramble L).errOnce = s.errOnce := by
  unfold State.scramble
  exact ⟨fun a h => State.readByte_havocDst_outside _ L a h,
    ⟨by simp, by simp, by simp, by simp, by simp, by simp, by simp⟩, by simp, by simp, by simp, by simp, by simp⟩

/-- What a turn of the sequencer or of a worker can do to a running job with latch `L`. -/
inductive JobMove (s : State) (L : Latch) : State → Prop where
  /-- The turn passes, but for a draw. -/
  | stay (n : Nat) : JobMove s L { s with draws := n }
  /-- The latched word is no command (R283). -/
  | bad (hst : s.stage = .check) (b : BadWord) (hd : decode L.cmd = .error b) : JobMove s L (s.badCommand L.cmd)
  /-- The sequencer's first step. -/
  | first (i : Instr) (t : State) (hst : s.stage = .check) (hd : decode L.cmd = .ok i) (h : FirstMove i L s t) : JobMove s L t
  /-- The sequencer's last step, all workers having ended (R235). -/
  | last (t : State) (hst : s.stage = .join) (hall : s.slots.all Slot.ended = true) (h : Ending s L t) : JobMove s L t
  /-- A worker's turn, itself perhaps drawn. -/
  | worker (n i : Nat) (t : State) (hst : s.stage = .join) (h : WorkerMove { s with draws := n } i t) : JobMove s L t
  /-- The end of a job whose buffers the host has written (R96). -/
  | scrambled (t : State) (ht : s.tainted = true) (hp : t.phase = .idle) (h : JobMove s L t) : JobMove s L (t.scramble L)

/-- Everything the turn of the sequencer can do in a running job. -/
theorem State.sequencerStep_move (s : State) (L : Latch) (hp : s.phase = .running) (hl : s.latch = some L) :
    JobMove s L s.sequencerStep := by
  have rule : JobMove s L (s.sequencerRule L) := by
    unfold State.sequencerRule
    split
    next b hst hd => exact .bad hst b hd
    next i hst hd => exact .first i _ hst hd (firstStep_move i (decode_wf hd) L s)
    next => exact .stay s.draws
    next i hst hd =>
      split
      next hall =>
        cases hc : codecOf i with
        | none => cases i <;> first | exact .stay s.draws | cases hc
        | some codec => exact .last _ hst hall (lastStep_ending i L s (by simp [hc]))
      next => exact .stay s.draws
  simp only [State.sequencerStep, hp, hl]
  split
  next hc => exact .scrambled _ hc.1 hc.2 rule
  next => exact rule

/-- A worker's turn passes, or moves a worker of the running job. -/
theorem State.workerTurn_cases (s : State) (i : Nat) :
    s.workerTurn i = s ∨ s.stage = .join ∧ WorkerMove s i (s.workerTurn i) := by
  unfold State.workerTurn
  split
  next hst _ =>
    split
    next => exact .inl rfl
    next =>
      split
      next => exact .inl rfl
      next => exact .inr ⟨hst, State.workerStep_move _ s i⟩
  next => exact .inl rfl

/-- The same, after a draw. -/
theorem State.workerTurn_move (s : State) (L : Latch) (n i : Nat) : JobMove s L (State.workerTurn { s with draws := n } i) := by
  rcases State.workerTurn_cases { s with draws := n } i with h | ⟨hst, h⟩
  · rw [h]
    exact .stay n
  · exact .worker n i _ hst h

/-- Everything the engine can do in a running job (R288), whoever moves. -/
theorem State.engineStep_move (s : State) (L : Latch) (hp : s.phase = .running) (hl : s.latch = some L) :
    JobMove s L s.engineStep := by
  unfold State.engineStep
  split
  next h => exact absurd (hp.symm.trans h) (by simp)
  next => exact s.sequencerStep_move L hp hl
  next hst =>
    split
    next => exact s.sequencerStep_move L hp hl
    next => exact s.workerTurn_move L s.draws _
    next => exact s.workerTurn_move L _ _

/-! ### The engine does not look at the agenda -/

theorem State.capture_setAgenda (s : State) (a : List Turn) (chunk : Word) (r : Raise) :
    State.capture { s with agenda := a } chunk r = { s.capture chunk r with agenda := a } := by
  unfold State.capture
  dsimp only
  split <;> rfl

theorem State.jobFail_setAgenda (s : State) (a : List Turn) (r : Raise) :
    State.jobFail { s with agenda := a } r = { s.jobFail r with agenda := a } := by
  simp only [State.jobFail, State.recordJobFail, State.capture_setAgenda]
  rfl

theorem State.deliver_setAgenda (s : State) (a : List Turn) (L : Latch) (out : List Byte) (regs : Results → Results) :
    State.deliver { s with agenda := a } L out regs = { s.deliver L out regs with agenda := a } := by
  unfold State.deliver
  split
  · rw [State.jobFail_setAgenda]
    rfl
  · rfl

theorem firstStep_setAgenda (i : Instr) (L : Latch) (s : State) (a : List Turn) :
    firstStep i L { s with agenda := a } = { firstStep i L s with agenda := a } := by
  have hb (b : Buffer) : State.readBuffer { s with agenda := a } b = s.readBuffer b := rfl
  have one : State.orFail { s with agenda := a } (oneChunkStart L { s with agenda := a }) =
      { s.orFail (oneChunkStart L s) with agenda := a } := by
    simp only [oneChunkStart, State.orFail, hb]
    cases argFault s.params.memSize L false with
    | none => rfl
    | some r => exact State.jobFail_setAgenda s a r
  cases i with
  | nop => rfl
  | pack w =>
    simp only [firstStep, packJob, hb]
    split
    · exact State.jobFail_setAgenda ..
    · split_ifs <;> first | exact State.jobFail_setAgenda .. | exact State.deliver_setAgenda ..
  | unpack w =>
    simp only [firstStep, unpackJob, hb]
    split
    · exact State.jobFail_setAgenda ..
    · split_ifs <;> first | exact State.jobFail_setAgenda .. | exact State.deliver_setAgenda ..
  | lzwEnc => exact one
  | lzwDec => exact one
  | parEnc n ext =>
    simp only [firstStep, parEncStart, hb]
    split
    · exact State.jobFail_setAgenda ..
    · split_ifs <;> first | exact State.jobFail_setAgenda .. | rfl
  | parDec n ext =>
    simp only [firstStep, parDecStart, hb]
    split
    · exact State.jobFail_setAgenda ..
    · split_ifs
      · exact State.jobFail_setAgenda ..
      · split <;> first | exact State.jobFail_setAgenda .. | rfl

theorem lastStep_setAgenda (i : Instr) (L : Latch) (s : State) (a : List Turn) :
    lastStep i L { s with agenda := a } = { lastStep i L s with agenda := a } := by
  have one : oneChunkFinish L { s with agenda := a } = { oneChunkFinish L s with agenda := a } := by
    unfold oneChunkFinish
    dsimp only
    cases s.slots.head? <;> exact State.deliver_setAgenda s a L _ _
  cases i with
  | nop => rfl
  | pack => rfl
  | unpack => rfl
  | lzwEnc => exact one
  | lzwDec => exact one
  | parEnc =>
    simp only [lastStep, parEncFinish]
    exact State.deliver_setAgenda s a L _ _
  | parDec =>
    simp only [lastStep, parDecFinish]
    exact State.deliver_setAgenda s a L _ _

theorem State.chunkFail_setAgenda (s : State) (a : List Turn) (i : Nat) (r : Raise) :
    State.chunkFail { s with agenda := a } i r = { s.chunkFail i r with agenda := a } := by
  exact State.capture_setAgenda { s with
    slots := s.slots.modify i fun sl => sl.fail r
    res := { s.res with
      chunkCause := s.res.chunkCause.setIfInBounds i r.cause
      chunkSize := s.res.chunkSize.setIfInBounds i 0
      failCount := s.res.failCount + 1 } } a _ r

theorem State.chunkUnit_setAgenda (s : State) (a : List Turn) (i d T : Nat) (x : Session) :
    State.chunkUnit { s with agenda := a } i d T x = { s.chunkUnit i d T x with agenda := a } := by
  unfold State.chunkUnit
  dsimp only
  split <;> rfl

theorem State.workerStep_setAgenda (codec : Codec) (s : State) (a : List Turn) (i : Nat) :
    State.workerStep codec { s with agenda := a } i = { s.workerStep codec i with agenda := a } := by
  unfold State.workerStep
  dsimp only
  split
  · rfl
  next sl _ =>
    split
    swap
    · rfl
    split
    · cases codec with
      | enc => rfl
      | dec =>
        simp only [State.startWorker]
        split <;> first | exact State.chunkFail_setAgenda .. | rfl
    next x _ _ =>
      cases x <;> simp only [State.advanceWorker]
      all_goals
        split
        all_goals first
          | rfl
          | (split <;> first | exact State.chunkFail_setAgenda .. | exact State.chunkUnit_setAgenda .. | rfl)
    · rfl

theorem State.workerTurn_setAgenda (s : State) (a : List Turn) (i : Nat) :
    State.workerTurn { s with agenda := a } i = { s.workerTurn i with agenda := a } := by
  unfold State.workerTurn
  dsimp only
  split
  · split
    · rfl
    · split
      · rfl
      · exact State.workerStep_setAgenda ..
  · rfl

theorem State.sequencerStep_setAgenda (s : State) (a : List Turn) :
    State.sequencerStep { s with agenda := a } = { s.sequencerStep with agenda := a } := by
  have rule (L : Latch) : State.sequencerRule { s with agenda := a } L = { s.sequencerRule L with agenda := a } := by
    unfold State.sequencerRule
    dsimp only
    split
    · exact State.jobFail_setAgenda ..
    · exact firstStep_setAgenda ..
    · rfl
    · split
      · exact lastStep_setAgenda ..
      · rfl
  unfold State.sequencerStep
  dsimp only
  split
  · simp only [rule]
    split <;> rfl
  · rfl

/-- A step of the engine is the same whatever turns are to come. -/
theorem State.engineStep_setAgenda (s : State) (a : List Turn) :
    State.engineStep { s with agenda := a } = { s.engineStep with agenda := a } := by
  have hm : State.movable { s with agenda := a } = s.movable := rfl
  unfold State.engineStep
  dsimp only
  rw [hm]
  split
  · rfl
  · exact State.sequencerStep_setAgenda ..
  · split
    · exact State.sequencerStep_setAgenda ..
    · exact State.workerTurn_setAgenda ..
    · exact State.workerTurn_setAgenda { s with draws := s.draws + 1 } a _

/-! ### Host accesses and turns -/

theorem csrRefusal_eq_none {size : AccessSize} {offset : Nat} :
    csrRefusal size offset = none ↔ size = .word ∧ offset % 4 = 0 ∧ offset < 4096 := by
  unfold csrRefusal csrWindow
  constructor
  · intro h
    split_ifs at h with h1 h2
    exact ⟨by_contra fun hs => h1 (.inl hs), by omega, by omega⟩
  · rintro ⟨rfl, h1, h2⟩
    simp [h1, h2]

/-- An aligned word access to the window has the effect of its register. -/
theorem State.hostStep_csrWrite (s : State) (offset : Nat) (v : Word) (h4 : offset % 4 = 0) (h : offset < 4096) :
    s.hostStep (.csrWrite .word offset v) = .next (s.csrWrite v (csrAt offset)) := by
  simp [State.hostStep, csrRefusal_eq_none.2 ⟨rfl, h4, h⟩]

theorem State.hostStep_csrRead (s : State) (offset : Nat) (h4 : offset % 4 = 0) (h : offset < 4096) :
    s.hostStep (.csrRead .word offset) = .next { s with hostRead := some (s.csrRead (csrAt offset)) } := by
  simp [State.hostStep, csrRefusal_eq_none.2 ⟨rfl, h4, h⟩]

theorem step_of_agenda {s : State} {x : Turn} {rest : List Turn} (h : s.agenda = x :: rest) :
    step s = turn x { s with agenda := rest } := by simp [step, h]

theorem step_of_agenda_nil {s : State} (h : s.agenda = []) : step s = .next s.engineStep := by simp [step, h]

/-- Every aligned offset of the window: one of the 25 named registers, a reserved offset, or an element of an array (R32). -/
theorem csrAt_cases (offset : Nat) (h4 : offset % 4 = 0) (h : offset < 4096) :
    (∃ k : Fin 25, offset = 4 * k ∧ csrAt offset = namedCsrs.getD k .reserved) ∨
    (((0x064 ≤ offset ∧ offset < 0x400) ∨ offset = 0x7FC ∨ 0xBFC ≤ offset) ∧ csrAt offset = .reserved) ∨
    (∃ i : Fin 255, offset = 0x400 + 4 * i ∧ csrAt offset = .chunkCause i) ∨
    (∃ i : Fin 255, offset = 0x800 + 4 * i ∧ csrAt offset = .chunkSize i) := by
  unfold csrAt
  split
  · by_cases h2 : offset / 4 < 25
    · exact .inl ⟨⟨offset / 4, h2⟩, by simp; omega, rfl⟩
    · have : namedCsrs.length ≤ offset / 4 := by simp [namedCsrs]; omega
      exact .inr (.inl ⟨.inl ⟨by omega, by omega⟩, List.getD_eq_default _ _ this⟩)
  · split
    · split
      next hi => exact .inr (.inr (.inl ⟨⟨_, hi⟩, by simp; omega, rfl⟩))
      next => exact .inr (.inl ⟨.inr (.inl (by omega)), rfl⟩)
    · split
      next hi => exact .inr (.inr (.inr ⟨⟨_, hi⟩, by simp; omega, rfl⟩))
      next => exact .inr (.inl ⟨.inr (.inr (by omega)), rfl⟩)

/-- What a host write to a register can do to the block (R280). -/
inductive CsrEffect (s : State) (v : Word) : State → Prop where
  | none : CsrEffect s v s
  | reset : CsrEffect s v s.softReset
  | status : CsrEffect s v { s with status := s.status.clearOnes v }
  | irqEn : CsrEffect s v { s with irqEn := IrqEnable.ofWord v }
  | overrun (h : s.phase = .running) : CsrEffect s v { s with status := { s.status with overrun := true } }
  | start (h : s.phase = .idle) : CsrEffect s v (s.startJob v)
  | args (h : s.phase = .idle) (a : Args) : CsrEffect s v { s with args := a }

theorem State.csrWrite_effect (s : State) (v : Word) (c : Csr) : CsrEffect s v (s.csrWrite v c) := by
  have hbusy : s.phase = .running ∧ s.busy = true ∨ s.phase = .idle ∧ s.busy = false := by
    unfold State.busy
    cases s.phase <;> simp
  have hargs (f : Args → Args) : CsrEffect s v (s.writeArgs f) := by
    unfold State.writeArgs
    rcases hbusy with ⟨-, hb⟩ | ⟨hp, hb⟩ <;> simp only [hb, if_true, if_false, Bool.false_eq_true]
    · exact .none
    · exact .args hp _
  cases c <;> simp only [State.csrWrite] <;> first
    | exact .none
    | exact hargs _
    | exact .status
    | exact .irqEn
    | (split
       · exact .reset
       · exact .none)
    | (unfold State.writeCmd
       rcases hbusy with ⟨hp, hb⟩ | ⟨hp, hb⟩ <;> simp only [hb, if_true, if_false, Bool.false_eq_true]
       · exact .overrun hp
       · exact .start hp)

end Sys2Proof.Machine
end

