-- ==== Sys2Proof/Tests/Slice0.lean ====
section
/-! SUPPORT. The tests: the checks of WellFormed, words written out from the encoding tables, single steps on the vectors of
95_test_vectors.md, and for every statement with hypotheses a state and operands that meet them. -/

namespace Sys2Proof.Tests
open Sys2Proof Sys2Proof.Machine

/-! ### WellFormed: each check refuses an ill-formed term -/

theorem test_pack_width_64_refused : (Instr.pack 64).wf = false := by decide
theorem test_unpack_width_64_refused : (Instr.unpack 64).wf = false := by decide
theorem test_parEnc_count_256_refused : (Instr.parEnc 256 true).wf = false := by decide
theorem test_parDec_count_256_refused : (Instr.parDec 256 false).wf = false := by decide
theorem test_largest_fields_accepted :
    (Instr.pack 63).wf ∧ (Instr.unpack 63).wf ∧ (Instr.parEnc 255 true).wf ∧ (Instr.parDec 255 true).wf := by decide

/-! ### Words, bit by bit from the patterns of R155, R156, R201, R202, R240, R243, R286 -/

theorem test_word_nop : decode 0b00000000_00000000_00000000_00000000 = .ok .nop := by decide
theorem test_word_pack : decode 0b00000000_00100000_00000000_00000001 = .ok (.pack 32) := by decide
theorem test_word_unpack : decode 0b00000000_00001001_00000000_00000010 = .ok (.unpack 9) := by decide
theorem test_word_lzwEnc : decode 0b00000000_00000000_00000000_00000011 = .ok .lzwEnc := by decide
theorem test_word_lzwDec : decode 0b00000000_00000000_00000000_00000100 = .ok .lzwDec := by decide
theorem test_word_parEnc : decode 0b00000001_00000000_10000001_00000101 = .ok (.parEnc 129 true) := by decide
theorem test_word_parDec : decode 0b00000001_00000000_11111111_00000110 = .ok (.parDec 255 true) := by decide

/-- Vectors CW of 95_test_vectors.md: a reserved bit of each of the three groups, a reserved OP, a field that must be 0. -/
theorem test_bad_words :
    decode 0x00000010 = .error .reservedBit ∧ decode 0x00400001 = .error .reservedBit ∧
    decode 0x80000000 = .error .reservedBit ∧ decode 0x00000007 = .error .reservedOp ∧ decode 0x0000000F = .error .reservedOp ∧
    decode 0x00000102 = .error .fieldNotZero ∧ decode 0x01000003 = .error .fieldNotZero ∧
    decode 0x00010004 = .error .fieldNotZero ∧ decode 0x00010005 = .error .fieldNotZero ∧
    decode 0x01000000 = .error .fieldNotZero := by decide

theorem test_encode_words :
    encode (.pack 32) = 0x00200001 ∧ encode (.unpack 9) = 0x00090002 ∧ encode (.parEnc 2 true) = 0x01000205 ∧
    encode (.parDec 4 false) = 0x00000406 := by decide

/-! ### States -/

def bytesOf (l : List Nat) : List Byte := l.map (BitVec.ofNat 8)

/-- The four bytes at an offset, least significant first, as the statements spell them. -/
def le4 (s : List Byte) (o : Nat) : Nat :=
  (s.getD o 0).toNat + 2 ^ 8 * (s.getD (o + 1) 0).toNat + 2 ^ 16 * (s.getD (o + 2) 0).toNat + 2 ^ 24 * (s.getD (o + 3) 0).toNat

/-- Reset, with bytes at 0x100 and argument registers. -/
def idleWith (bytes : List Nat) (a : Args) : State :=
  { State.reset with mem := Memory.writeBytes [] 0x100 (bytesOf bytes), args := a }

/-- The same, right after the start of a job. -/
def jobWith (bytes : List Nat) (a : Args) (v : Word) : State := (idleWith bytes a).startJob v

theorem jobWith_justStarted (bytes : List Nat) (a : Args) (v : Word) : JustStarted (jobWith bytes a v) { cmd := v, args := a } :=
  State.startJob_justStarted _ _

/-- The next state of an outcome. -/
def nextOf : Outcome → Option State
  | .next t => some t
  | .fault _ => none
  | .refused _ => none

def after (o : Outcome) : State := (nextOf o).getD State.reset

theorem next_of_isSome {o : Outcome} (h : (nextOf o).isSome = true) : o = .next (after o) := by
  cases o <;> first | rfl | cases h

def eightA : List Nat := [65, 65, 65, 65, 65, 65, 65, 65]
def eightAFrame : List Nat := [0x20, 0xC0, 0x20, 0x30, 0x00, 0x24, 0x00, 0x00, 0x00, 0x09]
def fourWords : List Nat := [0x41, 0, 0, 0, 0, 1, 0, 0, 1, 1, 0, 0, 0, 1, 0, 0]
/-- The container of vector PO-10. -/
def corrupt : List Nat := [0x20, 0x90, 0x80, 0x12, 0, 0, 0, 9, 0x20, 0xCB, 0, 0x12, 0, 0, 0, 9, 8, 0, 0, 0, 8, 0, 0, 0, 2]
/-- The container of vector PO-2. -/
def twoChunks : List Nat := [0x20, 0x90, 0x88, 0x20, 0x1B, 0, 0, 0, 9, 0x21, 0x10, 0x60, 0, 0x1B, 0, 0, 0, 9, 9, 0, 0, 0, 9, 0, 0, 0, 2]
def abababa : List Nat := [0x41, 0x42, 0x41, 0x42, 0x41, 0x42, 0x41]

def srcDst (srcLen dstCap : Word) : Args := { srcAddr := 0x100, srcLen := srcLen, dstAddr := 0x200, dstCap := dstCap }

/-! ### One command on a small state; expected values from 95_test_vectors.md -/

/-- JB-1. -/
theorem test_nop : let t := after (exec .nop (jobWith [] (srcDst 8 8) 0)); t.statusWord = 2 ∧ t.res = {} := by
  decide +kernel

/-- BP-3, PG-2. -/
theorem test_pack : let t := after (exec (.pack 9) (jobWith fourWords (srcDst 16 8) 0x00090001))
    t.memRead 0x200 5 = bytesOf [0x20, 0xC0, 0x20, 0x30, 0x00] ∧ t.res.nbitsOut = 36 ∧ t.res.dstLen = 5 ∧ t.statusWord = 2 := by
  decide +kernel

/-- JB-7. -/
theorem test_pack_odd_length : let t := after (exec (.pack 8) (jobWith [] { srcLen := 6, dstAddr := 0x100 } 0x00080001))
    t.errs.cause = .badArgs ∧ t.errs.info = 6 ∧ t.statusWord = 0xE := by decide

/-- BP-7: the remainder is dropped. -/
theorem test_unpack : let t := after (exec (.unpack 4) (jobWith [0xAB, 0xC0] { srcDst 2 8 with nbitsIn := 10 } 0x00040002))
    t.memRead 0x200 8 = bytesOf [0xA, 0, 0, 0, 0xB, 0, 0, 0] ∧ t.res.codeCount = 2 := by decide +kernel

/-- JB-10. -/
theorem test_unpack_overflow :
    let t := after (exec (.unpack 9) (jobWith [0x20, 0xC0, 0x20, 0x30, 0] { srcDst 5 15 with nbitsIn := 36 } 0x00090002))
    t.errs.jobCause = .outputOverflow ∧ t.errs.info = 16 ∧ t.res.dstLen = 0 := by decide +kernel

/-- LZ-5. -/
theorem test_lzwEnc : let t := after (exec .lzwEnc (jobWith eightA (srcDst 8 10) 3))
    t.memRead 0x200 10 = bytesOf eightAFrame ∧ t.res.codeCount = 4 ∧ t.res.dictSize = 0x103 ∧ t.res.progress = 65536 := by
  decide +kernel

/-- JB-9: PROGRESS keeps what the worker wrote. -/
theorem test_lzwEnc_overflow : let t := after (exec .lzwEnc (jobWith eightA (srcDst 8 9) 3))
    t.errs.jobCause = .outputOverflow ∧ t.errs.info = 10 ∧ t.res.chunkCount = 1 ∧ t.res.progress = 65536 ∧ t.statusWord = 0xE := by
  decide +kernel

/-- LD-9, property 6: the KwKwK case. -/
theorem test_lzwDec : let t := after (exec .lzwDec
      (jobWith [0x20, 0x90, 0xA0, 0x10, 0x20, 0x24, 0, 0, 0, 9] (srcDst 10 7) 4))
    t.memRead 0x200 7 = bytesOf abababa ∧ t.res.dictSize = 259 := by decide +kernel

/-- LZ-E5: a code equal to the final size is still too large. -/
theorem test_lzwDec_bad_code : let t := after (exec .lzwDec
      (jobWith [0x20, 0xC0, 0x20, 0x30, 0x30, 0x24, 0, 0, 0, 9] (srcDst 10 7) 4))
    t.errs.cause = .badCompressedCode ∧ t.errs.info = 259 ∧ t.errs.pos = 3 ∧ t.statusWord = 6 := by decide +kernel

/-- PO-2a. -/
theorem test_parEnc : let t := after (exec (.parEnc 2 false) (jobWith abababa (srcDst 7 64) 0x00000205))
    t.memRead 0x200 27 = bytesOf twoChunks ∧ t.res.chunkSize[1] = 9 ∧ t.res.dstLen = 27 := by decide +kernel

/-- JB-14. -/
theorem test_parEnc_no_chunk : let t := after (exec (.parEnc 0 false) (jobWith [] {} 5))
    t.errs.cause = .badArgs ∧ t.errs.info = 1 ∧ t.res.chunkCount = 0 := by decide

/-- PO-10. -/
theorem test_parDec : let t := after (exec (.parDec 0 false) (jobWith corrupt (srcDst 25 16) 6))
    t.memRead 0x200 2 = bytesOf [0x41, 0x42] ∧ t.res.dstLen = 2 ∧ t.res.chunkCause[1] = .badCompressedCode ∧ t.errs.chunk = 1 := by
  decide +kernel

/-- JB-11. -/
theorem test_parDec_empty : let t := after (exec (.parDec 0 false) (jobWith [] {} 6))
    t.errs.cause = .malformedContainer ∧ t.errs.info = 1 ∧ t.res.chunkCount = 0 := by decide

/-- From reset, the next step runs the word that is placed. -/
theorem test_step_runs_placed_word :
    (after (step (State.reset.withFetchWord 32 0x00000005))).errs.info = 1 ∧
    (after (step (State.reset.withFetchWord 32 0x00000007))).errs.cause = .badCommand := by decide

/-- JB-21: ERR, cleared while BUSY, does not rise again in that job. -/
theorem test_err_rises_once :
    let s := { jobWith corrupt (srcDst 25 16) 6 with errOnce := true, stage := .join, slots := [{ input := [] }] }
    (s.workerTurn 0).res.failCount = 1 ∧ (s.workerTurn 0).status.err = false := by decide

/-! ### Witnesses: the CSR window -/

/-- The aligned offsets of the window, at their boundaries. -/
theorem witness_ResetValues : 0 < 4096 ∧ 0 % 4 = 0 ∧ 4092 < 4096 ∧ 4092 % 4 = 0 := by decide

/-- The clauses at the boundaries of the ranges, and the named offsets next to them. -/
theorem witness_ReservedOffsetsReadZeroAndIgnoreWrites :
    csrAt 0x060 = .failCount ∧ csrAt 0x064 = .reserved ∧ csrAt 0x3FC = .reserved ∧ csrAt 0x400 = .chunkCause 0 ∧
    csrAt 0x7F8 = .chunkCause 254 ∧ csrAt 0x7FC = .reserved ∧ csrAt 0x800 = .chunkSize 0 ∧ csrAt 0xBF8 = .chunkSize 254 ∧
    csrAt 0xBFC = .reserved ∧ csrAt 0xFFC = .reserved ∧ csrAt 0 = .id ∧ csrAt 4 = .ctrl := by decide

/-- Each of the seven registers. -/
theorem witness_ArgumentWriteStoresTheWord : ∀ off ∈ [0x014, 0x018, 0x01C, 0x020, 0x024, 0x028, 0x02C],
    ∃ (s : State) (rest : List Turn) (v : Word),
      s.phase = .idle ∧ off % 4 = 0 ∧ 0x014 ≤ off ∧ off ≤ 0x02C ∧ s.agenda = .host (.csrWrite .word off v) :: rest := by
  intro off h
  refine ⟨{ State.reset with agenda := [.host (.csrWrite .word off 7)] }, [], 7, rfl, ?_, ?_, ?_, rfl⟩ <;>
    (simp only [List.mem_cons, List.not_mem_nil, or_false] at h; omega)

theorem witness_IgnoredCsrWrites : ∀ x ∈ [(Phase.idle, 0), (.idle, 0x030), (.running, 0xFFC), (.running, 0x014)],
    ∃ (s : State) (rest : List Turn) (v : Word), x.2 % 4 = 0 ∧ x.2 < 4096 ∧
      (x.2 = 0 ∨ 0x030 ≤ x.2 ∨ (s.phase = .running ∧ 0x014 ≤ x.2)) ∧ s.agenda = .host (.csrWrite .word x.2 v) :: rest := by
  intro x h
  refine ⟨{ State.reset with phase := x.1, agenda := [.host (.csrWrite .word x.2 7)] }, [], 7, ?_, ?_, ?_, rfl⟩ <;>
    (simp only [List.mem_cons, List.not_mem_nil, or_false] at h; rcases h with rfl | rfl | rfl | rfl <;> decide)

theorem witness_StatusIsWriteOneToClear : ∃ (s : State) (rest : List Turn) (v : Word),
    s.agenda = .host (.csrWrite .word 0x008 v) :: rest :=
  ⟨{ State.reset with agenda := [.host (.csrWrite .word 0x008 0x1E)] }, [], 0x1E, rfl⟩

theorem witness_IrqEnableKeepsItsTwoBits : ∃ (s : State) (rest : List Turn) (v : Word),
    s.agenda = .host (.csrWrite .word 0x00C v) :: rest :=
  ⟨{ State.reset with agenda := [.host (.csrWrite .word 0x00C 0xFF)] }, [], 0xFF, rfl⟩

theorem witness_UnalignedOrNarrowCsrAccessRefused : ∀ x ∈ [(AccessSize.byte, 0), (.half, 0), (.word, 2)],
    ∃ s r : State, (x.1 ≠ .word ∨ x.2 % 4 ≠ 0) ∧ s.agenda = [.host (.csrWrite x.1 x.2 1)] ∧ r.agenda = [.host (.csrRead x.1 x.2)] := by
  intro x h
  refine ⟨{ State.reset with agenda := [.host (.csrWrite x.1 x.2 1)] },
    { State.reset with agenda := [.host (.csrRead x.1 x.2)] }, ?_, rfl, rfl⟩
  simp only [List.mem_cons, List.not_mem_nil, or_false] at h
  rcases h with rfl | rfl | rfl <;> decide

/-- Each clause at the boundaries of its range: the named registers, the two arrays, the reserved ranges. -/
theorem witness_CsrReadHasNoSideEffect :
    (∀ off ∈ [0x000, 0x060, 0x064, 0x3FC, 0x400, 0x7F8, 0x7FC, 0x800, 0xBF8, 0xBFC, 0xFFC], ∃ s : State,
      off % 4 = 0 ∧ off < 4096 ∧ s.agenda = [.host (.csrRead .word off)]) ∧
    (0x400 + 4 * 0 = 0x400 ∧ 0x400 + 4 * 254 = 0x7F8 ∧ 0x800 + 4 * 0 = 0x800 ∧ 0x800 + 4 * 254 = 0xBF8) := by
  refine ⟨fun off h => ⟨{ State.reset with agenda := [.host (.csrRead .word off)] }, ?_, ?_, rfl⟩, by decide⟩ <;>
    (simp only [List.mem_cons, List.not_mem_nil, or_false] at h; omega)

/-- The cause codes of R300 where a host reads them: DICT_OVERFLOW in ERR_CAUSE, OUTPUT_OVERFLOW in JOB_CAUSE, MALFORMED_FRAME in
CHUNK_CAUSE[0]. -/
theorem test_cause_codes_read :
    let s : State := { State.reset with
      errs := { cause := .dictOverflow, jobCause := .outputOverflow }
      res := { chunkCause := (Vector.replicate 255 .none).set 0 .malformedFrame } }
    s.csrRead (csrAt 0x048) = 5 ∧ s.csrRead (csrAt 0x058) = 8 ∧ s.csrRead (csrAt 0x400) = 3 := by decide

/-- Both values of bit 0, in both phases. -/
theorem witness_SoftResetRestoresResetState : ∀ v ∈ [(0 : Word), 1], ∃ s t : State,
    s.agenda = [.host (.csrWrite .word 0x004 v)] ∧ s.phase = .idle ∧ t.agenda = [.host (.csrWrite .word 0x004 v)] ∧
      t.phase = .running ∧ t.latch.isSome = true :=
  fun v _ => ⟨{ State.reset with agenda := [.host (.csrWrite .word 0x004 v)] },
    { jobWith [] (srcDst 8 16) 3 with agenda := [.host (.csrWrite .word 0x004 v)] }, rfl, rfl, rfl, rfl, rfl⟩

/-- A write of the last byte of the memory, and one past it. -/
theorem witness_HostMemoryWriteIsReadBack : ∃ s t : State,
    s.agenda = [.host (.memWrite 0xFFFF [1])] ∧ 0xFFFF + [1].length ≤ s.params.memSize ∧
    t.agenda = [.host (.memWrite 0xFFFF [1, 2])] ∧ t.params.memSize < 0xFFFF + [1, 2].length :=
  ⟨{ State.reset with agenda := [.host (.memWrite 0xFFFF [1])] }, { State.reset with agenda := [.host (.memWrite 0xFFFF [1, 2])] },
    rfl, by decide, rfl, by decide⟩

/-- Reads in a running job: the last byte of its destination range, the byte after it, the last byte of the memory, one past it. -/
theorem witness_HostMemoryWriteIsReadBack_reads :
    ∀ x ∈ [(0x20F, true, true), (0x210, false, true), (0xFFFF, false, true), (0x10000, false, false)],
      ∃ (s : State) (L : Latch), s.agenda = [.host (.memRead x.1)] ∧ s.phase = .running ∧ s.latch = some L ∧
        decide (L.dst.addr ≤ x.1 ∧ x.1 < L.dst.addr + L.dst.len) = x.2.1 ∧ decide (x.1 < s.params.memSize) = x.2.2 := by
  intro x h
  refine ⟨{ jobWith [] (srcDst 8 16) 3 with agenda := [.host (.memRead x.1)] }, _, rfl, rfl, rfl, ?_⟩
  simp only [List.mem_cons, List.not_mem_nil, or_false] at h
  rcases h with rfl | rfl | rfl | rfl <;> decide

/-! ### Witnesses: command words and the life of a job -/

theorem witness_DecodeOfEncode : (Instr.parEnc 255 true).wf = true := by decide
theorem witness_EncodeOfDecode : decode 0x003F0001 = .ok (.pack 63) := by decide

theorem witness_StepRunsTheDecodedCommand : ∃ (s : State) (i : Instr),
    s.phase = .idle ∧ s.agenda = [.run 0x00090001] ∧ decode 0x00090001 = .ok i :=
  ⟨{ State.reset with agenda := [.run 0x00090001] }, .pack 9, rfl, rfl, by decide⟩

theorem witness_CmdWriteStartsAJob : ∃ s : State, s.phase = .idle ∧ s.agenda = [.host (.csrWrite .word 0x010 3)] :=
  ⟨{ State.reset with agenda := [.host (.csrWrite .word 0x010 3)] }, rfl, rfl⟩

/-- A CMD write and a RUN in a running job; WAIT where DONE is 1, and where it is 0 in a running job and while IDLE. -/
theorem witness_CmdWriteWhileBusyIsDropped :
    (∀ x ∈ [Turn.host (.csrWrite .word 0x010 4), .run 4], ∃ s : State, s.phase = .running ∧ s.agenda = [x]) ∧
    (∃ s : State, s.agenda = [.wait] ∧ s.statusWord.getLsbD 1 = true) ∧
    (∃ s : State, s.agenda = [.wait] ∧ s.statusWord.getLsbD 1 = false ∧ s.phase = .running) ∧
    ∃ s : State, s.agenda = [.wait] ∧ s.statusWord.getLsbD 1 = false ∧ s.phase = .idle :=
  ⟨fun x _ => ⟨{ jobWith [] {} 3 with agenda := [x] }, rfl, rfl⟩,
    ⟨{ State.reset with agenda := [.wait], status := { done := true } }, rfl, by decide⟩,
    ⟨{ jobWith [] {} 3 with agenda := [.wait] }, rfl, by decide, rfl⟩, ⟨{ State.reset with agenda := [.wait] }, rfl, by decide, rfl⟩⟩

/-- R130, R281: RUN while BUSY sets OVERRUN, keeps the job and leaves WAIT, whose first poll moves the engine (a NOP completes), and whose
next ends. -/
theorem test_run_while_busy :
    let s := after (step { jobWith [] {} 0 with agenda := [.run 4] })
    s.cmd = 0 ∧ s.statusWord = 0x11 ∧ (after (step s)).statusWord = 0x12 ∧ (after (step (after (step s)))).agenda = [] := by decide

theorem witness_BadWordIsABadCommandJobFailure : ∃ s : State, s.phase = .idle ∧ s.agenda = [.run 7] ∧
    ∀ r ∈ opcodeTable, (7 : Word) &&& r.mask ≠ r.pattern :=
  ⟨{ State.reset with agenda := [.run 7] }, rfl, rfl, by decide⟩

theorem witness_EmptyLatchFaults : Instr.lzwEnc ≠ .nop ∧ State.reset.latch = none := by decide

theorem witness_IdleEngineDoesNothing : ∃ s t u : State, s.phase = .idle ∧ s.agenda = [] ∧ t.phase = .idle ∧
    t.agenda = [.sequencer] ∧ u.phase = .idle ∧ u.agenda = [.worker 0] :=
  ⟨State.reset, { State.reset with agenda := [.sequencer] }, { State.reset with agenda := [.worker 0] }, rfl, rfl, rfl, rfl, rfl, rfl⟩

/-- The first clause by an access, the second by a NOP. -/
theorem witness_ResultsPersistUntilTheNextJob : ∃ s t u : State,
    s.phase = .idle ∧ s.agenda = [.host (.csrWrite .word 0x008 2)] ∧ (0x008 : Nat) ≠ 0x004 ∧ (0x008 : Nat) ≠ 0x010 ∧
    step s = .next t ∧ u.phase = .idle ∧ u.agenda = [.run 0] ∧ (nextOf (step u)).isSome = true :=
  ⟨{ State.reset with agenda := [.host (.csrWrite .word 0x008 2)] }, _, { State.reset with agenda := [.run 0] }, rfl, rfl,
    by decide, by decide, next_of_isSome (by decide), rfl, rfl, by decide⟩

theorem witness_HostCannotStopARunningJob : ∃ s t : State,
    s.phase = .running ∧ s.agenda = [.host (.csrWrite .word 0x004 2)] ∧ step s = .next t ∧ (2 : Word).getLsbD 0 = false :=
  ⟨{ jobWith [] {} 3 with agenda := [.host (.csrWrite .word 0x004 2)] }, _, rfl, rfl, next_of_isSome (by decide), by decide⟩

/-- A byte of the source, a byte of no buffer, no byte, and two bytes before the source followed by its first. -/
theorem witness_HostWriteToALatchedBufferMarksTheJob :
    ∀ x ∈ [(0x107, bytesOf [0], true), (0x108, bytesOf [0], false), (0x107, [], false), (0xFE, bytesOf [0, 0, 0], true)],
      ∃ (s : State) (L : Latch), s.phase = .running ∧ s.latch = some L ∧ x.1 + x.2.1.length ≤ s.params.memSize ∧
        s.agenda = [.host (.memWrite x.1 x.2.1)] ∧
        decide (∃ k, k < x.2.1.length ∧ L.src.addr ≤ x.1 + k ∧ x.1 + k < L.src.addr + L.src.len) = x.2.2 := by
  intro x h
  refine ⟨{ jobWith eightA (srcDst 8 16) 3 with agenda := [.host (.memWrite x.1 x.2.1)] }, _, rfl, rfl, ?_, rfl, ?_⟩ <;>
    (simp only [List.mem_cons, List.not_mem_nil, or_false] at h; rcases h with rfl | rfl | rfl | rfl <;> decide)

/-! ### Witnesses: the commands -/

theorem witness_NopOnlyCompletes : ∃ s L, JustStarted s L := ⟨_, _, jobWith_justStarted [] {} 0⟩

theorem packArgsPass : ArgsPass (jobWith fourWords (srcDst 16 5) 0x00090001) { cmd := 0x00090001, args := srcDst 16 5 } false :=
  (argFault_eq_none _ _ _).1 (by decide)

/-- The output just fits. -/
theorem witness_PackWritesThePackedWords : ∃ w s L, JustStarted s L ∧ ArgsPass s L false ∧ OwnChecksPass s L (.pack w) ∧
    ceilDiv (L.src.len / 4 * w) 8 ≤ L.dst.len :=
  ⟨9, _, _, jobWith_justStarted fourWords (srcDst 16 5) 0x00090001, packArgsPass,
    by unfold OwnChecksPass; decide, by decide⟩

theorem witness_UnpackWritesTheValueWords : ∃ w s L, JustStarted s L ∧ ArgsPass s L false ∧ OwnChecksPass s L (.unpack w) ∧
    4 * (L.args.nbitsIn.toNat / w) ≤ L.dst.len :=
  ⟨4, _, _, jobWith_justStarted [0xAB, 0xC0] { srcDst 2 8 with nbitsIn := 10 } 0x00040002,
    (argFault_eq_none _ _ _).1 (by decide), by unfold OwnChecksPass; decide, by decide⟩

theorem witness_SingleChunkCommandWritesItsResult : ∃ s L r, JustStarted s L ∧ ArgsPass s L false ∧
    sessionOf .enc s.params.dictCapacity (s.readBuffer L.src) = .ok r ∧ r.out.length ≤ L.dst.len :=
  ⟨_, _, { out := bytesOf eightAFrame, codes := [65, 256, 257, 256], dictSize := 259, width := 9, nbits := 36 },
    jobWith_justStarted eightA (srcDst 8 10) 3, (argFault_eq_none _ _ _).1 (by decide), by decide +kernel, by decide⟩

theorem witness_SingleChunkCommandWritesItsResult_dec : ∃ s L r, JustStarted s L ∧ ArgsPass s L false ∧
    sessionOf .dec s.params.dictCapacity (s.readBuffer L.src) = .ok r ∧ r.out.length ≤ L.dst.len :=
  ⟨_, _, { out := bytesOf eightA, codes := [65, 256, 257, 256], dictSize := 259, width := 9, nbits := 36 },
    jobWith_justStarted eightAFrame (srcDst 10 8) 4, (argFault_eq_none _ _ _).1 (by decide), by decide +kernel, by decide⟩

theorem witness_FailedSingleChunkLeavesEmptyOutput : ∃ s L r, JustStarted s L ∧ ArgsPass s L false ∧
    sessionOf .dec s.params.dictCapacity (s.readBuffer L.src) = .error r :=
  ⟨_, _, { cause := .badCompressedCode, info := 256, pos := 0 },
    jobWith_justStarted [0x80, 0, 9, 0, 0, 0, 9] (srcDst 7 8) 4, (argFault_eq_none _ _ _).1 (by decide), by decide +kernel⟩

theorem parEncArgsPass :
    ArgsPass (jobWith [0x41, 0x42] (srcDst 2 0x40) 0x00000205) { cmd := 0x00000205, args := srcDst 2 0x40 } false :=
  (argFault_eq_none _ _ _).1 (by decide)

theorem witness_ParEncWritesTheContainer : ∃ n s L, JustStarted s L ∧ ArgsPass s L false ∧ 1 ≤ n ∧ n ≤ 255 ∧
    (assemble (((split (s.readBuffer L.src) n).map (encodeFrame s.params.dictCapacity)).map chunkOutput) []).length ≤ L.dst.len :=
  ⟨2, _, _, jobWith_justStarted [0x41, 0x42] (srcDst 2 0x40) 0x00000205, parEncArgsPass, by decide, by decide, by decide +kernel⟩

def corruptFrames : List (List Byte) := [bytesOf (corrupt.take 8), bytesOf ((corrupt.drop 8).take 8)]

theorem corruptArgsPass : ArgsPass (jobWith corrupt (srcDst 25 16) 6) { cmd := 6, args := srcDst 25 16 } false :=
  (argFault_eq_none _ _ _).1 (by decide)

theorem corrupt_parses : parseContainer ((jobWith corrupt (srcDst 25 16) 6).readBuffer ⟨0x100, 25⟩) false 0 = .ok corruptFrames := by
  decide +kernel

theorem witness_ParDecWritesTheChunksInOrder : ∃ s L frames, JustStarted s L ∧ ArgsPass s L false ∧
    (false = true → L.ext.len ≤ L.src.len) ∧ parseContainer (s.readBuffer L.src) false L.ext.len = .ok frames ∧
    ((frames.map (decodeFrame s.params.dictCapacity)).map chunkOutput).flatten.length ≤ L.dst.len :=
  ⟨_, _, corruptFrames, jobWith_justStarted corrupt (srcDst 25 16) 6, corruptArgsPass, by decide, corrupt_parses, by decide +kernel⟩

/-! ### Witnesses: job failures -/

def failArgs (srcAddr srcLen dstAddr dstCap extAddr extLen : Word) : Args :=
  { srcAddr := srcAddr, srcLen := srcLen, dstAddr := dstAddr, dstCap := dstCap, extAddr := extAddr, extLen := extLen }

/-- The five clauses for PAR_ENC with EXT, each one byte past the boundary. -/
theorem witness_CommonArgumentChecks :
    ∀ x ∈ [((3, 0), failArgs 0xFFFF 2 0 0 0 0), ((3, 1), failArgs 0 0 0xFFFF 2 0 0), ((3, 2), failArgs 0 0 0 0 0xFFFF 2),
        ((4, 1), failArgs 0x100 8 0x107 8 0 0), ((4, 2), failArgs 0x100 8 0x200 8 0x207 4)],
      JustStarted (jobWith [] x.2 0x01000105) { cmd := 0x01000105, args := x.2 } ∧
        argFault (jobWith [] x.2 0x01000105).params.memSize { cmd := 0x01000105, args := x.2 } true =
          some (badArgs x.1.1 x.1.2) := by
  intro x h
  refine ⟨jobWith_justStarted [] x.2 0x01000105, ?_⟩
  simp only [List.mem_cons, List.not_mem_nil, or_false] at h
  rcases h with rfl | rfl | rfl | rfl | rfl <;> decide

/-- One byte less, and each set of arguments passes. -/
theorem witness_CommonArgumentChecks_boundary :
    ∀ a ∈ [failArgs 0xFFFF 1 0 0 0 0, failArgs 0 0 0xFFFF 1 0 0, failArgs 0 0 0 0 0xFFFF 1, failArgs 0x100 8 0x108 8 0 0,
        failArgs 0x100 8 0x200 8 0x208 4],
      ArgsPass (jobWith [] a 0x01000105) { cmd := 0x01000105, args := a } true := by
  intro a h
  apply (argFault_eq_none _ _ _).1
  simp only [List.mem_cons, List.not_mem_nil, or_false] at h
  rcases h with rfl | rfl | rfl | rfl | rfl <;> decide

/-- Each clause: widths 0 and 33, 6 bytes, `2^26` words at width 32, 17 bits in 2 bytes, an extension longer than the source, no chunk. -/
theorem witness_OwnArgumentChecks :
    (∃ s L, JustStarted s L ∧ ArgsPass s L false ∧ ¬(1 ≤ 0 ∧ 0 ≤ 32) ∧ ¬(1 ≤ 33 ∧ 33 ≤ 32)) ∧
    (∃ s L, JustStarted s L ∧ ArgsPass s L false ∧ L.src.len % 4 ≠ 0) ∧
    (∃ s L, JustStarted s L ∧ ArgsPass s L false ∧ L.src.len % 4 = 0 ∧ 2 ^ 31 - 1 < L.src.len / 4 * 32) ∧
    (∃ s L, JustStarted s L ∧ ArgsPass s L false ∧ 8 * L.src.len < L.args.nbitsIn.toNat) ∧
    (∃ s L, JustStarted s L ∧ ArgsPass s L false ∧ L.src.len < L.ext.len) ∧
    (∃ s L, JustStarted s L ∧ ArgsPass s L true) := by
  refine ⟨⟨_, _, jobWith_justStarted [] {} 1, (argFault_eq_none _ _ _).1 (by decide), by decide, by decide⟩,
    ⟨_, _, jobWith_justStarted [] { srcLen := 6, dstAddr := 0x100 } 0x00080001, (argFault_eq_none _ _ _).1 (by decide), by decide⟩,
    ⟨_, _, State.startJob_justStarted { State.reset with
      params := { Config.Params.default with memSize := 2 ^ 32 }, args := failArgs 0 0x10000000 0x10000000 0 0 0 } 0x00200001,
      (argFault_eq_none _ _ _).1 (by decide), by decide, by decide⟩,
    ⟨_, _, jobWith_justStarted [] { srcLen := 2, nbitsIn := 17, dstAddr := 0x100 } 0x00080002,
      (argFault_eq_none _ _ _).1 (by decide), by decide⟩,
    ⟨_, _, jobWith_justStarted [] { srcLen := 3, extLen := 4, dstAddr := 0x100 } 0x01000006,
      (argFault_eq_none _ _ _).1 (by decide), by decide⟩,
    ⟨_, _, jobWith_justStarted [] {} 0x01000005, (argFault_eq_none _ _ _).1 (by decide)⟩⟩

theorem witness_MalformedContainerIsAJobFailure : ∃ s L r, JustStarted s L ∧ ArgsPass s L false ∧
    (false = true → L.ext.len ≤ L.src.len) ∧ parseContainer (s.readBuffer L.src) false L.ext.len = .error r :=
  ⟨_, _, malformedContainer 1 0, jobWith_justStarted [] {} 6, (argFault_eq_none _ _ _).1 (by decide), by decide, by decide⟩

/-- With no failed chunk (JB-9), and with one captured before (JB-17). -/
theorem witness_OutputLongerThanCapacityFailsTheJob :
    (∃ s L, JustStarted s L ∧ ArgsPass s L (usesExt .lzwEnc) ∧ OwnChecksPass s L .lzwEnc ∧
      L.dst.len < (outputOf s L .lzwEnc).length ∧ ∀ r ∈ sessionsOf s L .lzwEnc, chunkCauseOf r = .none) ∧
    ∃ s L, JustStarted s L ∧ ArgsPass s L (usesExt (.parDec 0 false)) ∧ OwnChecksPass s L (.parDec 0 false) ∧
      L.dst.len < (outputOf s L (.parDec 0 false)).length ∧ ∃ r ∈ sessionsOf s L (.parDec 0 false), chunkCauseOf r ≠ .none := by
  refine ⟨⟨_, _, jobWith_justStarted eightA (srcDst 8 9) 3, (argFault_eq_none _ _ _).1 (by decide), trivial, by decide +kernel,
      by decide +kernel⟩,
    ⟨_, _, jobWith_justStarted corrupt (srcDst 25 1) 6, (argFault_eq_none _ _ _).1 (by decide), ?_, by decide +kernel,
      by decide +kernel⟩⟩
  unfold OwnChecksPass
  exact ⟨by decide, corruptFrames, by decide +kernel⟩

/-- A command without chunks (PACK), and the last chunk of one whose last session succeeds (JB-9). -/
theorem witness_OutputLongerThanCapacityFailsTheJob_progress :
    (∃ s L, JustStarted s L ∧ ArgsPass s L (usesExt (.pack 9)) ∧ OwnChecksPass s L (.pack 9) ∧
      L.dst.len < (outputOf s L (.pack 9)).length ∧ chunksOf s L (.pack 9) = []) ∧
    ∃ s L chunk r, JustStarted s L ∧ L.dst.len < (outputOf s L .lzwEnc).length ∧ codecOf .lzwEnc = some .enc ∧
      (chunksOf s L .lzwEnc).getLast? = some chunk ∧ (sessionsOf s L .lzwEnc).getLast? = some r :=
  ⟨⟨_, _, jobWith_justStarted fourWords (srcDst 16 4) 0x00090001, (argFault_eq_none _ _ _).1 (by decide),
      by unfold OwnChecksPass; decide, by decide +kernel, rfl⟩,
    ⟨_, _, _, _, jobWith_justStarted eightA (srcDst 8 9) 3, by decide +kernel, rfl, rfl, rfl⟩⟩

/-! ### Witnesses: frames -/

theorem witness_CommandsWriteOnlyTheDestination : ∃ s t L, State.latch s = some L ∧ exec (.pack 9) s = .next t :=
  ⟨jobWith fourWords (srcDst 16 8) 0x00090001, _, _, rfl, next_of_isSome (by decide +kernel)⟩

/-- A step of the engine by nobody's turn, by each agent's and by a poll, the last of a job whose buffers the host has written. -/
theorem witness_CommandsWriteOnlyTheDestination_steps :
    ∀ x ∈ [(([] : List Turn), false), ([.sequencer], false), ([.worker 0], false), ([.wait], false), ([.sequencer], true)],
      ∃ s t L, State.latch s = some L ∧ s.agenda = x.1 ∧ s.tainted = x.2 ∧ step s = .next t := by
  intro x h
  refine ⟨{ jobWith fourWords (srcDst 16 8) 0x00090001 with agenda := x.1, tainted := x.2 }, _, _, rfl, rfl, rfl,
    next_of_isSome ?_⟩
  simp only [List.mem_cons, List.not_mem_nil, or_false] at h
  rcases h with rfl | rfl | rfl | rfl | rfl <;> rfl

theorem witness_EarlyJobFailureLeavesMemory : ∃ s L, JustStarted s L ∧
    exec (.parEnc 0 false) s = .next (after (exec (.parEnc 0 false) s)) ∧
    (after (exec (.parEnc 0 false) s)).status.jobFail = true ∧
    (after (exec (.parEnc 0 false) s)).errs.jobCause ≠ .outputOverflow :=
  ⟨_, _, jobWith_justStarted [] {} 5, next_of_isSome (by decide), by decide, by decide⟩

/-- A memory that differs outside the source. -/
theorem witness_CommandsReadOnlyTheirBuffers : ∃ (s : State) (m : Memory) (L : Latch), JustStarted s L ∧ m ≠ s.mem ∧
    ∀ a, L.src.addr ≤ a ∧ a < L.src.addr + L.src.len → ({ s with mem := m } : State).readByte a = s.readByte a := by
  refine ⟨jobWith eightA (srcDst 8 16) 3, Memory.writeBytes [] 0x100 (bytesOf eightA ++ [1]), _, jobWith_justStarted _ _ _,
    by decide, ?_⟩
  intro a ha
  have h1 : 0x100 ≤ a := ha.1
  have h2 : a < 0x108 := ha.2
  interval_cases a <;> decide

/-! ### Witnesses: the packer, the codec, containers -/

theorem witness_PackPlacesEveryBit : 1 ≤ 9 ∧ 9 ≤ 32 ∧ 39 < 8 * (pack [65, 256, 257, 256] 9).1.length := by decide
theorem witness_UnpackOfPack : 1 ≤ 32 ∧ 32 ≤ 32 ∧ ∀ v ∈ [0xDEADBEEF, 1], v < 2 ^ 32 := by decide

/-- Two sequences that differ in the dropped bits only. -/
theorem witness_UnpackDropsTheRemainder : 1 ≤ 4 ∧ 4 ≤ 32 ∧ 10 ≤ 8 * (bytesOf [0xAB, 0xC0]).length ∧
    10 ≤ 8 * (bytesOf [0xAB, 0x00]).length ∧ ∀ k, k < 10 / 4 * 4 →
      ((bytesOf [0xAB, 0xC0]).getD (k / 8) 0).getLsbD (7 - k % 8) = ((bytesOf [0xAB, 0x00]).getD (k / 8) 0).getLsbD (7 - k % 8) := by
  decide

theorem witness_BitWidthIsTheLeast : 257 ≤ 2 ^ 9 ∧ 256 ≤ 256 ∧ 2 ^ 31 ≤ 2 ^ 31 := by decide

theorem witness_EncodeSizesAndCodeBounds : lzwEncode 257 (bytesOf [65, 66]) = .ok ([65, 66], 257) ∧
    lzwEncode 257 [] = .ok ([], 256) := by decide +kernel

theorem witness_EncodeOverflowsOnlyAtCapacity :
    lzwEncode 257 (bytesOf [65, 66, 67]) = .error { cause := .dictOverflow, info := 257, pos := 2 } := by decide +kernel

/-- The session after `ABA` at capacity 258: `B` extends its match, `C` is a mismatch at the capacity, and its flush emits
a code; the session after `A` at capacity 257, where `B` is a mismatch below the capacity; and no byte, whose flush emits none. -/
theorem witness_EncodeOverflowsOnlyAtCapacity_units :
    (∃ e, EncSession.start.run 258 (bytesOf [65, 66, 65]) = .ok e ∧ e.cur ++ bytesOf [66] ∈ e.dict ∧
      e.cur ++ bytesOf [67] ∉ e.dict ∧ e.dict.length = 258 ∧ e.cur ≠ []) ∧
    (∃ e, EncSession.start.run 257 (bytesOf [65]) = .ok e ∧ e.cur ++ bytesOf [66] ∉ e.dict ∧ e.dict.length ≠ 257) ∧
    ∃ e, EncSession.start.run 257 [] = .ok e ∧ e.cur = [] :=
  ⟨⟨{ dict := seedDict ++ [bytesOf [65, 66], bytesOf [66, 65]], cur := bytesOf [65], pos := 3, codes := [65, 66] },
      by decide +kernel⟩,
    ⟨{ dict := seedDict, cur := bytesOf [65], pos := 1, codes := [] }, by decide +kernel⟩, ⟨EncSession.start, rfl, rfl⟩⟩

theorem witness_FramesHaveTheirTrailer : 256 ≤ 256 ∧ 256 ≤ 2 ^ 31 ∧ lzwEncode 256 (bytesOf [65]) = .ok ([65], 256) ∧
    lzwEncode 256 (bytesOf [65, 66]) = .error { cause := .dictOverflow, info := 256, pos := 1 } ∧
    encodeFrame 256 (bytesOf [65]) =
      .ok { out := bytesOf [0x41, 8, 0, 0, 0, 8], codes := [65], dictSize := 256, width := 8, nbits := 8 } := by decide +kernel

theorem witness_FrameLengthBound : bytesOf eightA ≠ [] ∧ encodeFrame (2 ^ 31) (bytesOf eightA) =
    .ok { out := bytesOf eightAFrame, codes := [65, 256, 257, 256], dictSize := 259, width := 9, nbits := 36 } := by decide +kernel

/-- A first code of 256 and of 255; a session after the code 65, whose size is 256: the later clauses at 257, 256 (KwKwK) and 255. -/
theorem witness_DecoderJudgesEachCode : 256 ≤ 256 ∧ 255 < 256 ∧ [65] ≠ ([] : List Nat) ∧
    (∃ d, (DecSession.start [65] 0 0).run 256 [65] = .ok d) ∧
    ∃ d, (DecSession.start ([65] ++ 257 :: []) 0 0).run 256 [65] = .ok d ∧ d.dict.length < 257 ∧ 256 ≤ d.dict.length ∧
      d.dict.length = 256 ∧ d.dict.length ≠ 257 ∧ 255 < d.dict.length :=
  ⟨by decide, by decide, by decide, ⟨{ DecSession.start [65] 0 0 with prev := [65], out := [65], pos := 1 }, by decide +kernel⟩,
    { DecSession.start [65, 257] 0 0 with prev := [65], out := [65], pos := 1 }, by decide +kernel⟩

/-- Vectors MF-1, MF-3, MF-4 and MF-6, and MF-5 at its boundary: a frame of 4 bytes, the widths 0 and 33, 18 bits in 2 bytes, a bit
count of `2^31`. -/
theorem witness_MalformedFramesAreRaised :
    (bytesOf [0, 0, 0, 8]).length < 5 ∧
    5 ≤ (bytesOf [0, 0, 0, 0, 0]).length ∧ ¬(1 ≤ 0 ∧ 0 ≤ 32) ∧ ¬(1 ≤ 33 ∧ 33 ≤ 32) ∧
    (5 ≤ (bytesOf [0, 0, 0, 0x80, 9]).length ∧ 1 ≤ 9 ∧ 9 ≤ 32 ∧ 2 ^ 31 ≤ le4 (bytesOf [0, 0, 0, 0x80, 9]) 0) ∧
    (let f := bytesOf [0x20, 0x90, 0x12, 0, 0, 0, 9];
      le4 f 2 = 18 ∧ le4 f 2 < 2 ^ 31 ∧ 8 * (f.length - 5) < le4 f 2) := by
  decide

/-- A frame of width 4 passes the four checks with the codes 4 and 1, its bit count filling its bytes; one of width 9 passes them with a
code that is too large. -/
theorem witness_MalformedFramesAreRaised_pass :
    (let f := bytesOf [0x41, 8, 0, 0, 0, 4];
      le4 f 1 ≤ 8 * (f.length - 5) ∧ le4 f 1 < 2 ^ 31 ∧ unpack (f.take 1) 8 4 = [4, 1]) ∧
    (let f := bytesOf [0x80, 0, 9, 0, 0, 0, 9];
      le4 f 2 ≤ 8 * (f.length - 5) ∧ lzwDecode 256 (unpack (f.take 2) 9 9) =
        .error { cause := .badCompressedCode, info := 256, pos := 0 }) := by
  decide +kernel

theorem witness_DecoderMirrorsTheEncoder : 256 ≤ 257 ∧ bytesOf [65, 66] ≠ [] ∧
    EncSession.start.run 257 (bytesOf [65, 66]) =
      .ok { dict := seedDict ++ [bytesOf [65, 66]], cur := bytesOf [66], pos := 2, codes := [65] } := by decide +kernel

theorem witness_DecodeOfEncodedFrame : 256 ≤ 257 ∧ 257 ≤ 2 ^ 31 ∧ encodeFrame 257 (bytesOf [65, 66]) =
    .ok { out := bytesOf [0x20, 0x90, 0x80, 0x12, 0, 0, 0, 9], codes := [65, 66], dictSize := 257, width := 9, nbits := 18 } := by
  decide +kernel

theorem witness_SplitChunksJoinToTheBytes : 1 ≤ 1 := by decide

/-- Each clause: no byte; a count without its table; an entry of `2^31`; sizes that do not add up; sizes that do. -/
theorem witness_ContainerChecks :
    (bytesOf [7]).length - 1 < 1 ∧
    (bytesOf [0, 0, 0, 1]).length - 1 < 4 * 1 ∧
    2 ^ 31 ≤ le4 (bytesOf [0, 0, 0, 0x80, 1]) 0 ∧
    ((List.range 1).map fun i => le4 (bytesOf [1, 0, 0, 0, 1]) (0 + 4 * i)).sum ≠ 0 ∧
    ((List.range 1).map fun i => le4 (bytesOf [9, 1, 0, 0, 0, 1]) (1 + 4 * i)).sum = 1 := by decide

theorem witness_ParseOfAssembledContainer : corruptFrames.length ≤ 255 ∧ ∀ f ∈ corruptFrames, f.length ≤ 2 ^ 31 - 1 := by decide

/-- The state PAR_ENC leaves after `AB` in two chunks. -/
@[irreducible] def encodedAB : State := after (exec (.parEnc 2 false) (jobWith [0x41, 0x42] (srcDst 2 0x40) 0x00000205))

theorem encodedAB_facts : (nextOf (exec (.parEnc 2 false) (jobWith [0x41, 0x42] (srcDst 2 0x40) 0x00000205))).isSome = true ∧
    encodedAB.status.jobFail = false ∧ encodedAB.res.failCount = 0 ∧ encodedAB.res.dstLen.toNat = 21 ∧
    encodedAB.params = Config.Params.default := by decide +kernel

theorem exec_encodedAB :
    exec (.parEnc 2 false) (jobWith [0x41, 0x42] (srcDst 2 0x40) 0x00000205) = .next encodedAB := by
  unfold encodedAB
  exact next_of_isSome encodedAB_facts.1

/-- The host then starts PAR_DEC on the container. -/
def decodeAB : State := State.startJob { encodedAB with args := failArgs 0x200 21 0x300 2 0 0 } 6

theorem decodeAB_params : decodeAB.params = Config.Params.default := encodedAB_facts.2.2.2.2

theorem witness_ParallelRoundTrip : ∃ (s t u : State) (L K : Latch), s.params.legal ∧ JustStarted s L ∧ ArgsPass s L false ∧
    exec (.parEnc 2 false) s = .next t ∧ t.status.jobFail = false ∧ t.res.failCount = 0 ∧ JustStarted u K ∧
    u.params = s.params ∧ ArgsPass u K false ∧ K.src.len = t.res.dstLen.toNat ∧ L.src.len ≤ K.dst.len ∧
    ∀ k, k < K.src.len → u.readByte (K.src.addr + k) = t.readByte (L.dst.addr + k) := by
  refine ⟨jobWith [0x41, 0x42] (srcDst 2 0x40) 0x00000205, encodedAB, decodeAB, _,
    { cmd := 6, args := failArgs 0x200 21 0x300 2 0 0 }, by decide, jobWith_justStarted _ _ _, parEncArgsPass,
    exec_encodedAB, encodedAB_facts.2.1, encodedAB_facts.2.2.1, State.startJob_justStarted _ _,
    decodeAB_params, (argFault_eq_none _ _ _).1 ?_, encodedAB_facts.2.2.2.1.symm, by decide, fun k _ => State.readByte_congr rfl _⟩
  rw [decodeAB_params]
  decide

/-! ### Witnesses: the machine, step by step -/

theorem witness_ResetMeetsTheInvariant : Config.Params.default.legal := by decide

/-- The invariant in a running job: right after its start, from reset with nothing written. -/
theorem inv_of_started (v : Word) (a : List Turn) : Inv { State.startJob State.reset v with agenda := a } where
  legal := (by decide : Config.Params.default.legal)
  memSorted := rfl
  memBelow := rfl
  latched := by simp
  progress := by simp
  slotCount := by simp
  engines := by simp [runningCount]
  slotsWf := by simp
  notDone := fun _ => ⟨rfl, rfl⟩
  pending := by simp
  uncaptured := by simp
  fresh := by simp
  command := by simp
  bounds := by simp
  chunkCount := by simp
  chunkCause := by simp
  failCount := by simp
  captured := by simp
  wired := by simp

/-- The invariant while IDLE, from reset with any bytes of the memory written, any arguments and any turns to come. -/
theorem inv_of_idle (m : Memory) (x : Args) (a : List Turn) (hw : m.wf = true) (hb : m.below 0x10000 = true) :
    Inv { State.reset with mem := m, args := x, agenda := a } := by
  have hp : ¬({ State.reset with mem := m, args := x, agenda := a } : State).phase = .running := by
    simp [State.reset, State.resetWith]
  constructor
  case legal => exact (by decide : Config.Params.default.legal)
  case latched => simp [State.reset, State.resetWith]
  case slotsWf => simp [State.reset, State.resetWith]
  case progress => exact (by decide : State.reset.res.progress.toNat ≤ 65536)
  case slotCount => exact (by decide : State.reset.slots.length ≤ 255)
  case engines => exact (by decide : runningCount State.reset.slots ≤ State.reset.params.nEngines)
  case memSorted => exact hw
  case memBelow => exact hb
  all_goals exact fun h => absurd h hp

theorem inv_of_reset (a : List Turn) : Inv { State.reset with agenda := a } := inv_of_idle [] {} a rfl rfl

/-- A running job whose sequencer takes its first step (LZW_ENC on an empty source). -/
theorem witness_StepKeepsTheInvariant : ∃ s t, Inv s ∧ step s = .next t ∧ t.phase = .running :=
  ⟨_, _, inv_of_started 3 [], next_of_isSome (by decide +kernel), by decide +kernel⟩

/-- A job that has captured, in which a worker fails (the frame is empty), ERR set or cleared; one that has captured, at its end; and one
that has not, in which the first of two workers fails. -/
theorem witness_ErrIsCapturedOncePerJob :
    (∀ err ∈ [true, false], ∃ s t : State, s.phase = .running ∧ s.tainted = false ∧ step s = .next t ∧ s.errOnce = true ∧
      s.status.err = err ∧ t.phase = .running) ∧
    (∃ s t : State, s.phase = .running ∧ s.tainted = false ∧ step s = .next t ∧ s.errOnce = true ∧ t.phase = .idle) ∧
    ∃ s t : State, s.phase = .running ∧ s.tainted = false ∧ step s = .next t ∧ s.errOnce = false ∧
      ∃ sl sl' : Slot, s.slots[0]? = some sl ∧ t.slots[0]? = some sl' ∧ sl.phase ≠ .failed ∧ sl'.phase = .failed := by
  refine ⟨fun err _ => ⟨{ jobWith [] {} 6 with
      errOnce := true, stage := .join, slots := [{ input := [] }], status := { err := err }, agenda := [.worker 0] }, _,
      rfl, rfl, rfl, rfl, rfl, rfl⟩,
    ⟨{ jobWith [] {} 7 with errOnce := true }, _, rfl, rfl, next_of_isSome (by decide), rfl, by decide⟩,
    ⟨{ jobWith [] {} 6 with stage := .join, slots := [{ input := [] }, { input := [] }], agenda := [.worker 0] }, _,
      rfl, rfl, rfl, rfl, { input := [] }, { input := [], phase := .failed, cause := .malformedFrame }, rfl, ?_, by decide, rfl⟩⟩
  decide

/-- A step that leaves the job running, and a completing one (NOP). -/
theorem witness_ProgressNeverDecreases :
    (∃ s t, Inv s ∧ s.phase = .running ∧ step s = .next t ∧ t.phase = .running) ∧
    ∃ s t, Inv s ∧ s.phase = .running ∧ step s = .next t ∧ t.phase = .idle ∧ s.tainted = false ∧ s.agenda = [] :=
  ⟨⟨_, _, inv_of_started 3 [], rfl, next_of_isSome (by decide +kernel), by decide +kernel⟩,
    ⟨_, _, inv_of_started 0 [], rfl, next_of_isSome (by decide +kernel), by decide +kernel, rfl, rfl⟩⟩

theorem witness_EveryJobEnds : ∃ s, Inv s ∧ s.phase = .running ∧ s.agenda = [] := ⟨_, inv_of_started 3 [], rfl, rfl⟩

/-- LZW_ENC on an empty source: the sequencer, the worker's start and end, the sequencer. -/
def turnsOfEmptyEncode : List Turn := [.sequencer, .worker 0, .worker 0, .sequencer]

theorem witness_ResultsDoNotDependOnTheSchedule : ∃ s t u : State, Inv s ∧ s.phase = .idle ∧
    (∀ x ∈ turnsOfEmptyEncode, x = .sequencer ∨ ∃ i, x = .worker i) ∧
    Host.Core.run Sys2Proof.core 5 { s with agenda := .host (.csrWrite .word 0x010 3) :: turnsOfEmptyEncode } = .next t ∧
    t.phase = .idle ∧ step { s with agenda := [.run 3] } = .next u := by
  refine ⟨_, _, _, inv_of_reset [], rfl, ?_, next_of_isSome (o := Host.Core.run Sys2Proof.core 5 _) (by decide +kernel),
    by decide +kernel, next_of_isSome (by decide +kernel)⟩
  simp [turnsOfEmptyEncode]

/-- A container of two empty frames: both chunks fail (vector MF-2), the second first. -/
theorem witness_ResultsDoNotDependOnTheSchedule_fail : ∃ s t u : State, Inv s ∧ s.phase = .idle ∧
    Host.Core.run Sys2Proof.core 5
      { s with agenda := [.host (.csrWrite .word 0x010 6), .sequencer, .worker 1, .worker 0, .sequencer] } = .next t ∧
    t.phase = .idle ∧ t.errs.chunk = 1 ∧ step { s with agenda := [.run 6] } = .next u ∧ u.res.failCount.toNat = 2 ∧
    decode 6 = .ok (.parDec 0 false) :=
  ⟨idleWith [0, 0, 0, 0, 0, 0, 0, 0, 2] (srcDst 9 0), _, _, inv_of_idle _ _ [] (by decide) (by decide), rfl,
    next_of_isSome (o := Host.Core.run Sys2Proof.core 5 _) (by decide +kernel), by decide +kernel, by decide +kernel,
    next_of_isSome (by decide +kernel), by decide +kernel, by decide⟩

end Sys2Proof.Tests
end

section
/-! PROOF. Every step keeps the invariant. `Sound` is the part of `Inv` that does not speak of a running job: a step that ends a job needs
no more. A worker's turn in a running job changes one slot, and `SlotMove` says once how the records of the job follow that slot. -/

namespace Sys2Proof.Machine

/-! ### The part of the invariant that holds whether or not a job runs -/

/-- The fields of `Inv` that speak neither of the phase nor of the latch. -/
structure Sound (s : State) : Prop where
  legal : s.params.legal
  memSorted : s.mem.wf = true
  memBelow : s.mem.below s.params.memSize = true
  progress : s.res.progress.toNat ≤ 65536
  slotCount : s.slots.length ≤ 255
  engines : runningCount s.slots ≤ s.params.nEngines
  slotsWf : ∀ sl ∈ s.slots, sl.wf

theorem Inv.sound {s : State} (h : Inv s) : Sound s :=
  ⟨h.legal, h.memSorted, h.memBelow, h.progress, h.slotCount, h.engines, h.slotsWf⟩

/-- While IDLE with no latch the rest of the invariant asks for nothing. -/
theorem Sound.inv_of_idle {s : State} (h : Sound s) (hp : s.phase = .idle) (hl : s.latch = none) : Inv s where
  legal := h.legal
  memSorted := h.memSorted
  memBelow := h.memBelow
  latched := by simp [hp, hl]
  progress := h.progress
  slotCount := h.slotCount
  engines := h.engines
  slotsWf := h.slotsWf
  notDone := by simp [hp]
  pending := by simp [hp]
  uncaptured := by simp [hp]
  fresh := by simp [hp]
  command := by simp [hp]
  bounds := by simp [hp]
  chunkCount := by simp [hp]
  chunkCause := by simp [hp]
  failCount := by simp [hp]
  captured := by simp [hp]
  wired := by simp [hp]

/-- The block is IDLE, or a job runs and its latch is held (R66). -/
theorem Inv.idle_or_latched {s : State} (h : Inv s) : s.phase = .idle ∨ s.phase = .running ∧ ∃ L, s.latch = some L := by
  cases hp : s.phase with
  | idle => exact .inl rfl
  | running => exact .inr ⟨rfl, Option.isSome_iff_exists.1 (h.latched.1 hp)⟩

/-- A step that leaves the parameters and the slots has to account for the memory and PROGRESS alone. -/
theorem Sound.of_slots_eq {s t : State} (h : Sound s) (hparams : t.params = s.params) (hslots : t.slots = s.slots)
    (hw : t.mem.wf = true) (hb : t.mem.below s.params.memSize = true) (hp : t.res.progress.toNat ≤ 65536) : Sound t where
  legal := hparams ▸ h.legal
  memSorted := hw
  memBelow := hparams ▸ hb
  progress := hp
  slotCount := hslots ▸ h.slotCount
  engines := hslots ▸ hparams ▸ h.engines
  slotsWf := hslots ▸ h.slotsWf

/-! ### Job start (R282) -/

theorem Sound.startJob_inv {s : State} (h : Sound s) (v : Word) : Inv (s.startJob v) where
  legal := h.legal
  memSorted := h.memSorted
  memBelow := h.memBelow
  latched := by simp
  progress := by simp
  slotCount := by simp
  engines := by simp [runningCount]
  slotsWf := by simp
  notDone := by simp
  pending := by simp
  uncaptured := by simp
  fresh := by simp
  command := by simp
  bounds := by simp
  chunkCount := by simp
  chunkCause := by simp
  failCount := by simp
  captured := by simp
  wired := by simp

/-! ### The ends of a job -/

theorem Sound.complete_inv {s : State} (h : Sound s) : Inv s.complete :=
  (h.of_slots_eq (t := s.complete) rfl rfl h.memSorted h.memBelow h.progress).inv_of_idle rfl rfl

theorem Sound.jobFail_inv {s : State} (h : Sound s) (r : Raise) : Inv (s.jobFail r) :=
  (h.of_slots_eq (by simp) (by simp) (by simpa using h.memSorted) (by simpa using h.memBelow)
    (by simpa using h.progress)).inv_of_idle (by simp) (by simp)

/-- PROGRESS is the session's, whether or not the output fits (R65). -/
theorem State.deliver_progress (s : State) (L : Latch) (out : List Byte) {regs : Results → Results} (hw : WritesOwn regs) :
    (s.deliver L out regs).res.progress = s.res.progress := by
  unfold State.deliver
  split
  · simp
  · simp [hw.progress]

theorem Sound.deliver_inv {s : State} (h : Sound s) {L : Latch} (out : List Byte) {regs : Results → Results}
    (hw : WritesOwn regs) (hd : L.dst.addr + L.dst.len ≤ s.params.memSize) : Inv (s.deliver L out regs) := by
  obtain ⟨hc, -, hk, hs⟩ := s.deliver_frame L out regs
  have hp : (s.deliver L out regs).res.progress.toNat ≤ 65536 := by rw [s.deliver_progress L out hw]; exact h.progress
  exact (h.of_slots_eq hk.params hs (s.deliver_mem_wf L out regs h.memSorted)
    (s.deliver_mem_below L out regs h.memBelow hd) hp).inv_of_idle hc.phase hc.latch

theorem Ending.inv {s t : State} {L : Latch} (h : Sound s) (hd : L.dst.addr + L.dst.len ≤ s.params.memSize)
    (he : Ending s L t) : Inv t := by
  cases he with
  | complete => exact h.complete_inv
  | fail r _ => exact h.jobFail_inv r
  | deliver out regs hw => exact h.deliver_inv out hw hd

/-- The drawn PROGRESS of a tainted job stands for a fraction of at most 1 (R55). -/
theorem State.scramble_progress_le (s : State) (L : Latch) : (s.scramble L).res.progress.toNat ≤ 65536 := by
  have h : Config.freeValue (s.draws + 5) % (Config.progressOne + 1) < 65537 := Nat.mod_lt _ (by decide)
  simp only [State.scramble, State.havocDst_res, BitVec.toNat_ofNat]
  omega

theorem State.scramble_mem (s : State) (L : Latch) (hw : s.mem.wf = true) (hb : s.mem.below s.params.memSize = true) :
    (s.scramble L).mem.wf = true ∧ (s.scramble L).mem.below s.params.memSize = true := by
  unfold State.scramble
  exact ⟨State.wf_havocDst _ L hw, State.below_havocDst _ L hb⟩

theorem Inv.scramble {s : State} (h : Inv s) (hp : s.phase = .idle) (L : Latch) : Inv (s.scramble L) := by
  obtain ⟨-, hk, hphase, hlatch, -, hslots, -⟩ := s.scramble_frame L
  obtain ⟨hw, hb⟩ := s.scramble_mem L h.memSorted h.memBelow
  have hl : s.latch = none := by simpa [hp] using h.latched
  exact (h.sound.of_slots_eq hk.params hslots hw hb (s.scramble_progress_le L)).inv_of_idle (hphase.trans hp) (hlatch.trans hl)

theorem Inv.softReset {s : State} (h : Inv s) : Inv s.softReset := by
  obtain ⟨hparams, -, -, -, -, hres, -, hphase, hlatch, -, hslots, -⟩ := s.softReset_fields
  obtain ⟨hw, hb⟩ := s.softReset_mem h.memSorted h.memBelow
  refine Sound.inv_of_idle ?_ hphase hlatch
  exact {
    legal := hparams ▸ h.legal
    memSorted := hw
    memBelow := hparams ▸ hb
    progress := by simp [hres]
    slotCount := by simp [hslots]
    engines := by simp [hslots, runningCount]
    slotsWf := by simp [hslots] }

/-! ### What the invariant does not read -/

theorem Inv.setAgenda {s : State} (h : Inv s) (agenda : List Turn) : Inv { s with agenda := agenda } := { h with }

theorem Inv.setDraws {s : State} (h : Inv s) (draws : Nat) : Inv { s with draws := draws } := { h with }

/-- Of STATUS the invariant asks only that the flags a running job holds at 0 stay there. -/
theorem Inv.setStatus {s : State} (h : Inv s) (st : Status) (hdone : s.status.done = false → st.done = false)
    (hfail : s.status.jobFail = false → st.jobFail = false) (herr : s.status.err = false → st.err = false) :
    Inv { s with status := st } :=
  { h with
    notDone := fun hp => (h.notDone hp).imp hdone hfail
    uncaptured := fun hp ho => (h.uncaptured hp ho).imp_right herr }

/-! ### The sequencer's first step (R288) -/

/-- Chunks ready to be worked on: no slot holds a session, a cause or a running phase. -/
theorem State.mem_ready_slots {s : State} {chunks : List (List Byte)} {staged : List Byte} {sl : Slot}
    (h : sl ∈ (s.ready chunks staged).slots) : sl.phase = .pending ∧ sl.session = none ∧ sl.cause = .none := by
  simp only [State.ready, List.mem_map] at h
  obtain ⟨chunk, -, rfl⟩ := h
  exact ⟨rfl, rfl, rfl⟩

/-- The workers are made ready in a job whose latched command has workers and whose destination lies in the memory. -/
theorem Inv.ready {s : State} {L : Latch} {i : Instr} (h : Inv s) (hp : s.phase = .running) (hst : s.stage = .check)
    (hl : s.latch = some L) (hd : decode L.cmd = .ok i) (hc : (codecOf i).isSome = true) (ha : ArgsPass s L (usesExt i))
    {chunks : List (List Byte)} (hn : chunks.length ≤ 255) (staged : List Byte) : Inv (s.ready chunks staged) := by
  obtain ⟨-, hres, hOnce⟩ := h.fresh hp hst
  have hnone : ∀ sl ∈ (s.ready chunks staged).slots, sl.phase = .pending ∧ sl.session = none ∧ sl.cause = .none :=
    fun sl => State.mem_ready_slots
  have hlen : (s.ready chunks staged).slots.length = chunks.length := by simp [State.ready]
  have hr : (s.ready chunks staged).res = { chunkCount := BitVec.ofNat 8 chunks.length } := by simp [State.ready, hres]
  exact {
    legal := h.legal
    memSorted := h.memSorted
    memBelow := h.memBelow
    latched := h.latched
    progress := by simp [hr]
    slotCount := hlen.trans_le hn
    engines := by
      have : runningCount (s.ready chunks staged).slots = 0 := List.countP_eq_zero.2 fun sl hsl => by simp [hnone sl hsl]
      omega
    slotsWf := fun sl hsl => by simp [Slot.wf, hnone sl hsl]
    notDone := h.notDone
    pending := fun _ => by
      obtain ⟨-, -, -, -, -, hjobCause⟩ := h.pending hp
      rw [hr]
      exact ⟨rfl, rfl, rfl, rfl, rfl, hjobCause⟩
    uncaptured := h.uncaptured
    fresh := fun _ hst' => by cases hst'
    command := fun _ _ => ⟨L, i, hl, hd, hc⟩
    bounds := fun _ _ K hK => by
      obtain rfl : L = K := Option.some.inj (hl.symm.trans hK)
      exact ha.dstValid
    chunkCount := fun _ => by
      rw [hr, hlen, BitVec.toNat_ofNat]
      omega
    chunkCause := fun _ j hj => by
      cases hx : (s.ready chunks staged).slots[j]? with
      | none => simp [hr]
      | some sl => simp [hr, hnone sl (List.mem_of_getElem? hx)]
    failCount := fun _ => by
      rw [hr, List.countP_eq_zero.2 fun sl hsl => by simp [hnone sl hsl]]
      rfl
    captured := fun _ => by
      refine iff_of_false (by simp [State.ready, hOnce]) ?_
      rintro ⟨sl, hsl, hf⟩
      simp [hnone sl hsl] at hf
    wired := fun _ sl hsl => by
      have := hnone sl (List.mem_of_getLast? hsl)
      simp [hr, this] }

theorem FirstMove.inv {s t : State} {L : Latch} {i : Instr} (h : Inv s) (hp : s.phase = .running) (hst : s.stage = .check)
    (hl : s.latch = some L) (hd : decode L.cmd = .ok i) (hm : FirstMove i L s t) : Inv t := by
  cases hm with
  | complete => exact h.sound.complete_inv
  | fail r _ => exact h.sound.jobFail_inv r
  | deliver out regs hw ha => exact h.sound.deliver_inv out hw ha.dstValid
  | ready chunks staged hn hc ha => exact h.ready hp hst hl hd hc ha hn staged

/-! ### One slot of a list changes -/

theorem runningCount_modify {l : List Slot} {i n : Nat} {sl : Slot} {f : Slot → Slot} (h : l[i]? = some sl)
    (hn : runningCount l ≤ n) (hf : (f sl).phase = .running → sl.phase = .running ∨ runningCount l < n) :
    runningCount (l.modify i f) ≤ n := by
  have hc := countP_modify (fun x : Slot => x.phase == .running) f l i sl h
  unfold runningCount at *
  by_cases hr : (f sl).phase = .running
  · rcases hf hr with hs | hs
    · simp only [hr, hs, beq_self_eq_true, Bool.toNat_true] at hc
      omega
    · simp only [hr, beq_self_eq_true, Bool.toNat_true] at hc
      omega
  · simp only [beq_eq_false_iff_ne.2 hr, Bool.toNat_false] at hc
    omega

theorem getLast?_modify_slot (l : List Slot) (f : Slot → Slot) (i : Nat) :
    (l.modify i f).getLast? = if i + 1 = l.length then l.getLast?.map f else l.getLast? := by
  rw [List.getLast?_eq_getElem?, List.length_modify, getElem?_modify_slot, List.getLast?_eq_getElem?]
  cases l with
  | nil => simp
  | cons x l => simp

/-! ### The slot of a worker's turn (R311, R68) -/

/-- PROGRESS is not ahead of the session of the progress-wired worker's slot (R200, R233). -/
def Slot.Wired (sl : Slot) (p : BitVec 17) : Prop :=
  (sl.phase = .pending → p = 0) ∧ ∀ x ∈ sl.session, p.toNat * x.units sl ≤ x.scan * 65536

theorem Slot.wired_of_ended {sl : Slot} (hp : sl.phase ≠ .pending) (hs : sl.session = none) (p : BitVec 17) : sl.Wired p := by
  simp [Slot.Wired, hp, hs]

theorem Slot.fail_wf (sl : Slot) {r : Raise} (hr : r.cause ≠ .none) : (sl.fail r).wf := by simp [Slot.wf, Slot.fail, hr]

theorem Slot.succeed_wf (sl : Slot) (r : CodecResult) : (sl.succeed r).wf := by simp [Slot.wf, Slot.succeed]

/-- The slot of a worker whose session runs. -/
def Slot.runs (x : Session) (sl : Slot) : Slot := { sl with phase := .running, session := some x }

theorem Slot.runs_wf {sl : Slot} (h : sl.wf) (hf : sl.phase ≠ .failed) (x : Session) : (sl.runs x).wf := by
  simpa [Slot.wf, Slot.runs] using h.2.1 hf

/-- What the turn of worker `i` in a running job does when it does not pass: its slot `sl`, which had not failed, becomes `f sl`, and
the records of the job follow: CHUNK_CAUSE[i], FAIL_COUNT and the capture tell whether it has failed, and only the progress-wired
worker may move PROGRESS. -/
structure SlotMove (s t : State) (i : Nat) (sl : Slot) (f : Slot → Slot) : Prop where
  found : s.slots[i]? = some sl
  live : sl.phase ≠ .failed
  slots : t.slots = s.slots.modify i f
  wf : (f sl).wf
  engine : (f sl).phase = .running → sl.phase = .running ∨ runningCount s.slots < s.params.nEngines
  results : t.res = { s.res with
    progress := t.res.progress, chunkCause := t.res.chunkCause, chunkSize := t.res.chunkSize, failCount := t.res.failCount }
  cause : ∀ j (h : j < 255), t.res.chunkCause[j] = if i = j then (f sl).cause else s.res.chunkCause[j]
  fails : t.res.failCount = s.res.failCount + if (f sl).phase = .failed then 1 else 0
  once : t.errOnce = true ↔ s.errOnce = true ∨ (f sl).phase = .failed
  silent : t.errOnce = false → t.errs = s.errs ∧ t.status.err = s.status.err
  progress : t.res.progress.toNat ≤ 65536
  unwired : i + 1 ≠ s.slots.length → t.res.progress = s.res.progress
  wired : i + 1 = s.slots.length → (f sl).Wired t.res.progress

/-- A turn after which the worker's slot has not failed changes its slot, PROGRESS and the draws, and no record of a failure. -/
theorem Inv.slotMove_quiet {s : State} {i : Nat} {sl : Slot} {f : Slot → Slot} (h : Inv s) (hp : s.phase = .running)
    (found : s.slots[i]? = some sl) (live : sl.phase ≠ .failed) (wf : (f sl).wf) (hf : (f sl).phase ≠ .failed)
    (engine : (f sl).phase = .running → sl.phase = .running ∨ runningCount s.slots < s.params.nEngines)
    (p : BitVec 17) (n : Nat) (progress : p.toNat ≤ 65536) (unwired : i + 1 ≠ s.slots.length → p = s.res.progress)
    (wired : i + 1 = s.slots.length → (f sl).Wired p) :
    SlotMove s { s with slots := s.slots.modify i f, res := { s.res with progress := p }, draws := n } i sl f where
  found := found
  live := live
  slots := rfl
  wf := wf
  engine := engine
  results := rfl
  cause := fun j hj => by
    split
    next hij =>
      subst hij
      rw [wf.2.1 hf, h.chunkCause hp i hj, found]
      exact (h.slotsWf sl (List.mem_of_getElem? found)).2.1 live
    next => rfl
  fails := by simp [hf]
  once := by simp [hf]
  silent := fun _ => ⟨rfl, rfl⟩
  progress := progress
  unwired := unwired
  wired := wired

theorem Inv.slotMove_chunkFail {s : State} {i : Nat} {sl : Slot} (h : Inv s) (found : s.slots[i]? = some sl)
    (live : sl.phase ≠ .failed) {r : Raise} (hr : r.cause ≠ .none) :
    SlotMove s (s.chunkFail i r) i sl fun sl => sl.fail r where
  found := found
  live := live
  slots := s.chunkFail_slots i r
  wf := sl.fail_wf hr
  engine := by simp [Slot.fail]
  results := by simp
  cause := fun j hj => by simp [Vector.getElem_setIfInBounds, Slot.fail]
  fails := by simp [Slot.fail]
  once := by simp [Slot.fail]
  silent := by simp
  progress := by simpa using h.progress
  unwired := by simp
  wired := fun _ => Slot.wired_of_ended (by simp [Slot.fail]) rfl _

/-- A unit of a session, with or without a report of the progress-wired worker (R200). -/
theorem State.chunkUnit_cases (s : State) (i d T : Nat) (x : Session) : ∃ p n,
    s.chunkUnit i d T x = { s with
      slots := s.slots.modify i (Slot.runs x), res := { s.res with progress := p }, draws := n } ∧
    (p = s.res.progress ∨ i + 1 = s.slots.length ∧ d < T ∧ p = progressAt d T) := by
  unfold State.chunkUnit
  dsimp only
  split
  next hc =>
    refine ⟨_, _, rfl, ?_⟩
    split
    · exact .inr ⟨hc.1, hc.2, rfl⟩
    · exact .inl rfl
  next => exact ⟨s.res.progress, s.draws, rfl, .inl rfl⟩

/-- The slot of the last worker is held to PROGRESS. -/
theorem Inv.wired_last {s : State} (h : Inv s) (hp : s.phase = .running) {i : Nat} {sl : Slot} (hs : s.slots[i]? = some sl)
    (hlast : i + 1 = s.slots.length) : sl.Wired s.res.progress :=
  h.wired hp sl (by rw [List.getLast?_eq_getElem?, ← hlast]; exact hs)

/-- Everything a worker's turn does in a running job: it passes, or moves one slot. -/
theorem WorkerMove.slotMove {s t : State} {i : Nat} (h : Inv s) (hp : s.phase = .running) (hm : WorkerMove s i t) :
    t = s ∨ ∃ sl f, SlotMove s t i sl f := by
  cases hm with
  | pass => exact .inl rfl
  | start sl x hs hpend he hx =>
    have live : sl.phase ≠ .failed := by simp [hpend]
    have hwf := h.slotsWf sl (List.mem_of_getElem? hs)
    refine .inr ⟨sl, Slot.runs x, h.slotMove_quiet hp hs live (Slot.runs_wf hwf live x) (by simp [Slot.runs]) (fun _ => .inr he)
      s.res.progress s.draws h.progress (fun _ => rfl) fun hlast => ?_⟩
    simp [Slot.Wired, Slot.runs, (h.wired_last hp hs hlast).1 hpend]
  | fail sl r hs hlive hr =>
    exact .inr ⟨sl, _, h.slotMove_chunkFail hs (by rcases hlive with hl | hl <;> simp [hl]) hr⟩
  | ok sl x r hs hrun hx hend =>
    refine .inr ⟨sl, fun sl => sl.succeed r, h.slotMove_quiet hp hs (by simp [hrun]) (sl.succeed_wf r) (by simp [Slot.succeed])
      (by simp [Slot.succeed]) _ s.draws ?_ (fun hn => if_neg hn)
      fun _ => Slot.wired_of_ended (by simp [Slot.succeed]) rfl _⟩
    split
    · decide
    · exact h.progress
  | unit sl x y hs hrun hx hscan hunits hlt =>
    have live : sl.phase ≠ .failed := by simp [hrun]
    have hwf := h.slotsWf sl (List.mem_of_getElem? hs)
    obtain ⟨p, n, ht, hprog⟩ := s.chunkUnit_cases i y.scan (y.units sl) y
    rw [ht]
    refine .inr ⟨sl, Slot.runs y, h.slotMove_quiet hp hs live (Slot.runs_wf hwf live y) (by simp [Slot.runs]) (fun _ => .inl hrun)
      p n ?_ ?_ fun hlast => ⟨by simp [Slot.runs], ?_⟩⟩
    · rcases hprog with rfl | ⟨-, hd, rfl⟩
      · exact h.progress
      · exact progressAt_le _ _ hd.le
    · rcases hprog with rfl | ⟨hi, -, -⟩
      · exact fun _ => rfl
      · exact fun hn => absurd hi hn
    · rintro z ⟨⟩
      have hu : y.units (sl.runs y) = y.units sl := by cases y <;> rfl
      rw [hu]
      rcases hprog with rfl | ⟨-, hd, rfl⟩
      · rw [hunits]
        exact ((h.wired_last hp hs hlast).2 x hx).trans (Nat.mul_le_mul_right _ (by simp [hscan]))
      · rw [progressAt_toNat _ _ hd.le]
        exact Nat.div_mul_le_self _ _

/-! ### The records follow the slot -/

section
variable {s t : State} {i : Nat} {sl : Slot} {f : Slot → Slot}

theorem SlotMove.chunkCause_eq (m : SlotMove s t i sl f)
    (h : ∀ j (hj : j < 255), s.res.chunkCause[j] = ((s.slots[j]?).map Slot.cause).getD .none) (j : Nat) (hj : j < 255) :
    t.res.chunkCause[j] = ((t.slots[j]?).map Slot.cause).getD .none := by
  rw [m.cause j hj, m.slots, getElem?_modify_slot]
  split
  next hij =>
    subst hij
    simp [m.found]
  next => exact h j hj

/-- FAIL_COUNT does not wrap: a slot that had not failed leaves room for one failure more. -/
theorem SlotMove.failCount_eq (m : SlotMove s t i sl f) (hlen : s.slots.length ≤ 255)
    (h : s.res.failCount.toNat = s.slots.countP fun sl => sl.phase == .failed) :
    t.res.failCount.toNat = t.slots.countP fun sl => sl.phase == .failed := by
  have hc := countP_modify (fun x : Slot => x.phase == .failed) f s.slots i sl m.found
  have hle : (s.slots.modify i f).countP (fun x : Slot => x.phase == .failed) ≤ s.slots.length := by
    simpa using List.countP_le_length (p := fun x : Slot => x.phase == .failed) (l := s.slots.modify i f)
  rw [m.slots]
  simp only [beq_eq_false_iff_ne.2 m.live, Bool.toNat_false] at hc
  by_cases hf : (f sl).phase = .failed
  · simp only [hf, beq_self_eq_true, Bool.toNat_true] at hc
    rw [m.fails, if_pos hf, BitVec.toNat_add, h, show (1 : BitVec 8).toNat = 1 from rfl]
    omega
  · simp only [beq_eq_false_iff_ne.2 hf, Bool.toNat_false] at hc
    have hs : t.res.failCount = s.res.failCount := by simp [m.fails, hf]
    rw [hs, h]
    omega

theorem SlotMove.captured_iff (m : SlotMove s t i sl f) (h : s.errOnce = true ↔ ∃ x ∈ s.slots, x.phase = .failed) :
    t.errOnce = true ↔ ∃ x ∈ t.slots, x.phase = .failed := by
  rw [m.once, h, m.slots]
  constructor
  · rintro (⟨x, hx, hf⟩ | hf)
    · obtain ⟨j, hj⟩ := List.mem_iff_getElem?.1 hx
      have hij : i ≠ j := by
        rintro rfl
        exact m.live (Option.some.inj (m.found.symm.trans hj) ▸ hf)
      exact ⟨x, List.mem_of_getElem? (by rw [getElem?_modify_slot, if_neg hij, hj]), hf⟩
    · exact ⟨f sl, List.mem_of_getElem? (i := i) (by simp [m.found]), hf⟩
  · rintro ⟨x, hx, hf⟩
    rcases mem_modify_slot m.found hx with rfl | hx
    · exact .inr hf
    · exact .inl ⟨x, hx, hf⟩

theorem SlotMove.wired_getLast? (m : SlotMove s t i sl f) (h : ∀ x ∈ s.slots.getLast?, x.Wired s.res.progress) :
    ∀ x ∈ t.slots.getLast?, x.Wired t.res.progress := by
  intro x hx
  rw [m.slots, getLast?_modify_slot] at hx
  split at hx
  next hlast =>
    rw [List.getLast?_eq_getElem?, ← hlast, Nat.add_sub_cancel, m.found] at hx
    obtain rfl : f sl = x := by simpa using hx
    exact m.wired hlast
  next hn =>
    rw [m.unwired hn]
    exact h x hx

end

/-- A worker's turn keeps the invariant of a running job. -/
theorem WorkerMove.inv {s t : State} {i : Nat} (h : Inv s) (hp : s.phase = .running) (hst : s.stage = .join)
    (hm : WorkerMove s i t) : Inv t := by
  obtain ⟨hparams, -, -, -, hphase, hstage, hlatch, -, -, hmem, -, -, hlen, hdone, hjobFail, hjobCause⟩ := hm.frame
  rcases hm.slotMove h hp with rfl | ⟨sl, f, m⟩
  · exact h
  exact {
    legal := by rw [hparams]; exact h.legal
    memSorted := by rw [hmem]; exact h.memSorted
    memBelow := by rw [hmem, hparams]; exact h.memBelow
    latched := by rw [hphase, hlatch]; exact h.latched
    progress := m.progress
    slotCount := hlen.trans_le h.slotCount
    engines := by rw [m.slots, hparams]; exact runningCount_modify m.found h.engines m.engine
    slotsWf := fun x hx => by
      rw [m.slots] at hx
      rcases mem_modify_slot m.found hx with rfl | hx
      · exact m.wf
      · exact h.slotsWf x hx
    notDone := fun _ => by rw [hdone, hjobFail]; exact h.notDone hp
    pending := fun _ => by rw [m.results, hjobCause]; exact h.pending hp
    uncaptured := fun _ ho => by
      have hs : s.errOnce = false := by
        by_contra hs
        exact absurd (m.once.2 (.inl (by simpa using hs))) (by simp [ho])
      obtain ⟨herrs, herr⟩ := m.silent ho
      rw [herrs, herr]
      exact h.uncaptured hp hs
    fresh := fun _ hc => by simp [hstage, hst] at hc
    command := fun _ _ => by rw [hlatch]; exact h.command hp hst
    bounds := fun _ _ => by rw [hlatch, hparams]; exact h.bounds hp hst
    chunkCount := fun _ => by rw [m.results, hlen]; exact h.chunkCount hp
    chunkCause := fun _ => m.chunkCause_eq (h.chunkCause hp)
    failCount := fun _ => m.failCount_eq h.slotCount (h.failCount hp)
    captured := fun _ => m.captured_iff (h.captured hp)
    wired := fun _ => m.wired_getLast? (h.wired hp) }

/-! ### The engine (R288) -/

theorem JobMove.inv {s t : State} {L : Latch} (h : Inv s) (hp : s.phase = .running) (hl : s.latch = some L)
    (hm : JobMove s L t) : Inv t := by
  induction hm with
  | stay n => exact h.setDraws n
  | bad => exact h.sound.jobFail_inv _
  | first i t hst hd hf => exact hf.inv h hp hst hl hd
  | last t hst _ he => exact he.inv h.sound (h.bounds hp hst L hl)
  | worker n i t hst hw => exact hw.inv (h.setDraws n) hp hst
  | scrambled t _ hidle _ ih => exact ih.scramble hidle L

theorem Inv.sequencerStep {s : State} (h : Inv s) : Inv s.sequencerStep := by
  rcases h.idle_or_latched with hp | ⟨hp, L, hl⟩
  · simpa [State.sequencerStep, hp] using h
  · exact (s.sequencerStep_move L hp hl).inv h hp hl

theorem Inv.workerTurn {s : State} (h : Inv s) (i : Nat) : Inv (s.workerTurn i) := by
  rcases h.idle_or_latched with hp | ⟨hp, L, hl⟩
  · simpa [State.workerTurn, hp] using h
  · exact (s.workerTurn_move L s.draws i).inv h hp hl

theorem Inv.engineStep {s : State} (h : Inv s) : Inv s.engineStep := by
  rcases h.idle_or_latched with hp | ⟨hp, L, hl⟩
  · simpa [State.engineStep, hp] using h
  · exact (s.engineStep_move L hp hl).inv h hp hl

/-! ### A whole command at once (R130) -/

theorem progressAfter_le (codec : Codec) (input : List Byte) (draw : Nat) (r : Except Raise CodecResult) :
    (progressAfter codec input draw r).toNat ≤ 65536 := by
  cases r with
  | ok _ => exact le_refl 65536
  | error r =>
    refine progressAt_le _ _ ?_
    have := Nat.mod_lt (Config.freeValue draw) (Nat.succ_pos (min (unitsBefore codec input r) (unitsOf codec input - 1)))
    simp only [Nat.succ_eq_add_one] at this
    omega

theorem State.runWorkers_progress_le (codec : Codec) {s : State} (h : s.res.progress.toNat ≤ 65536) :
    (s.runWorkers codec).res.progress.toNat ≤ 65536 := by
  simp only [State.runWorkers]
  split
  · exact progressAfter_le ..
  · simpa using h

/-- A settled slot agrees with itself and holds no running session (R72). -/
theorem Slot.settle_session (sl : Slot) (codec : Codec) (cap : Nat) (input : List Byte) :
    (sl.settle (sessionOf codec cap input)).wf ∧ (sl.settle (sessionOf codec cap input)).phase ≠ .running := by
  cases hr : sessionOf codec cap input with
  | ok r => exact ⟨sl.succeed_wf r, by simp [Slot.settle, Slot.succeed]⟩
  | error r =>
    have hc : r.cause ≠ .none := by rcases sessionOf_cause hr with h | h | h | h <;> simp [h]
    exact ⟨sl.fail_wf hc, by simp [Slot.settle, Slot.fail]⟩

theorem State.runWorkers_slots_map (codec : Codec) (s : State) : (s.runWorkers codec).slots =
    s.slots.map fun sl => sl.settle (sessionOf codec s.params.dictCapacity sl.input) := by
  rw [State.runWorkers_slots, List.zipWith_map_right, List.zipWith_self]

theorem Sound.runWorkers {s : State} (h : Sound s) (codec : Codec) : Sound (s.runWorkers codec) := by
  have hsettled : ∀ x ∈ (s.runWorkers codec).slots, x.wf ∧ x.phase ≠ .running := by
    rw [State.runWorkers_slots_map]
    intro x hx
    obtain ⟨sl, -, rfl⟩ := List.mem_map.1 hx
    exact sl.settle_session ..
  have hidle : runningCount (s.runWorkers codec).slots = 0 :=
    List.countP_eq_zero.2 fun x hx => by simp [(hsettled x hx).2]
  exact {
    legal := by simpa using h.legal
    memSorted := by simpa using h.memSorted
    memBelow := by simpa using h.memBelow
    progress := State.runWorkers_progress_le codec h.progress
    slotCount := by simpa [State.runWorkers_slots_map] using h.slotCount
    engines := by rw [hidle]; exact Nat.zero_le _
    slotsWf := fun x hx => (hsettled x hx).1 }

/-- A command run at once is its first step alone where that ends the job, else the workers' run and the last step between. -/
theorem exec_cases {i : Instr} {s : State} {L : Latch} (hi : i.wf = true) (hl : s.latch = some L) :
    (∃ t, exec i s = .next t ∧ FirstMove i L s t) ∨
    ∃ t u codec, exec i s = .next u ∧ FirstMove i L s t ∧ t.params = s.params ∧ ArgsPass s L (usesExt i) ∧
      Ending (t.runWorkers codec) L u := by
  have hf := firstStep_move i hi L s
  rw [exec_eq i s L hl]
  cases hc : codecOf i with
  | none => exact .inl ⟨_, rfl, hf⟩
  | some codec =>
    dsimp only
    split
    next => exact .inl ⟨_, rfl, hf⟩
    next hn =>
      have hlast := lastStep_ending i L ((firstStep i L s).runWorkers codec) (by simp [hc])
      generalize firstStep i L s = t at hf hn hlast ⊢
      have hf' := hf
      cases hf with
      | complete => exact absurd ⟨rfl, rfl⟩ hn
      | fail r _ => exact absurd ⟨by simp, by simp⟩ hn
      | deliver out regs _ ha =>
        obtain ⟨hd, -⟩ := s.deliver_frame L out regs
        exact absurd ⟨hd.phase, hd.latch⟩ hn
      | ready chunks staged _ _ ha => exact .inr ⟨_, _, codec, rfl, hf', rfl, ha, hlast⟩

theorem Inv.exec {s t : State} {L : Latch} {i : Instr} (h : Inv s) (hj : JustStarted s L) (hd : decode L.cmd = .ok i)
    (he : exec i s = .next t) : Inv t := by
  rcases exec_cases (decode_wf hd) hj.latch with ⟨t', he', hf⟩ | ⟨u, t', codec, he', hf, hparams, ha, hend⟩
  all_goals
    obtain rfl : t' = t := Host.Outcome.next.inj (he'.symm.trans he)
    have hu := hf.inv h hj.phase hj.stage hj.latch hd
  · exact hu
  · exact hend.inv (hu.sound.runWorkers codec) (by simpa [hparams] using ha.dstValid)

theorem Inv.runCommand {s t : State} (h : Inv s) (v : Word) (hr : runCommand v s = .next t) : Inv t := by
  have hstart : Inv (s.startJob v) := h.sound.startJob_inv v
  unfold Machine.runCommand at hr
  split at hr
  next i hd => exact hstart.exec (s.startJob_justStarted v) hd hr
  next =>
    cases hr
    exact hstart.sound.jobFail_inv _

/-! ### The host and the turns -/

theorem CsrEffect.inv {s t : State} {v : Word} (h : Inv s) (he : CsrEffect s v t) : Inv t := by
  cases he with
  | none => exact h
  | reset => exact h.softReset
  | status =>
    refine h.setStatus _ ?_ ?_ ?_ <;>
      exact fun hs => by simp [Status.clearOnes, hs]
  | irqEn => exact { h with }
  | overrun => exact h.setStatus _ id id id
  | start => exact h.sound.startJob_inv v
  | args hp a => exact { h with }

theorem Inv.hostMemWrite {s t : State} (h : Inv s) (a : Nat) (bytes : List Byte) (hs : s.hostMemWrite a bytes = .next t) :
    Inv t := by
  unfold State.hostMemWrite at hs
  split at hs
  next => cases hs
  next hn =>
    cases hs
    have hb := Memory.below_writeBytes s.mem a bytes s.params.memSize h.memBelow (by omega)
    exact { h with
      memSorted := Memory.wf_writeBytes _ _ _ h.memSorted
      memBelow := hb }

theorem Inv.hostMemRead {s t : State} (h : Inv s) (a : Nat) (hs : s.hostMemRead a = .next t) : Inv t := by
  unfold State.hostMemRead at hs
  split_ifs at hs <;> cases hs
  · exact { h with }
  · exact { h with }

theorem Inv.hostStep {s t : State} (h : Inv s) (a : HostAccess) (hs : s.hostStep a = .next t) : Inv t := by
  cases a with
  | csrWrite size offset v =>
    simp only [State.hostStep] at hs
    split at hs
    next => cases hs
    next =>
      cases hs
      exact (s.csrWrite_effect v (csrAt offset)).inv h
  | csrRead size offset =>
    simp only [State.hostStep] at hs
    split at hs
    next => cases hs
    next =>
      cases hs
      exact { h with }
  | memWrite a bytes => exact h.hostMemWrite a bytes hs
  | memRead a => exact h.hostMemRead a hs

theorem Inv.runTurn {s t : State} (h : Inv s) (v : Word) (hr : runTurn v s = .next t) : Inv t := by
  unfold Machine.runTurn at hr
  split at hr
  next =>
    cases hr
    exact ((s.csrWrite_effect v .cmd).inv h).setAgenda _
  next => exact h.runCommand v hr

theorem Inv.waitTurn {s : State} (h : Inv s) : Inv (waitTurn s) := by
  unfold Machine.waitTurn
  split
  · exact h
  · exact h.engineStep.setAgenda _

theorem Inv.turn {s t : State} (h : Inv s) (x : Turn) (hx : turn x s = .next t) : Inv t := by
  cases x with
  | host a => exact h.hostStep a hx
  | sequencer => cases hx; exact h.sequencerStep
  | worker i => cases hx; exact h.workerTurn i
  | run v => exact h.runTurn v hx
  | wait => cases hx; exact h.waitTurn

/-- Settles O56: each turn, and the engine where the agenda names nobody, keeps every clause of the invariant. -/
theorem stepKeepsTheInvariant : Obligations.StepKeepsTheInvariant := by
  intro s t h hs
  cases ha : s.agenda with
  | nil =>
    rw [step_of_agenda_nil ha] at hs
    cases hs
    exact h.engineStep
  | cons x rest =>
    rw [step_of_agenda ha] at hs
    exact (h.setAgenda rest).turn x hs

end Sys2Proof.Machine
end

section
/-! PROOF. The CSR window: which register stands at an offset, what a host write to it stores or ignores, and what a host reads there after a
write or a reset. The registers a host write can change are STATUS, IRQ_EN, CTRL, CMD and the seven arguments; `Csr.isArg` and
`Csr.isReadOnly` name the two large groups once. -/

namespace Sys2Proof.Machine

/-! ### The map of offsets (R32) -/

/-- SRC_ADDR to NBITS_IN (R43 to R49). -/
def Csr.isArg : Csr → Bool
  | .srcAddr | .srcLen | .dstAddr | .dstCap | .extAddr | .extLen | .nbitsIn => true
  | _ => false

/-- The registers that a host write never changes (R280). -/
def Csr.isReadOnly : Csr → Bool
  | .ctrl | .status | .irqEn | .cmd => false
  | c => !c.isArg

theorem csrAt_of_reserved {off : Nat} (h4 : off % 4 = 0) (h : off < 4096)
    (hr : (0x064 ≤ off ∧ off < 0x400) ∨ off = 0x7FC ∨ 0xBFC ≤ off) : csrAt off = .reserved := by
  rcases csrAt_cases off h4 h with ⟨k, hk, -⟩ | ⟨-, h⟩ | ⟨i, hi, -⟩ | ⟨i, hi, -⟩
  · omega
  · exact h
  · omega
  · omega

theorem csrAt_chunkCause (i : Nat) (h : i < 255) : csrAt (0x400 + 4 * i) = .chunkCause ⟨i, h⟩ := by
  rcases csrAt_cases (0x400 + 4 * i) (by omega) (by omega) with ⟨k, hk, -⟩ | ⟨hr, -⟩ | ⟨j, hj, hc⟩ | ⟨j, hj, -⟩
  · omega
  · omega
  · rw [hc, Csr.chunkCause.injEq, Fin.ext_iff]
    simp only
    omega
  · omega

theorem csrAt_chunkSize (i : Nat) (h : i < 255) : csrAt (0x800 + 4 * i) = .chunkSize ⟨i, h⟩ := by
  rcases csrAt_cases (0x800 + 4 * i) (by omega) (by omega) with ⟨k, hk, -⟩ | ⟨hr, -⟩ | ⟨j, hj, -⟩ | ⟨j, hj, hc⟩
  · omega
  · omega
  · omega
  · rw [hc, Csr.chunkSize.injEq, Fin.ext_iff]
    simp only
    omega

/-- A register that is not reserved stands at one offset. -/
theorem offset_csrAt {off : Nat} (h4 : off % 4 = 0) (h : off < 4096) (hr : csrAt off ≠ .reserved) :
    (csrAt off).offset = off := by
  have named : ∀ k : Fin 25, (namedCsrs.getD k .reserved).offset = 4 * k := by decide
  rcases csrAt_cases off h4 h with ⟨k, hk, hc⟩ | ⟨-, hc⟩ | ⟨i, hi, hc⟩ | ⟨i, hi, hc⟩
  · rw [hc, named, hk]
  · exact absurd hc hr
  · rw [hc, hi]; rfl
  · rw [hc, hi]; rfl

theorem csrAt_injective {o off : Nat} (ho4 : o % 4 = 0) (ho : o < 4096) (h4 : off % 4 = 0) (h : off < 4096)
    (hr : csrAt off ≠ .reserved) (heq : csrAt o = csrAt off) : o = off := by
  rw [← offset_csrAt ho4 ho (heq ▸ hr), heq, offset_csrAt h4 h hr]

theorem csrAt_isArg {off : Nat} (h4 : off % 4 = 0) (hlo : 0x014 ≤ off) (hhi : off ≤ 0x02C) : (csrAt off).isArg = true := by
  have named : ∀ k : Fin 25, 5 ≤ k.val → k.val ≤ 11 → (namedCsrs.getD k .reserved).isArg = true := by decide
  rcases csrAt_cases off h4 (by omega) with ⟨k, hk, hc⟩ | ⟨hr, -⟩ | ⟨i, hi, -⟩ | ⟨i, hi, -⟩
  · exact hc ▸ named k (by omega) (by omega)
  · omega
  · omega
  · omega

theorem csrAt_isReadOnly {off : Nat} (h4 : off % 4 = 0) (h : off < 4096) (hoff : off = 0 ∨ 0x030 ≤ off) :
    (csrAt off).isReadOnly = true := by
  have named : ∀ k : Fin 25, k.val = 0 ∨ 12 ≤ k.val → (namedCsrs.getD k .reserved).isReadOnly = true := by decide
  rcases csrAt_cases off h4 h with ⟨k, hk, hc⟩ | ⟨-, hc⟩ | ⟨i, -, hc⟩ | ⟨i, -, hc⟩ <;> rw [hc]
  · exact named k (by omega)
  · rfl
  · rfl
  · rfl

/-! ### What a write to a register does (R280) -/

theorem State.csrWrite_readOnly (s : State) (v : Word) {c : Csr} (h : c.isReadOnly = true) : s.csrWrite v c = s := by
  cases c with
  | ctrl | status | irqEn | cmd => cases h
  | srcAddr | srcLen | dstAddr | dstCap | extAddr | extLen | nbitsIn => cases h
  | _ => rfl

/-- The argument registers with the word in the named one. -/
def Args.set (a : Args) (v : Word) : Csr → Args
  | .srcAddr => { a with srcAddr := v }
  | .srcLen => { a with srcLen := v }
  | .dstAddr => { a with dstAddr := v }
  | .dstCap => { a with dstCap := v }
  | .extAddr => { a with extAddr := v }
  | .extLen => { a with extLen := v }
  | .nbitsIn => { a with nbitsIn := v }
  | _ => a

theorem State.csrWrite_arg (s : State) (v : Word) {c : Csr} (h : c.isArg = true) :
    s.csrWrite v c = s.writeArgs fun a => a.set v c := by
  cases c with
  | srcAddr | srcLen | dstAddr | dstCap | extAddr | extLen | nbitsIn => rfl
  | _ => cases h

theorem State.writeArgs_of_idle {s : State} (hp : s.phase = .idle) (f : Args → Args) :
    s.writeArgs f = { s with args := f s.args } := by
  simp [State.writeArgs, State.busy, hp]

theorem State.writeArgs_of_running {s : State} (hp : s.phase = .running) (f : Args → Args) : s.writeArgs f = s := by
  simp [State.writeArgs, State.busy, hp]

/-- The turn of the host that writes a register. -/
theorem step_csrWrite {s : State} {rest : List Turn} {v : Word} {off : Nat} (h4 : off % 4 = 0) (h : off < 4096)
    (ha : s.agenda = .host (.csrWrite .word off v) :: rest) :
    step s = .next (({ s with agenda := rest } : State).csrWrite v (csrAt off)) :=
  (step_of_agenda ha).trans (State.hostStep_csrWrite _ off v h4 h)

/-- The turn of the host that reads a register. -/
theorem step_csrRead {s : State} {off : Nat} {w : Word} (hw : s.csrRead (csrAt off) = w)
    (h : off % 4 = 0 ∧ off < 4096 := by decide) (rest : List Turn) (ha : s.agenda = .host (.csrRead .word off) :: rest) :
    step s = .next { s with agenda := rest, hostRead := some w } := by
  rw [step_of_agenda ha, ← hw]
  exact State.hostStep_csrRead _ off h.1 h.2

/-! ### What is read after a write to an argument register -/

/-- The word of an argument register. -/
def Args.get (a : Args) : Csr → Option Word
  | .srcAddr => some a.srcAddr
  | .srcLen => some a.srcLen
  | .dstAddr => some a.dstAddr
  | .dstCap => some a.dstCap
  | .extAddr => some a.extAddr
  | .extLen => some a.extLen
  | .nbitsIn => some a.nbitsIn
  | _ => none

/-- A register that is no argument reads the same whatever the arguments are. -/
theorem State.csrRead_setArgs (s : State) (a : Args) (c : Csr) :
    State.csrRead { s with args := a } c = (a.get c).getD (s.csrRead c) := by
  cases c <;> rfl

theorem State.get_args (s : State) (c : Csr) : (s.args.get c).getD (s.csrRead c) = s.csrRead c := by
  cases c <;> rfl

theorem Args.get_set_same (a : Args) (v : Word) {c : Csr} (h : c.isArg = true) : (a.set v c).get c = some v := by
  cases c with
  | srcAddr | srcLen | dstAddr | dstCap | extAddr | extLen | nbitsIn => rfl
  | _ => cases h

theorem Args.get_set_other (a : Args) (v : Word) {c d : Csr} (h : d ≠ c) : (a.set v c).get d = a.get d := by
  cases c with
  | srcAddr | srcLen | dstAddr | dstCap | extAddr | extLen | nbitsIn => cases d <;> first | rfl | exact absurd rfl h
  | _ => rfl

/-! ### Words of flags -/

/-- The five flags of STATUS stand in bits 0 to 4, and the other bits read 0 (R35). -/
theorem getLsbD_fiveFlags (a b c d e : Bool) :
    let w := BitVec.ofNat 32 (a.toNat + 2 * b.toNat + 4 * c.toNat + 8 * d.toNat + 16 * e.toNat)
    w.getLsbD 0 = a ∧ w.getLsbD 1 = b ∧ w.getLsbD 2 = c ∧ w.getLsbD 3 = d ∧ w.getLsbD 4 = e ∧
      ∀ k, 5 ≤ k → w.getLsbD k = false := by
  have low : ∀ a b c d e : Bool,
      let w := BitVec.ofNat 32 (a.toNat + 2 * b.toNat + 4 * c.toNat + 8 * d.toNat + 16 * e.toNat)
      w.getLsbD 0 = a ∧ w.getLsbD 1 = b ∧ w.getLsbD 2 = c ∧ w.getLsbD 3 = d ∧ w.getLsbD 4 = e ∧ w.toNat < 2 ^ 5 := by
    decide
  obtain ⟨h0, h1, h2, h3, h4, hlt⟩ := low a b c d e
  refine ⟨h0, h1, h2, h3, h4, fun k hk => ?_⟩
  exact Nat.testBit_lt_two_pow (hlt.trans_le (Nat.pow_le_pow_right (by decide) hk))

/-- IRQ_EN holds the two low bits of what is written (R41). -/
theorem IrqEnable.word_ofWord (v : Word) : (IrqEnable.ofWord v).word = v &&& 3 := by
  apply BitVec.eq_of_toNat_eq
  have hand : (v &&& 3).toNat = v.toNat % 4 := Nat.and_two_pow_sub_one_eq_mod v.toNat 2
  rw [hand]
  simp only [IrqEnable.word, IrqEnable.ofWord, BitVec.toNat_ofNat, BitVec.getLsbD, Nat.toNat_testBit]
  omega

/-! ### Registers after a reset (R351) -/

/-- A state whose registers all hold their reset values reads as after reset. -/
theorem State.csrRead_of_resetValues {t : State} (hstatus : t.status = {}) (hirqEn : t.irqEn = {}) (hcmd : t.cmd = 0)
    (hargs : t.args = {}) (hres : t.res = {}) (herrs : t.errs = {}) (hphase : t.phase = .idle) (c : Csr) :
    t.csrRead c = if c = .id then 0x4C5A5701 else 0 := by
  cases c with
  | status => simp only [State.csrRead, State.statusWord, State.busy, hstatus, hphase]; rfl
  | _ => simp [State.csrRead, IrqEnable.word, Cause.code, idWord, hirqEn, hcmd, hargs, hres, herrs]

/-! ### The obligations -/

/-- Settles O2: a reserved offset and ID are registers that no write changes, and what they read is a constant. -/
theorem reservedOffsetsReadZeroAndIgnoreWrites : Obligations.ReservedOffsetsReadZeroAndIgnoreWrites := by
  intro s v off h4 h
  refine ⟨fun hr => ?_, ?_, ?_⟩
  · rw [csrAt_of_reserved h4 h hr]
    exact ⟨rfl, rfl⟩
  · rintro rfl
    exact ⟨rfl, rfl⟩
  · rintro rfl
    rfl

/-- Settles O3: while IDLE the write puts the word in its argument register, and another offset is another register. -/
theorem argumentWriteStoresTheWord : Obligations.ArgumentWriteStoresTheWord := by
  intro s rest v off hp h4 hlo hhi ha
  have harg := csrAt_isArg h4 hlo hhi
  have hstep : step s = .next { s with agenda := rest, args := s.args.set v (csrAt off) } := by
    rw [step_csrWrite h4 (by omega) ha, State.csrWrite_arg _ v harg, State.writeArgs_of_idle (by exact hp)]
  refine ⟨_, hstep, ?_, fun o ho4 ho hne => ?_, rfl, ?_⟩
  · rw [State.csrRead_setArgs { s with agenda := rest }, Args.get_set_same _ v harg, Option.getD_some]
  · have hother : csrAt o ≠ csrAt off := fun heq =>
      hne (csrAt_injective ho4 ho h4 (by omega) (by intro hr; rw [hr] at harg; cases harg) heq)
    rw [State.csrRead_setArgs { s with agenda := rest }, Args.get_set_other _ v hother]
    exact s.get_args (csrAt o)
  · refine ⟨?_, ?_, ?_, ?_, ?_, ?_, ?_⟩ <;> rintro rfl <;> rfl

/-- Settles O4: the offsets are those of read-only and reserved registers, and, while BUSY, of the arguments. -/
theorem ignoredCsrWrites : Obligations.IgnoredCsrWrites := by
  intro s rest v off h4 h hoff ha
  rw [step_csrWrite h4 h ha]
  by_cases hro : off = 0 ∨ 0x030 ≤ off
  · rw [State.csrWrite_readOnly _ v (csrAt_isReadOnly h4 h hro)]
  · obtain ⟨hp, hlo⟩ : s.phase = .running ∧ 0x014 ≤ off := by tauto
    rw [State.csrWrite_arg _ v (csrAt_isArg h4 hlo (by omega)), State.writeArgs_of_running (by exact hp)]

/-- Settles O5: the bits of STATUS are its flags, and the write clears the flags whose bit is 1. -/
theorem statusIsWriteOneToClear : Obligations.StatusIsWriteOneToClear := by
  refine ⟨fun _ => rfl, fun s => getLsbD_fiveFlags .., fun s rest v ha => ?_⟩
  refine ⟨_, step_csrWrite rfl (by decide) ha, ?_, ?_, rfl⟩
  · obtain ⟨-, hdone, herr, hfail, hover, -⟩ := getLsbD_fiveFlags s.busy s.status.done s.status.err s.status.jobFail s.status.overrun
    obtain ⟨-, hdone', herr', hfail', hover', -⟩ := getLsbD_fiveFlags s.busy (s.status.done && !v.getLsbD 1)
      (s.status.err && !v.getLsbD 2) (s.status.jobFail && !v.getLsbD 3) (s.status.overrun && !v.getLsbD 4)
    intro k hlo hhi
    interval_cases k
    · exact hdone'.trans (congrArg (· && _) hdone.symm)
    · exact herr'.trans (congrArg (· && _) herr.symm)
    · exact hfail'.trans (congrArg (· && _) hfail.symm)
    · exact hover'.trans (congrArg (· && _) hover.symm)
  · exact (getLsbD_fiveFlags ..).1.trans (getLsbD_fiveFlags ..).1.symm

/-- Settles O6: the write stores the two enables, which are the two low bits of the word. -/
theorem irqEnableKeepsItsTwoBits : Obligations.IrqEnableKeepsItsTwoBits := by
  refine ⟨fun _ => rfl, fun s rest v ha => ?_⟩
  exact ⟨_, step_csrWrite rfl (by decide) ha, IrqEnable.word_ofWord v, rfl⟩

/-- Settles O9: a read stores the register's word in `hostRead` and does nothing else; each offset's word follows from the map. -/
theorem csrReadHasNoSideEffect : Obligations.CsrReadHasNoSideEffect := by
  intro s reads code
  have hcode (c : Cause) : c.code.setWidth 32 = BitVec.ofNat 32 (code c) := by cases c <;> rfl
  have hnat {w : Nat} (x : BitVec w) : x.setWidth 32 = BitVec.ofNat 32 x.toNat := (BitVec.ofNat_toNat ..).symm
  refine ⟨fun off h4 h => step_csrRead rfl ⟨h4, h⟩, ?_⟩
  refine ⟨step_csrRead rfl, step_csrRead rfl, step_csrRead rfl, step_csrRead rfl, step_csrRead rfl, ?_⟩
  refine ⟨step_csrRead rfl, step_csrRead rfl, step_csrRead rfl, step_csrRead rfl, step_csrRead rfl, step_csrRead rfl,
    step_csrRead rfl, ?_⟩
  refine ⟨step_csrRead rfl, step_csrRead rfl, step_csrRead rfl, step_csrRead rfl, step_csrRead (hnat _),
    step_csrRead (hnat _), ?_⟩
  refine ⟨step_csrRead (hcode _), step_csrRead rfl, step_csrRead rfl, step_csrRead rfl, step_csrRead (hcode _), ?_⟩
  refine ⟨step_csrRead (hnat _), step_csrRead (hnat _), fun i h => ?_, fun i h => ?_, fun off h4 h hr => ?_⟩
  · exact step_csrRead (by rw [csrAt_chunkCause i h]; exact hcode _) (by omega)
  · exact step_csrRead (by rw [csrAt_chunkSize i h]; rfl) (by omega)
  · exact step_csrRead (by rw [csrAt_of_reserved h4 h hr]; rfl) ⟨h4, h⟩

/-- Settles O10: what `softReset_fields` and `softReset_readByte` say of the state that the CTRL write leaves. -/
theorem softResetRestoresResetState : Obligations.SoftResetRestoresResetState := by
  intro s rest v ha
  have hstep : step s = .next (if v.getLsbD 0 then State.softReset { s with agenda := rest } else { s with agenda := rest }) :=
    step_csrWrite rfl (by decide) ha
  refine ⟨rfl, fun hv => by rwa [hv] at hstep, fun hv => ⟨State.softReset { s with agenda := rest }, by rwa [hv] at hstep, ?_⟩⟩
  obtain ⟨hparams, hstatus, hirqEn, hcmd, hargs, hres, herrs, hphase, hlatch, honce, hslots, -⟩ :=
    State.softReset_fields { s with agenda := rest }
  refine ⟨fun off h h4 => ?_, hphase, hlatch, honce, hslots, by simp [State.irq, hstatus], hparams, fun a hout => ?_⟩
  · rw [State.csrRead_of_resetValues hstatus hirqEn hcmd hargs hres herrs hphase]
    have hid : csrAt off = .id ↔ off = 0 :=
      ⟨fun hc => csrAt_injective h4 h (off := 0) rfl (by decide) (by decide) hc, by rintro rfl; rfl⟩
    simp only [hid]
  · exact State.softReset_readByte { s with agenda := rest } a hout

/-- Settles O20: every command but NOP takes its arguments from the latch. -/
theorem emptyLatchFaults : Obligations.EmptyLatchFaults := fun _ _ hi h => exec_of_latch_none hi h

end Sys2Proof.Machine
end

section
/-! PROOF. What one step does to a running job: `RunningStep` has three cases, a move of the job (`JobMove`), a soft reset, and a host
access or a dropped command, which leaves every record of the job. The capture of the first error and the growth of PROGRESS are read
off the three. -/

namespace Sys2Proof.Machine

/-! ### One step while a job runs -/

/-- A write to CTRL with bit 0 = 1 resets; any other write while BUSY changes STATUS and IRQ_EN at most, and sets no ERR. -/
theorem State.csrWrite_of_running {s : State} (hp : s.phase = .running) (v : Word) (c : Csr) :
    (c = .ctrl ∧ v.getLsbD 0 = true ∧ s.csrWrite v c = s.softReset) ∨
    ∃ st e, s.csrWrite v c = { s with status := st, irqEn := e } ∧ (s.status.err = false → st.err = false) := by
  have same : ∃ st e, s = { s with status := st, irqEn := e } ∧ (s.status.err = false → st.err = false) :=
    ⟨s.status, s.irqEn, rfl, id⟩
  cases c with
  | ctrl =>
    by_cases hv : v.getLsbD 0 = true
    · exact .inl ⟨rfl, hv, if_pos hv⟩
    · rw [show s.csrWrite v .ctrl = s from if_neg hv]
      exact .inr same
  | status => exact .inr ⟨s.status.clearOnes v, s.irqEn, rfl, fun h => by simp [Status.clearOnes, h]⟩
  | irqEn => exact .inr ⟨s.status, IrqEnable.ofWord v, rfl, id⟩
  | cmd => exact .inr ⟨{ s.status with overrun := true }, s.irqEn, by simp [State.csrWrite, State.writeCmd, State.busy, hp], id⟩
  | srcAddr | srcLen | dstAddr | dstCap | extAddr | extLen | nbitsIn =>
    rw [State.csrWrite_arg s v rfl, State.writeArgs_of_running hp]
    exact .inr same
  | _ => exact .inr same

/-- Everything a step can do to a running job. -/
inductive RunningStep (s : State) : State → Prop where
  /-- The sequencer, a worker or the engine moves the job, whatever turns are then to come. -/
  | move (turns : List Turn) (L : Latch) (t : State) (h : JobMove s L t) : RunningStep s { t with agenda := turns }
  /-- A soft reset (R350). -/
  | reset (v : Word) (rest : List Turn) (ha : s.agenda = .host (.csrWrite .word 0x004 v) :: rest) (hv : v.getLsbD 0 = true) :
      RunningStep s (State.softReset { s with agenda := rest })
  /-- Any other access of the host: the job and its records stay. -/
  | host (st : Status) (e : IrqEnable) (tainted : Bool) (m : Memory) (turns : List Turn) (read : Option Word) (n : Nat)
      (herr : s.status.err = false → st.err = false) :
      RunningStep s { s with
        status := st, irqEn := e, tainted := tainted, mem := m, agenda := turns, hostRead := read, draws := n }

/-- The engine moves the job, or, where the latch holds no value, lets the turn pass but for a draw. -/
theorem State.sequencerStep_jobMove {s : State} (hp : s.phase = .running) : ∃ L, JobMove s L s.sequencerStep := by
  cases hl : s.latch with
  | some L => exact ⟨L, s.sequencerStep_move L hp hl⟩
  | none =>
    have hstay : s.sequencerStep = s := by simp [State.sequencerStep, hl]
    exact ⟨{ cmd := 0, args := {} }, by rw [hstay]; exact .stay s.draws⟩

theorem State.engineStep_jobMove {s : State} (hp : s.phase = .running) : ∃ L, JobMove s L s.engineStep := by
  unfold State.engineStep
  split
  next h => exact absurd (hp.symm.trans h) (by simp)
  next => exact s.sequencerStep_jobMove hp
  next =>
    split
    next => exact s.sequencerStep_jobMove hp
    next => exact ⟨{ cmd := 0, args := {} }, s.workerTurn_move _ s.draws _⟩
    next => exact ⟨{ cmd := 0, args := {} }, s.workerTurn_move _ _ _⟩

theorem RunningStep.of_sequencerStep {s : State} (hp : s.phase = .running) (turns : List Turn) :
    RunningStep s { s.sequencerStep with agenda := turns } :=
  have ⟨L, h⟩ := s.sequencerStep_jobMove hp
  .move turns L _ h

theorem RunningStep.of_engineStep {s : State} (hp : s.phase = .running) (turns : List Turn) :
    RunningStep s { s.engineStep with agenda := turns } :=
  have ⟨L, h⟩ := s.engineStep_jobMove hp
  .move turns L _ h

theorem RunningStep.of_hostStep {s t : State} {a : HostAccess} {rest : List Turn} (hp : s.phase = .running)
    (ha : s.agenda = .host a :: rest) (h : State.hostStep { s with agenda := rest } a = .next t) : RunningStep s t := by
  cases a with
  | csrWrite size offset v =>
    simp only [State.hostStep] at h
    split at h
    next => cases h
    next hr =>
      cases h
      obtain ⟨rfl, h4, hlt⟩ := csrRefusal_eq_none.1 hr
      rcases State.csrWrite_of_running (s := { s with agenda := rest }) hp v (csrAt offset) with ⟨hc, hv, h⟩ | ⟨st, e, h, herr⟩
      · obtain rfl : offset = 4 := csrAt_injective h4 hlt rfl (by decide) (by decide) hc
        rw [h]
        exact .reset v rest ha hv
      · rw [h]
        exact .host st e _ _ rest _ _ herr
  | csrRead size offset =>
    simp only [State.hostStep] at h
    split at h
    next => cases h
    next =>
      cases h
      exact .host _ _ _ _ rest _ _ id
  | memWrite a bytes =>
    simp only [State.hostStep, State.hostMemWrite] at h
    split at h
    next => cases h
    next =>
      cases h
      exact .host _ _ _ _ rest _ _ id
  | memRead a =>
    simp only [State.hostStep, State.hostMemRead] at h
    split_ifs at h <;> cases h
    · exact .host _ _ _ _ rest _ _ id
    · exact .host _ _ _ _ rest _ _ id

/-- A step in a running job is one of the three. -/
theorem step_runningStep {s t : State} (hp : s.phase = .running) (h : step s = .next t) : RunningStep s t := by
  cases ha : s.agenda with
  | nil =>
    rw [step_of_agenda_nil ha] at h
    cases h
    exact .of_engineStep hp s.engineStep.agenda
  | cons x rest =>
    rw [step_of_agenda ha] at h
    cases x with
    | host a => exact .of_hostStep hp ha h
    | sequencer =>
      cases h
      rw [State.sequencerStep_setAgenda]
      exact .of_sequencerStep hp rest
    | worker i =>
      cases h
      rw [State.workerTurn_setAgenda]
      exact .move rest { cmd := 0, args := {} } _ (s.workerTurn_move _ s.draws i)
    | run v =>
      have hb : State.busy { s with agenda := rest } = true := by simp [State.busy, hp]
      simp only [turn, runTurn, State.writeCmd, hb, if_true] at h
      cases h
      exact .host _ _ _ _ _ _ _ id
    | wait =>
      simp only [turn, waitTurn] at h
      split at h
      next =>
        cases h
        exact .host _ _ _ _ rest _ _ id
      next =>
        cases h
        rw [State.engineStep_setAgenda]
        exact .of_engineStep hp _

/-! ### The error registers after the first capture (R313, R316) -/

/-- A job that has captured keeps what it captured: ERR stays, of the error registers only JOB_CAUSE may change, and not while the job
runs on. -/
structure CaptureKept (s t : State) : Prop where
  err : t.status.err = s.status.err
  once : t.errOnce = true
  errs : t.errs = { s.errs with jobCause := t.errs.jobCause }
  running : t.phase = .running → t.errs = s.errs

theorem State.capture_of_once {s : State} (h : s.errOnce = true) (chunk : Word) (r : Raise) : s.capture chunk r = s := by
  simp [State.capture, h]

theorem CaptureKept.of_eq {s t : State} (h : s.errOnce = true) (herr : t.status.err = s.status.err) (honce : t.errOnce = s.errOnce)
    (herrs : t.errs = s.errs) : CaptureKept s t :=
  ⟨herr, honce.trans h, by rw [herrs], fun _ => herrs⟩

theorem CaptureKept.jobFail {s : State} (h : s.errOnce = true) (r : Raise) : CaptureKept s (s.jobFail r) := by
  constructor <;> simp [State.capture_of_once h]

theorem CaptureKept.deliver {s : State} (h : s.errOnce = true) (L : Latch) (out : List Byte) (regs : Results → Results) :
    CaptureKept s (s.deliver L out regs) := by
  by_cases hlen : L.dst.len < out.length
  · rw [s.deliver_overflow L out regs hlen]
    constructor <;> simp [State.capture_of_once h]
  · obtain ⟨-, -, -, -, -, herrs, hstatus, honce, -⟩ := s.deliver_fits L out regs (by omega)
    exact .of_eq h (by rw [hstatus]) honce herrs

theorem FirstMove.captureKept {s t : State} {i : Instr} {L : Latch} (h : s.errOnce = true) (hm : FirstMove i L s t) :
    CaptureKept s t := by
  cases hm with
  | complete => exact .of_eq h rfl rfl rfl
  | fail r _ => exact .jobFail h r
  | deliver out regs => exact .deliver h L out regs
  | ready chunks staged => exact .of_eq h rfl rfl rfl

theorem Ending.captureKept {s t : State} {L : Latch} (h : s.errOnce = true) (he : Ending s L t) : CaptureKept s t := by
  cases he with
  | complete => exact .of_eq h rfl rfl rfl
  | fail r _ => exact .jobFail h r
  | deliver out regs => exact .deliver h L out regs

theorem WorkerMove.captureKept {s t : State} {i : Nat} (h : s.errOnce = true) (hm : WorkerMove s i t) : CaptureKept s t := by
  cases hm with
  | pass => exact .of_eq h rfl rfl rfl
  | start => exact .of_eq h rfl rfl rfl
  | fail sl r =>
    unfold State.chunkFail
    rw [State.capture_of_once (by exact h)]
    exact .of_eq h rfl rfl rfl
  | ok => exact .of_eq h rfl rfl rfl
  | unit sl x y =>
    obtain ⟨p, n, ht, -⟩ := s.chunkUnit_cases i y.scan (y.units sl) y
    rw [ht]
    exact .of_eq h rfl rfl rfl

theorem JobMove.captureKept {s t : State} {L : Latch} (h : s.errOnce = true) (hu : s.tainted = false) (hm : JobMove s L t) :
    CaptureKept s t := by
  cases hm with
  | stay n => exact .of_eq h rfl rfl rfl
  | bad => exact .jobFail h _
  | first i t _ _ hf => exact hf.captureKept h
  | last t _ _ he => exact he.captureKept h
  | worker n i t _ hw =>
    have hk := WorkerMove.captureKept (s := { s with draws := n }) h hw
    exact ⟨hk.err, hk.once, hk.errs, hk.running⟩
  | scrambled t ht => exact absurd (hu.symm.trans ht) (by simp)

/-! ### The step at which a chunk fails (R311, R313) -/

/-- Slot `i` has failed in `t` and had not in `s`. -/
def FailsAt (s t : State) (i : Nat) (sl' : Slot) : Prop :=
  t.slots[i]? = some sl' ∧ sl'.phase = .failed ∧ ∃ sl, s.slots[i]? = some sl ∧ sl.phase ≠ .failed

theorem FailsAt.slots_ne {s t : State} {i : Nat} {sl' : Slot} (h : FailsAt s t i sl') : t.slots ≠ s.slots := by
  obtain ⟨ht, hf, sl, hs, hl⟩ := h
  intro heq
  obtain rfl : sl = sl' := Option.some.inj (hs.symm.trans (heq ▸ ht))
  exact hl hf

/-- Where one slot was changed, it is the slot that failed. -/
theorem FailsAt.of_modify {s t : State} {i j : Nat} {sl' : Slot} {f : Slot → Slot} (h : FailsAt s t i sl')
    (hslots : t.slots = s.slots.modify j f) : j = i ∧ ∃ sl, sl' = f sl := by
  obtain ⟨ht, hf, sl, hs, hl⟩ := h
  rw [hslots, getElem?_modify_slot, hs] at ht
  split at ht
  next hij => exact ⟨hij, sl, by simpa using ht.symm⟩
  next =>
    obtain rfl : sl = sl' := Option.some.inj ht
    exact absurd hf hl

/-- What the failure of chunk `i` records, where it is the first of its job. -/
structure FailureRecorded (t : State) (i : Nat) (sl' : Slot) : Prop where
  once : t.errOnce = true
  err : t.status.err = true
  cause : t.errs.cause = sl'.cause
  chunk : t.errs.chunk = BitVec.ofNat 32 i
  chunkCause : ∀ h : i < 255, t.res.chunkCause[i] = sl'.cause

theorem State.chunkFail_recorded {s : State} (h : s.errOnce = false) (i : Nat) (r : Raise) (sl : Slot) :
    FailureRecorded (s.chunkFail i r) i (sl.fail r) := by
  constructor <;> simp [State.chunkFail, State.capture, h, Slot.fail]

/-- Of a worker's moves only the raise of its session makes a chunk fail. -/
theorem WorkerMove.failureRecorded {s t : State} {j i : Nat} {sl' : Slot} (h : s.errOnce = false) (hm : WorkerMove s j t)
    (hf : FailsAt s t i sl') : FailureRecorded t i sl' := by
  have live {f : Slot → Slot} (hslots : t.slots = s.slots.modify j f) (hlive : ∀ sl, (f sl).phase ≠ .failed) :
      FailureRecorded t i sl' := by
    obtain ⟨-, sl, rfl⟩ := hf.of_modify hslots
    exact absurd hf.2.1 (hlive sl)
  cases hm with
  | pass => exact absurd rfl hf.slots_ne
  | start => exact live rfl (by simp)
  | fail sl r =>
    obtain ⟨rfl, x, rfl⟩ := hf.of_modify (s.chunkFail_slots j r)
    exact State.chunkFail_recorded h j r x
  | ok sl x r => exact live (f := fun sl => sl.succeed r) rfl (by simp [Slot.succeed])
  | unit sl x y =>
    obtain ⟨p, n, ht, -⟩ := s.chunkUnit_cases j y.scan (y.units sl) y
    exact live (f := Slot.runs y) (by rw [ht]) (by simp [Slot.runs])

theorem FirstMove.not_failsAt {s t : State} {i : Instr} {L : Latch} {k : Nat} {sl' : Slot} (hm : FirstMove i L s t) :
    ¬FailsAt s t k sl' := by
  cases hm with
  | complete => exact fun h => h.slots_ne rfl
  | fail r _ => exact fun h => h.slots_ne (s.jobFail_slots r)
  | deliver out regs => exact fun h => h.slots_ne (s.deliver_frame L out regs).2.2.2
  | ready chunks staged =>
    rintro ⟨ht, hf, -⟩
    simp [State.mem_ready_slots (List.mem_of_getElem? ht)] at hf

theorem JobMove.failureRecorded {s t : State} {L : Latch} {i : Nat} {sl' : Slot} (h : s.errOnce = false) (hu : s.tainted = false)
    (hm : JobMove s L t) (hf : FailsAt s t i sl') : FailureRecorded t i sl' := by
  cases hm with
  | stay n => exact absurd rfl hf.slots_ne
  | bad => exact absurd (s.jobFail_slots _) hf.slots_ne
  | first i t _ _ hm => exact absurd hf hm.not_failsAt
  | last t _ _ he => exact absurd he.frame.2.2.2 hf.slots_ne
  | worker n j t _ hw => exact WorkerMove.failureRecorded (s := { s with draws := n }) h hw hf
  | scrambled t ht => exact absurd (hu.symm.trans ht) (by simp)

/-- Settles O57: a job that has captured keeps its capture through every move, and the first failing chunk is captured by its own. -/
theorem errIsCapturedOncePerJob : Obligations.ErrIsCapturedOncePerJob := by
  intro s t hp hu hs
  constructor
  case left =>
    intro honce
    cases step_runningStep hp hs with
    | move turns L t hm =>
      have hk := hm.captureKept honce hu
      exact ⟨hk.err.trans, fun hrun => ⟨hk.running hrun, hk.once⟩, fun _ => hk.errs⟩
    | reset v rest ha hv =>
      obtain ⟨-, hstatus, -, -, -, -, -, hphase, -⟩ := State.softReset_fields { s with agenda := rest }
      refine ⟨fun _ => by rw [hstatus], fun hrun => by simp [hphase] at hrun, fun hno => ?_⟩
      exact absurd ((hno v rest ha).symm.trans hv) (by simp)
    | host st e tainted m turns read n herr => exact ⟨herr, fun _ => ⟨rfl, honce⟩, fun _ => rfl⟩
  case right =>
    intro honce i sl sl' hsl hsl' hlive hfailed
    have hf : FailsAt s t i sl' := ⟨hsl', hfailed, sl, hsl, hlive⟩
    cases step_runningStep hp hs with
    | move turns L t hm =>
      obtain ⟨h1, h2, h3, h4, h5⟩ := hm.failureRecorded honce hu hf
      exact ⟨h1, h2, h3, h4, h5⟩
    | reset v rest ha hv =>
      obtain ⟨-, -, -, -, -, -, -, -, -, -, hslots, -⟩ := State.softReset_fields { s with agenda := rest }
      simp [hslots] at hsl'
    | host => exact absurd rfl hf.slots_ne

/-! ### PROGRESS (R55, R200) -/

theorem Ending.progress_eq {s t : State} {L : Latch} (h : Ending s L t) : t.res.progress = s.res.progress := by
  cases h with
  | complete => rfl
  | fail r _ => simp
  | deliver out regs hw => exact s.deliver_progress L out hw

theorem FirstMove.progress_eq {s t : State} {i : Instr} {L : Latch} (h : FirstMove i L s t) :
    t.res.progress = s.res.progress := by
  cases h with
  | complete => rfl
  | fail r _ => simp
  | deliver out regs hw _ => exact s.deliver_progress L out hw
  | ready chunks staged => rfl

/-- A report of one unit more than the session that PROGRESS is not ahead of is no step back. -/
theorem progressAt_succ_ge {p : BitVec 17} {scan units : Nat} (h : p.toNat * units ≤ scan * 65536) (hlt : scan < units) :
    p.toNat ≤ (progressAt (scan + 1) units).toNat := by
  rw [progressAt_toNat _ _ hlt, Nat.le_div_iff_mul_le (by omega)]
  exact h.trans (Nat.mul_le_mul_right _ (Nat.le_succ scan))

/-- A worker's turn: only the progress-wired one writes PROGRESS, a report of its session or, at its end, 65536 (R233). -/
theorem WorkerMove.progress_le {s t : State} {i : Nat} (h : Inv s) (hp : s.phase = .running) (hm : WorkerMove s i t) :
    s.res.progress.toNat ≤ t.res.progress.toNat := by
  cases hm with
  | pass => exact le_refl _
  | start => exact le_refl _
  | fail sl r => simp
  | ok sl x r =>
    simp only [State.chunkOk]
    split
    · exact h.progress
    · exact le_refl _
  | unit sl x y hs hrun hx hscan hunits hlt =>
    obtain ⟨p, n, ht, rfl | ⟨hlast, -, rfl⟩⟩ := s.chunkUnit_cases i y.scan (y.units sl) y
    · rw [ht]
    · rw [ht, hscan, hunits]
      exact progressAt_succ_ge ((h.wired_last hp hs hlast).2 x hx) hlt

theorem JobMove.progress_le {s t : State} {L : Latch} (h : Inv s) (hp : s.phase = .running)
    (hu : t.phase = .idle → s.tainted = false) (hm : JobMove s L t) : s.res.progress.toNat ≤ t.res.progress.toNat := by
  cases hm with
  | stay n => exact le_refl _
  | bad => simp [State.badCommand]
  | first i t _ _ hf => rw [hf.progress_eq]
  | last t _ _ he => rw [he.progress_eq]
  | worker n i t _ hw => exact WorkerMove.progress_le (s := { s with draws := n }) (h.setDraws n) hp hw
  | scrambled t ht hidle =>
    have hend : (t.scramble L).phase = .idle := (t.scramble_frame L).2.2.1.trans hidle
    exact absurd ((hu hend).symm.trans ht) (by simp)

/-- Settles O58: no move of the job lowers PROGRESS, and the host does not write it. -/
theorem progressNeverDecreases : Obligations.ProgressNeverDecreases := by
  intro s t h hp hs hidle
  cases step_runningStep hp hs with
  | move turns L t hm =>
    have hu : t.phase = .idle → s.tainted = false := fun ht => (hidle ht).1
    exact (hm.progress_le h hp hu :)
  | reset v rest ha hv =>
    obtain ⟨-, -, -, -, -, -, -, hphase, -⟩ := State.softReset_fields { s with agenda := rest }
    exact absurd (((hidle hphase).2 v rest ha).symm.trans hv) (by simp)
  | host => exact le_refl _

end Sys2Proof.Machine
end

section
/-! PROOF. An output longer than DST_CAP. A command whose checks pass runs its workers and delivers the output of its rule
(`exec_of_checks`); `WorkersEnded` collects what the workers have recorded by then, and the job failure of the overflow keeps it. -/

namespace Sys2Proof.Machine

/-! ### What the workers of a command leave (R232 to R236, R311) -/

/-- The extension bytes that the first step of a command reads (R240). -/
def stagedOf (s : State) (L : Latch) : Instr → List Byte
  | .parEnc _ ext => if ext then s.readBuffer L.ext else []
  | _ => s.staged

/-- The state in which a command whose checks pass delivers its output: after its workers, where it has any. -/
def State.afterWorkers (s : State) (L : Latch) (i : Instr) : State :=
  match codecOf i with
  | none => s
  | some codec => (s.ready (chunksOf s L i) (stagedOf s L i)).runWorkers codec

theorem State.afterWorkers_of_codec {i : Instr} {codec : Codec} (hc : codecOf i = some codec) (s : State) (L : Latch) :
    s.afterWorkers L i = (s.ready (chunksOf s L i) (stagedOf s L i)).runWorkers codec := by
  simp [State.afterWorkers, hc]

theorem sessionsOf_of_codec {i : Instr} {codec : Codec} (hc : codecOf i = some codec) (s : State) (L : Latch) :
    sessionsOf s L i = (chunksOf s L i).map (sessionOf codec s.params.dictCapacity) := by
  unfold sessionsOf
  rw [hc]
  cases codec <;> rfl

/-- A failing session has a cause (R300). -/
theorem sessionsOf_error_cause {s : State} {L : Latch} {i : Instr} {r : Raise} (h : .error r ∈ sessionsOf s L i) :
    r.cause ≠ .none := by
  cases hc : codecOf i with
  | none => simp [sessionsOf, hc] at h
  | some codec =>
    rw [sessionsOf_of_codec hc] at h
    obtain ⟨chunk, -, hr⟩ := List.mem_map.1 h
    rcases sessionOf_cause hr with h | h | h | h <;> simp [h]

theorem Slot.settle_out {sl : Slot} (r : Except Raise CodecResult) : (sl.settle r).out = chunkOutput r := by
  cases r <;> rfl

/-- The slots' outputs are those of the sessions (R236). -/
theorem State.afterWorkers_outputs {i : Instr} (hc : (codecOf i).isSome = true) (s : State) (L : Latch) :
    (s.afterWorkers L i).slots.map Slot.out = (sessionsOf s L i).map chunkOutput := by
  obtain ⟨codec, hc⟩ := Option.isSome_iff_exists.1 hc
  rw [State.afterWorkers_of_codec hc, sessionsOf_of_codec hc, State.runWorkers_slots_map]
  simp [State.ready, Slot.settle_out]

/-! ### A command whose checks pass delivers its output -/

/-- PACK and UNPACK have no workers: their first step delivers the output (R155, R156). -/
theorem firstStep_delivers {i : Instr} {s : State} {L : Latch} (hc : codecOf i = none) (hi : i ≠ .nop)
    (ha : ArgsPass s L (usesExt i)) (ho : OwnChecksPass s L i) :
    ∃ regs, firstStep i L s = s.deliver L (outputOf s L i) regs := by
  have hargs := (argFault_eq_none s L (usesExt i)).2 ha
  cases i with
  | nop => exact absurd rfl hi
  | pack w =>
    obtain ⟨hw1, hw2, h4, hmax⟩ := ho
    simp only [usesExt] at hargs
    have hwidth : ¬(w < 1 ∨ Config.maxWidth < w) := by unfold Config.maxWidth; omega
    have hbits : ¬L.src.len / 4 * w > Config.fieldMax := by unfold Config.fieldMax; omega
    simp only [firstStep, packJob, hargs, if_neg hwidth, h4, ne_eq, not_true_eq_false, if_false, if_neg hbits]
    exact ⟨_, rfl⟩
  | unpack w =>
    obtain ⟨hw1, hw2, hbits⟩ := ho
    simp only [usesExt] at hargs
    have hwidth : ¬(w < 1 ∨ Config.maxWidth < w) := by unfold Config.maxWidth; omega
    have hlen : ¬L.src.len < ceilDiv L.args.nbitsIn.toNat 8 := by unfold ceilDiv; omega
    simp only [firstStep, unpackJob, hargs, if_neg hwidth, if_neg hlen]
    exact ⟨_, rfl⟩
  | lzwEnc | lzwDec | parEnc | parDec => cases hc

/-- The first step of the other commands readies their workers (R201, R202, R240, R243). -/
theorem firstStep_readies {i : Instr} {s : State} {L : Latch} (hc : (codecOf i).isSome = true)
    (ha : ArgsPass s L (usesExt i)) (ho : OwnChecksPass s L i) :
    firstStep i L s = s.ready (chunksOf s L i) (stagedOf s L i) := by
  have hargs := (argFault_eq_none s L (usesExt i)).2 ha
  cases i with
  | nop | pack | unpack => cases hc
  | lzwEnc | lzwDec =>
    simp only [usesExt] at hargs
    simp only [firstStep, oneChunkStart, hargs]
    rfl
  | parEnc n ext =>
    simp only [usesExt] at hargs
    simp only [firstStep, parEncStart, hargs]
    rw [if_neg (by have := ho.1; omega)]
    simp [State.orFail, State.ready, chunksOf, stagedOf, split]
  | parDec n ext =>
    obtain ⟨hlen, frames, hframes⟩ := ho
    have hnot : ¬(ext = true ∧ L.src.len < L.ext.len) := fun h => absurd (hlen h.1) (by omega)
    simp only [usesExt] at hargs
    simp only [firstStep, parDecStart, hargs, if_neg hnot, chunksOf, hframes]
    rfl

/-- The last step delivers the output of the command's rule (R201, R202, R240, R243). -/
theorem lastStep_delivers {i : Instr} {s : State} {L : Latch} (hc : (codecOf i).isSome = true) :
    ∃ regs, lastStep i L (s.afterWorkers L i) = (s.afterWorkers L i).deliver L (outputOf s L i) regs := by
  have houts := State.afterWorkers_outputs hc s L
  have one {w : State} {sl : Slot} (h : w.slots = [sl]) :
      ∃ regs, oneChunkFinish L w = w.deliver L (w.slots.map Slot.out).flatten regs := by
    simp only [oneChunkFinish, h, List.head?_cons, List.map_cons, List.map_nil, List.flatten_cons, List.flatten_nil, List.append_nil]
    exact ⟨_, rfl⟩
  cases i with
  | nop | pack | unpack => cases hc
  | lzwEnc =>
    simp only [lastStep, outputOf, ← houts]
    exact one (State.runWorkers_slots_map _ _)
  | lzwDec =>
    simp only [lastStep, outputOf, ← houts]
    exact one (State.runWorkers_slots_map _ _)
  | parEnc n ext =>
    have hstaged : (s.afterWorkers L (.parEnc n ext)).staged = stagedOf s L (.parEnc n ext) := State.runWorkers_staged _ _
    simp only [lastStep, parEncFinish, houts, hstaged]
    exact ⟨_, rfl⟩
  | parDec n ext =>
    simp only [lastStep, parDecFinish, houts]
    exact ⟨_, rfl⟩

/-- A command that has an output and passes its checks runs its workers, where it has any, and delivers what its rule says. -/
theorem exec_of_checks {i : Instr} {s : State} {L : Latch} (hi : i ≠ .nop) (hl : s.latch = some L)
    (ha : ArgsPass s L (usesExt i)) (ho : OwnChecksPass s L i) :
    ∃ regs, exec i s = .next ((s.afterWorkers L i).deliver L (outputOf s L i) regs) := by
  rw [exec_eq i s L hl]
  cases hc : codecOf i with
  | none =>
    obtain ⟨regs, h⟩ := firstStep_delivers hc hi ha ho
    exact ⟨regs, by simp [h, State.afterWorkers, hc]⟩
  | some codec =>
    have hsome : (codecOf i).isSome = true := by simp [hc]
    obtain ⟨regs, h⟩ := lastStep_delivers (s := s) (L := L) hsome
    refine ⟨regs, ?_⟩
    dsimp only
    rw [firstStep_readies hsome ha ho, if_neg (by simp [State.ready, hl]), ← State.afterWorkers_of_codec hc, h]

/-! ### What the workers have recorded (R61 to R64, R200, R311, R314) -/

/-- What the workers of a job leave for its end: the records of the chunks, the capture and PROGRESS; memory and the host's side are
as they were. -/
structure WorkersEnded (s w : State) (L : Latch) (i : Instr) : Prop where
  recorded : ChunksRecorded w (sessionsOf s L i)
  captured : CapturedOneOf w (sessionsOf s L i)
  sizes : ∀ k (h : k < 255), w.res.chunkSize[k] = 0
  progress : ∀ codec chunk r, codecOf i = some codec → (chunksOf s L i).getLast? = some chunk →
    (sessionsOf s L i).getLast? = some r → ProgressRecorded w codec chunk r
  noChunk : chunksOf s L i = [] → w.res.progress = 0
  mem : w.mem = s.mem
  host : HostSideKept s w

/-- Of the workers' run the capture alone reaches the error registers and STATUS. -/
theorem State.runWorkers_eq (codec : Codec) (s : State) : ∃ (slots : List Slot) (res res' : Results) (n : Nat), s.runWorkers codec =
    { State.captureOneOf { s with slots := slots, res := res }
        (failuresOf (s.slots.map fun sl => sessionOf codec s.params.dictCapacity sl.input)) with res := res', draws := n } := by
  unfold State.runWorkers
  dsimp only
  split
  · exact ⟨_, _, _, _, rfl⟩
  · exact ⟨_, _, _, _, rfl⟩

/-- The workers of a job that has captured nothing capture the raise of one failing chunk, or there is none (R314). -/
theorem State.runWorkers_captured (codec : Codec) {s : State} (honce : s.errOnce = false) (herrs : s.errs = {})
    (herr : s.status.err = false) : CapturedOneOf (s.runWorkers codec)
      (s.slots.map fun sl => sessionOf codec s.params.dictCapacity sl.input) := by
  obtain ⟨slots, res, res', n, h⟩ := s.runWorkers_eq codec
  rw [h]
  generalize (s.slots.map fun sl => sessionOf codec s.params.dictCapacity sl.input) = rs
  rcases State.captureOneOf_cases { s with slots := slots, res := res } (failuresOf rs) honce with
    ⟨hnil, hu⟩ | ⟨i, r, m, hmem, hu⟩ <;> rw [hu]
  · refine .inl ⟨fun r hr => ?_, herr, honce, by simp [herrs]⟩
    cases r with
    | ok _ => rfl
    | error r =>
      obtain ⟨i, hi⟩ := List.mem_iff_getElem?.1 hr
      have hmem := (mem_failuresOf rs i r).2 hi
      simp [hnil] at hmem
  · exact .inr ⟨i, r, (mem_failuresOf rs i r).1 hmem, rfl, rfl, rfl, rfl, rfl, rfl⟩

/-- PROGRESS after the workers is that of the last one (R233). -/
theorem State.runWorkers_progress (codec : Codec) (s : State) :
    (∀ sl, s.slots.getLast? = some sl → ∃ draw, (s.runWorkers codec).res.progress =
      progressAfter codec sl.input draw (sessionOf codec s.params.dictCapacity sl.input)) ∧
    (s.slots = [] → (s.runWorkers codec).res.progress = s.res.progress) := by
  unfold State.runWorkers
  dsimp only
  constructor
  · intro sl hsl
    simp only [hsl, List.getLast?_map, Option.map_some]
    exact ⟨_, rfl⟩
  · intro hnil
    simp [hnil]

theorem progressAfter_recorded {t : State} {codec : Codec} {input : List Byte} {draw : Nat} {r : Except Raise CodecResult}
    (h : t.res.progress = progressAfter codec input draw r) : ProgressRecorded t codec input r := by
  cases r with
  | ok _ => exact congrArg BitVec.toNat h
  | error r =>
    have hlt := Nat.mod_lt (Config.freeValue draw) (Nat.succ_pos (min (unitsBefore codec input r) (unitsOf codec input - 1)))
    simp only [progressAfter] at h
    simp only [Nat.succ_eq_add_one] at hlt
    generalize Config.freeValue draw % (min (unitsBefore codec input r) (unitsOf codec input - 1) + 1) = d at h hlt
    refine ⟨d, by omega, by omega, ?_⟩
    rw [h, progressAt_toNat _ _ (by omega)]

/-- The failing sessions are those with a cause (R300). -/
theorem failuresOf_length_eq_countP_cause {rs : List (Except Raise CodecResult)} (h : ∀ r, .error r ∈ rs → r.cause ≠ .none) :
    (failuresOf rs).length = rs.countP fun r => chunkCauseOf r != .none := by
  rw [failuresOf_length]
  refine List.countP_congr fun r hr => ?_
  cases r with
  | ok _ => simp [chunkCauseOf]
  | error r => simpa [chunkCauseOf] using h r hr

theorem causesAfter_getElem (rs : List (Except Raise CodecResult)) (k : Nat) (hk : k < 255) :
    (causesAfter rs (Vector.replicate 255 .none))[k] = ((rs[k]?).map chunkCauseOf).getD .none := by
  simp only [causesAfter, Vector.getElem_ofFn]
  cases rs[k]? with
  | none => simp
  | some r => cases r <;> simp [chunkCauseOf]

theorem sizesAfter_getElem (rs : List (Except Raise CodecResult)) (k : Nat) (hk : k < 255) :
    (sizesAfter rs (Vector.replicate 255 0))[k] = 0 := by
  simp only [sizesAfter, Vector.getElem_ofFn]
  split <;> simp

/-- What workers leave that are readied where nothing was recorded yet. -/
theorem JustStarted.workersEnded {s : State} {L : Latch} {i : Instr} {codec : Codec} (h : JustStarted s L)
    (hc : codecOf i = some codec) (hn : (chunksOf s L i).length ≤ 255) : WorkersEnded s (s.afterWorkers L i) L i := by
  have hcause : ∀ r, .error r ∈ sessionsOf s L i → r.cause ≠ .none := fun r => sessionsOf_error_cause
  have hrs : sessionsOf s L i = (chunksOf s L i).map (sessionOf codec s.params.dictCapacity) := sessionsOf_of_codec hc s L
  have hlen : (sessionsOf s L i).length = (chunksOf s L i).length := by rw [hrs, List.length_map]
  have hsessions : (s.ready (chunksOf s L i) (stagedOf s L i)).slots.map
      (fun sl => sessionOf codec (s.ready (chunksOf s L i) (stagedOf s L i)).params.dictCapacity sl.input) = sessionsOf s L i := by
    simp [State.ready, hrs]
  have hcaptured := State.runWorkers_captured codec (s := s.ready (chunksOf s L i) (stagedOf s L i)) h.armed h.errs h.noErr
  have hres := State.runWorkers_res codec (s.ready (chunksOf s L i) (stagedOf s L i))
  obtain ⟨hlast, hnil⟩ := State.runWorkers_progress codec (s.ready (chunksOf s L i) (stagedOf s L i))
  rw [hsessions] at hcaptured hres
  rw [State.afterWorkers_of_codec hc]
  have hfails := (sessionsOf s L i).countP_le_length (p := fun r => chunkCauseOf r != .none)
  constructor
  case captured => exact hcaptured
  case recorded =>
    rw [← failuresOf_length_eq_countP_cause hcause] at hfails
    refine ⟨?_, ?_, fun k hk => ?_⟩ <;> rw [hres]
    · simp only [State.ready, BitVec.toNat_ofNat]
      omega
    · rw [← failuresOf_length_eq_countP_cause hcause]
      simp only [State.ready, h.res, BitVec.ofNat_eq_ofNat, BitVec.zero_add, BitVec.toNat_ofNat]
      omega
    · simp only [State.ready, h.res]
      exact causesAfter_getElem _ k hk
  case sizes =>
    intro k hk
    rw [hres]
    simp only [State.ready, h.res]
    exact sizesAfter_getElem _ k hk
  case progress =>
    intro codec' chunk r hc' hchunk hr
    obtain rfl : codec = codec' := Option.some.inj (hc.symm.trans hc')
    obtain ⟨draw, hprogress⟩ := hlast { input := chunk } (by simp [State.ready, hchunk])
    obtain rfl : sessionOf codec s.params.dictCapacity chunk = r := by simpa [hrs, hchunk] using hr
    exact progressAfter_recorded hprogress
  case noChunk =>
    intro hempty
    rw [hnil (by simp [State.ready, hempty])]
    simp [State.ready, h.res]
  case mem => simp [State.ready]
  case host => constructor <;> simp [State.ready]

/-- A command without workers has recorded nothing when it comes to its output. -/
theorem JustStarted.workersEnded_of_none {s : State} {L : Latch} {i : Instr} (h : JustStarted s L) (hc : codecOf i = none) :
    WorkersEnded s (s.afterWorkers L i) L i := by
  have hw : s.afterWorkers L i = s := by simp [State.afterWorkers, hc]
  have hrs : sessionsOf s L i = [] := by simp [sessionsOf, hc]
  rw [hw]
  constructor
  case recorded => rw [hrs]; constructor <;> simp [h.res]
  case captured => exact .inl ⟨by simp [hrs], h.noErr, h.armed, by simp [h.errs]⟩
  case sizes => simp [h.res]
  case progress => simp [hc]
  case noChunk => simp [h.res]
  case mem => rfl
  case host => exact .refl s

theorem chunksOf_length {s : State} {L : Latch} {i : Instr} (ho : OwnChecksPass s L i) : (chunksOf s L i).length ≤ 255 := by
  cases i with
  | nop | pack | unpack | lzwEnc | lzwDec => simp [chunksOf]
  | parEnc n ext => simpa [chunksOf, split] using ho.2
  | parDec n ext =>
    obtain ⟨-, frames, hf⟩ := ho
    simpa [chunksOf, hf] using parseContainer_length hf

/-! ### The job failure of an output that does not fit (R308, R312) -/

/-- Where no chunk failed, nothing was captured before the overflow. -/
theorem WorkersEnded.not_once {s w : State} {L : Latch} {i : Instr} (h : WorkersEnded s w L i)
    (hok : ∀ r ∈ sessionsOf s L i, chunkCauseOf r = .none) : w.errOnce = false := by
  rcases h.captured with ⟨-, -, honce, -⟩ | ⟨k, r, hr, -⟩
  · exact honce
  · have hmem := List.mem_of_getElem? hr
    exact absurd (hok _ hmem) (sessionsOf_error_cause hmem)

/-- The job failure keeps the capture of a failed chunk (R316). -/
theorem WorkersEnded.jobFail_captured {s w : State} {L : Latch} {i : Instr} (h : WorkersEnded s w L i)
    (hfail : ∃ r ∈ sessionsOf s L i, chunkCauseOf r ≠ .none) (r : Raise) : CapturedOneOf (w.jobFail r) (sessionsOf s L i) := by
  rcases h.captured with ⟨hok, -⟩ | ⟨k, q, hq, herr, honce, hregs⟩
  · obtain ⟨q, hq, hne⟩ := hfail
    exact absurd (hok q hq) hne
  · exact .inr ⟨k, q, hq, by simp [State.capture_of_once honce, herr], by simp, by simpa [State.capture_of_once honce] using hregs⟩

theorem WorkersEnded.jobFail_err {s w : State} {L : Latch} {i : Instr} (h : WorkersEnded s w L i) (r : Raise) :
    (w.jobFail r).status.err = true := by
  rcases h.captured with ⟨-, -, honce, -⟩ | ⟨k, q, -, herr, honce, -⟩
  · simp [State.capture, honce]
  · simp [State.capture_of_once honce, herr]

theorem State.havocDst_host (s : State) (L : Latch) : HostSideKept s (s.havocDst L) := by constructor <;> rfl

/-- The free draw of the destination range changes nothing that a job failure records. -/
theorem JobFailed.havocDst {s t : State} {r : Raise} (h : JobFailed s t r) (L : Latch) : JobFailed s (t.havocDst L) r where
  completed := ⟨h.completed.phase, h.completed.done, h.completed.latch⟩
  jobFail := h.jobFail
  err := h.err
  errs := h.errs
  dstLen := h.dstLen
  nbitsOut := h.nbitsOut
  codeCount := h.codeCount
  dictSize := h.dictSize
  bitWidth := h.bitWidth
  host := h.host.trans (t.havocDst_host L)

/-- Settles O35: the output of the command's rule is delivered after its workers, and is the job failure of R308. -/
theorem outputLongerThanCapacityFailsTheJob : Obligations.OutputLongerThanCapacityFailsTheJob := by
  intro i s L hi hj ha ho hlen
  obtain ⟨regs, hexec⟩ := exec_of_checks hi hj.latch ha ho
  have hw : WorkersEnded s (s.afterWorkers L i) L i := by
    cases hc : codecOf i with
    | none => exact hj.workersEnded_of_none hc
    | some codec => exact hj.workersEnded hc (chunksOf_length ho)
  rw [State.deliver_overflow _ _ _ _ hlen] at hexec
  generalize s.afterWorkers L i = w at hexec hw
  refine ⟨_, hexec, ⟨by simp, by simp, by simp⟩, by simp, hw.jobFail_err _, by simp, by simp, by simp, by simp, by simp, by simp,
    ?recorded, ?sizes, ?progress, ?noChunk, fun hok => ?failed, fun hfail => hw.jobFail_captured hfail _, fun a hout => ?outside,
    (hw.host.trans (w.jobFail_host _)).trans (State.havocDst_host _ L)⟩
  case recorded => exact ⟨by simpa using hw.recorded.count, by simpa using hw.recorded.fails, by simpa using hw.recorded.causes⟩
  case sizes => simpa using hw.sizes
  case progress =>
    intro codec chunk r hc hchunk hr
    have hp := hw.progress codec chunk r hc hchunk hr
    cases r <;> simpa [ProgressRecorded] using hp
  case noChunk => simpa using hw.noChunk
  case failed =>
    have hf := w.jobFail_records { cause := .outputOverflow, info := min (outputOf s L i).length (2 ^ 32 - 1), pos := 0 }
      (hw.not_once hok)
    exact JobFailed.havocDst { hf with host := hw.host.trans hf.host } L
  case outside => exact (State.readByte_havocDst_outside _ L a hout).trans (State.readByte_congr (by simp [hw.mem]) a)

end Sys2Proof.Machine
end

section
/-! PROOF. The accesses of the host: a CSR access that is not an aligned word, the bytes a write to the data memory leaves and the mark it
sets in a running job, and what a read of the data memory returns. -/

namespace Sys2Proof.Machine

/-! ### CSR accesses (R89) -/

theorem csrRefusal_of_narrow_or_unaligned {size : AccessSize} {offset : Nat} (h : size ≠ .word ∨ offset % 4 ≠ 0) :
    csrRefusal size offset = some .csrAccessNotAlignedWord := if_pos h

/-- Settles O8: the access is judged by its width and offset alone. -/
theorem unalignedOrNarrowCsrAccessRefused : Obligations.UnalignedOrNarrowCsrAccessRefused := by
  intro s rest size off v h
  have hr := csrRefusal_of_narrow_or_unaligned h
  exact ⟨fun ha => (step_of_agenda ha).trans (by simp [turn, State.hostStep, hr]),
    fun ha => (step_of_agenda ha).trans (by simp [turn, State.hostStep, hr])⟩

/-! ### The buffers of a running job (R96) -/

theorem State.latchedByte_eq_true {s : State} {L : Latch} (hp : s.phase = .running) (hl : s.latch = some L) (a : Nat) :
    s.latchedByte a = true ↔ (L.src.addr ≤ a ∧ a < L.src.addr + L.src.len) ∨ (L.dst.addr ≤ a ∧ a < L.dst.addr + L.dst.len) ∨
      (L.ext.addr ≤ a ∧ a < L.ext.addr + L.ext.len) := by
  simp [State.latchedByte, hp, hl, or_assoc]

theorem State.inRunningDst_eq_true (s : State) (a : Nat) : s.inRunningDst a = true ↔
    ∃ L, s.phase = .running ∧ s.latch = some L ∧ L.dst.addr ≤ a ∧ a < L.dst.addr + L.dst.len := by
  unfold State.inRunningDst
  split
  next L hp hl => simp [hp, hl]
  next hno =>
    refine iff_of_false (by simp) ?_
    rintro ⟨L, hp, hl, -⟩
    exact hno L hp hl

/-! ### Accesses to the data memory (R80) -/

theorem State.hostMemWrite_of_fits {s : State} {a : Nat} {bytes : List Byte} (h : a + bytes.length ≤ s.params.memSize) :
    s.hostMemWrite a bytes = .next { s.memWrite a bytes with
      tainted := s.tainted || (List.range bytes.length).any fun k => s.latchedByte (a + k) } := if_neg (by omega)

theorem State.hostMemWrite_of_overrun {s : State} {a : Nat} {bytes : List Byte} (h : s.params.memSize < a + bytes.length) :
    s.hostMemWrite a bytes = .fault .noSuchAddress := if_pos h

theorem State.hostMemRead_of_overrun {s : State} {a : Nat} (h : s.params.memSize ≤ a) :
    s.hostMemRead a = .fault .noSuchAddress := if_pos h

/-- A read outside the running destination returns the byte that stands there (R91). -/
theorem State.hostMemRead_of_stable {s : State} {a : Nat} (h : a < s.params.memSize) (hd : s.inRunningDst a = false) :
    s.hostMemRead a = .next { s with hostRead := some (BitVec.ofNat 32 (s.readByte a).toNat) } := by
  simp [State.hostMemRead, Nat.not_le.2 h, hd]

theorem State.hostMemRead_of_inRunningDst {s : State} {a : Nat} (h : a < s.params.memSize) (hd : s.inRunningDst a = true) :
    ∃ b : Byte, s.hostMemRead a = .next { s with hostRead := some (BitVec.ofNat 32 b.toNat), draws := s.draws + 1 } :=
  ⟨byteOf (Config.freeValue s.draws), by simp [State.hostMemRead, Nat.not_le.2 h, hd]⟩

theorem step_memWrite {s : State} {a : Nat} {bytes : List Byte} {rest : List Turn} (ha : s.agenda = .host (.memWrite a bytes) :: rest) :
    step s = State.hostMemWrite { s with agenda := rest } a bytes := step_of_agenda ha

theorem step_memRead {s : State} {a : Nat} {rest : List Turn} (ha : s.agenda = .host (.memRead a) :: rest) :
    step s = State.hostMemRead { s with agenda := rest } a := step_of_agenda ha

/-- Settles O11: the laws of `memWrite` for the write; a read is told by whether its address lies in the running destination. -/
theorem hostMemoryWriteIsReadBack : Obligations.HostMemoryWriteIsReadBack := by
  intro s rest a
  refine ⟨fun bytes ha => ⟨fun hfits => ?_, fun hover => ?_⟩,
    fun ha => ⟨fun hover => ?_, fun hlt hstable => ?_, fun hlt hdst => ?_⟩⟩
  · refine ⟨_, (step_memWrite ha).trans (State.hostMemWrite_of_fits hfits), fun k hk => ?_, fun b hout => ?_, rfl⟩
    · exact State.readByte_memWrite_inside s a bytes k hk
    · exact State.readByte_memWrite_outside s a bytes b hout
  · exact (step_memWrite ha).trans (State.hostMemWrite_of_overrun hover)
  · exact (step_memRead ha).trans (State.hostMemRead_of_overrun hover)
  · rw [← s.inRunningDst_eq_true a, Bool.not_eq_true] at hstable
    exact (step_memRead ha).trans (State.hostMemRead_of_stable hlt hstable)
  · obtain ⟨b, hb⟩ := State.hostMemRead_of_inRunningDst (s := { s with agenda := rest }) hlt ((s.inRunningDst_eq_true a).2 hdst)
    exact ⟨b, (step_memRead ha).trans hb⟩

/-- Settles O24: the mark is set by the bytes of the write that `latchedByte` finds in a buffer. -/
theorem hostWriteToALatchedBufferMarksTheJob : Obligations.HostWriteToALatchedBufferMarksTheJob := by
  intro s L rest a bytes hp hl hfits ha
  have hlatched (k : Nat) := State.latchedByte_eq_true (s := { s with agenda := rest }) hp hl (a + k)
  exact ⟨_, (step_memWrite ha).trans (State.hostMemWrite_of_fits hfits), rfl, by simp [hlatched]⟩

end Sys2Proof.Machine
end

section
/-! PROOF. The frame of every command and of every step of the engine. Whatever the fields of the command, its first step ends the job or
readies workers (`firstStep_ending_or_ready`); an ending, a first step and a move of the job each write in the destination only. -/

namespace Sys2Proof.Machine

/-! ### A command that need not fit its word -/

theorem FirstMove.ending_or_ready {i : Instr} {L : Latch} {s t : State} (h : FirstMove i L s t) :
    Ending s L t ∨ (codecOf i).isSome = true ∧ ∃ chunks staged, t = s.ready chunks staged := by
  cases h with
  | complete => exact .inl .complete
  | fail r hr => exact .inl (.fail r hr)
  | deliver out regs hw _ => exact .inl (.deliver out regs hw)
  | ready chunks staged _ hc _ => exact .inr ⟨hc, chunks, staged, rfl⟩

/-- `firstStep_move` for a command whose fields need not fit: only the bound on the number of chunks is lost. -/
theorem firstStep_ending_or_ready (i : Instr) (L : Latch) (s : State) :
    Ending s L (firstStep i L s) ∨ (codecOf i).isSome = true ∧ ∃ chunks staged, firstStep i L s = s.ready chunks staged := by
  cases i with
  | nop | lzwEnc | lzwDec => exact (firstStep_move _ rfl L s).ending_or_ready
  | pack w => exact (packJob_move w L s).ending_or_ready
  | unpack w => exact (unpackJob_move w L s).ending_or_ready
  | parDec n ext => exact (firstStep_move (.parDec 0 ext) rfl L s).ending_or_ready
  | parEnc n ext =>
    simp only [firstStep]
    rcases parEncStart_cases n ext L s with ⟨r, h, hr⟩ | ⟨-, -, h⟩ <;> rw [h]
    · exact .inl (.fail r (by simp [hr]))
    · exact .inr ⟨rfl, _, _, rfl⟩

theorem exec_of_completed {i : Instr} {s : State} {L : Latch} (hl : s.latch = some L) (h : Completed (firstStep i L s)) :
    exec i s = .next (firstStep i L s) := by
  rw [exec_eq i s L hl]
  cases codecOf i with
  | none => rfl
  | some codec => exact congrArg _ (if_pos ⟨h.phase, h.latch⟩)

theorem exec_of_ready {i : Instr} {s : State} {L : Latch} {codec : Codec} {chunks : List (List Byte)} {staged : List Byte}
    (hl : s.latch = some L) (hc : codecOf i = some codec) (h : firstStep i L s = s.ready chunks staged) :
    exec i s = .next (lastStep i L ((s.ready chunks staged).runWorkers codec)) := by
  rw [exec_eq i s L hl, hc, h]
  exact congrArg _ (if_neg (by simp [State.ready, hl]))

/-- A command ends in its first step, or its workers run and its last step ends it. -/
theorem exec_ending (i : Instr) {s : State} {L : Latch} (hl : s.latch = some L) :
    ∃ t, exec i s = .next t ∧
      (Ending s L t ∨ ∃ codec chunks staged, Ending ((s.ready chunks staged).runWorkers codec) L t) := by
  rcases firstStep_ending_or_ready i L s with he | ⟨hc, chunks, staged, hready⟩
  · exact ⟨_, exec_of_completed hl he.frame.1, .inl he⟩
  · obtain ⟨codec, hcodec⟩ := Option.isSome_iff_exists.1 hc
    exact ⟨_, exec_of_ready hl hcodec hready, .inr ⟨codec, chunks, staged, lastStep_ending i L _ hc⟩⟩

/-! ### The frames -/

/-- The bytes outside the latched destination and the host's side are as before. -/
def FrameKept (s t : State) (L : Latch) : Prop := KeptOutside s t L.dst ∧ HostSideKept s t

theorem FrameKept.refl (s : State) (L : Latch) : FrameKept s s L := ⟨.refl s _, .refl s⟩

theorem FrameKept.setDraws (s : State) (L : Latch) (n : Nat) : FrameKept s { s with draws := n } L :=
  ⟨.of_mem_eq rfl _, by constructor <;> rfl⟩

theorem FrameKept.trans {s t u : State} {L : Latch} (h : FrameKept s t L) (k : FrameKept t u L) : FrameKept s u L :=
  ⟨h.1.trans k.1, h.2.trans k.2⟩

theorem Ending.frameKept {s t : State} {L : Latch} (h : Ending s L t) : FrameKept s t L :=
  have ⟨_, hout, hhost, _⟩ := h.frame
  ⟨hout, hhost⟩

theorem State.ready_frameKept (s : State) (L : Latch) (chunks : List (List Byte)) (staged : List Byte) :
    FrameKept s (s.ready chunks staged) L := ⟨.of_mem_eq rfl _, by constructor <;> rfl⟩

theorem State.runWorkers_frameKept (s : State) (L : Latch) (codec : Codec) : FrameKept s (s.runWorkers codec) L :=
  ⟨.of_mem_eq (by simp) _, by constructor <;> simp⟩

theorem FirstMove.frameKept {i : Instr} {s t : State} {L : Latch} (h : FirstMove i L s t) : FrameKept s t L := by
  rcases h.ending_or_ready with he | ⟨-, chunks, staged, rfl⟩
  · exact he.frameKept
  · exact s.ready_frameKept L chunks staged

theorem WorkerMove.frameKept {s t : State} {i : Nat} (h : WorkerMove s i t) (L : Latch) : FrameKept s t L := by
  obtain ⟨hparams, hirqEn, hcmd, hargs, -, -, -, -, -, hmem, hagenda, hhostRead, -⟩ := h.frame
  exact ⟨.of_mem_eq hmem _, ⟨hparams, hirqEn, hcmd, hargs, h.overrun, hagenda, hhostRead⟩⟩

theorem JobMove.frameKept {s t : State} {L : Latch} (h : JobMove s L t) : FrameKept s t L := by
  induction h with
  | stay n => exact .setDraws s L n
  | bad => exact (Ending.fail (L := L) _ (by simp)).frameKept
  | first i t _ _ hf => exact hf.frameKept
  | last t _ _ he => exact he.frameKept
  | worker n i t _ hw => exact (FrameKept.setDraws s L n).trans (hw.frameKept L)
  | scrambled t _ _ _ ih =>
    obtain ⟨hout, hhost, -⟩ := t.scramble_frame L
    exact ih.trans ⟨hout, hhost⟩

/-- While IDLE the engine does nothing (R328), and in a job every move keeps the frame. -/
theorem State.engineStep_frameKept {s : State} {L : Latch} (hl : s.latch = some L) : FrameKept s s.engineStep L := by
  cases hp : s.phase with
  | idle => simpa [State.engineStep, hp] using FrameKept.refl s L
  | running => exact (s.engineStep_move L hp hl).frameKept

theorem State.sequencerStep_frameKept {s : State} {L : Latch} (hl : s.latch = some L) : FrameKept s s.sequencerStep L := by
  cases hp : s.phase with
  | idle => simpa [State.sequencerStep, hp] using FrameKept.refl s L
  | running => exact (s.sequencerStep_move L hp hl).frameKept

theorem State.workerTurn_frameKept (s : State) (i : Nat) (L : Latch) : FrameKept s (s.workerTurn i) L :=
  (s.workerTurn_move L s.draws i).frameKept

/-- The turns to come do not matter to the frame where they are the same before and after. -/
theorem FrameKept.setAgenda {s t : State} {L : Latch} {turns : List Turn} (h : FrameKept { s with agenda := turns } t L)
    (turns' : List Turn) : FrameKept { s with agenda := turns' } { t with agenda := turns' } L :=
  ⟨h.1, { h.2 with agenda := rfl }⟩

theorem waitTurn_frameKept {s : State} {L : Latch} (hl : s.latch = some L) :
    FrameKept { s with agenda := (waitTurn s).agenda } (waitTurn s) L := by
  unfold waitTurn
  split
  · exact .refl s L
  · exact (State.engineStep_frameKept hl).setAgenda _

/-- Settles O36: a command ends after its workers, which write no memory; a step of the engine is a move of the job. -/
theorem commandsWriteOnlyTheDestination : Obligations.CommandsWriteOnlyTheDestination := by
  constructor
  case left =>
    intro i s t L hl h
    obtain ⟨t', ht, hend⟩ := exec_ending i hl
    obtain rfl : t' = t := Host.Outcome.next.inj (ht.symm.trans h)
    rcases hend with he | ⟨codec, chunks, staged, he⟩
    · exact ⟨he.frame.1, he.frameKept⟩
    · exact ⟨he.frame.1, ((s.ready_frameKept L chunks staged).trans (State.runWorkers_frameKept _ L codec)).trans he.frameKept⟩
  case right =>
    intro s t L hl h hturn
    rcases hturn with ha | ⟨x, rest, ha, hx⟩
    · rw [step_of_agenda_nil ha] at h
      cases h
      exact (State.engineStep_frameKept hl).setAgenda _
    · rw [step_of_agenda ha] at h
      rcases hx with rfl | rfl | ⟨i, rfl⟩ <;> cases h
      · exact (State.sequencerStep_frameKept (s := { s with agenda := rest }) hl).setAgenda _
      · exact (waitTurn_frameKept (s := { s with agenda := rest }) hl).setAgenda _
      · exact (State.workerTurn_frameKept { s with agenda := rest } i L).setAgenda _

end Sys2Proof.Machine
end

section
/-! PROOF. Frames and containers: what `encodeFrame` answers and the bounds of its frame, the structural checks of `decodeFrame`, and the
parse of an assembled container. The bounds of a frame rest on `EncSession.Fits`, which every unit of an encode session keeps. -/

namespace Sys2Proof.Machine

/-! ### The width of a dictionary size (R186, R189) -/

theorem le_two_pow_bitWidth (s : Nat) : s ≤ 2 ^ bitWidth s :=
  (leastWidth_spec s 0 s (by simpa using Nat.lt_two_pow_self.le)).1

theorem bitWidth_le {s v : Nat} (h : s ≤ 2 ^ v) : bitWidth s ≤ v :=
  (leastWidth_spec s 0 s (by simpa using Nat.lt_two_pow_self.le)).2.2 v (Nat.zero_le v) h

theorem le_bitWidth {s v : Nat} (h : 2 ^ v ≤ s) : v ≤ bitWidth s :=
  (Nat.pow_le_pow_iff_right (by decide)).1 (h.trans (le_two_pow_bitWidth s))

/-! ### What an encode session keeps (R180 to R187) -/

/-- The dictionary of an encode session holds every one-byte sequence and the match so far, its size lies between the seed's and the
capacity, and every code emitted stands in it. -/
structure EncSession.Fits (cap : Nat) (e : EncSession) : Prop where
  seeded : ∀ c : Byte, [c] ∈ e.dict
  matched : e.cur = [] ∨ e.cur ∈ e.dict
  seed : 256 ≤ e.dict.length
  capacity : e.dict.length ≤ cap
  codes : ∀ k ∈ e.codes, k < e.dict.length

theorem codeOf_lt {dict : List (List Byte)} {seq : List Byte} (h : seq ∈ dict) : codeOf dict seq < dict.length :=
  List.idxOf_lt_length_of_mem h

theorem singleton_mem_seedDict (c : Byte) : [c] ∈ seedDict :=
  List.mem_map.2 ⟨c.toNat, List.mem_range.2 c.isLt, by simp [byteOf]⟩

theorem EncSession.start_fits {cap : Nat} (h : 256 ≤ cap) : EncSession.start.Fits cap where
  seeded := singleton_mem_seedDict
  matched := .inl rfl
  seed := seedDict_length.ge
  capacity := seedDict_length.trans_le h
  codes := by simp [EncSession.start]

/-- A match that ends is a sequence of the dictionary, so that its code stands there. -/
theorem EncSession.Fits.cur_mem {cap : Nat} {e : EncSession} (h : e.Fits cap) {c : Byte} (hc : e.cur ++ [c] ∉ e.dict) :
    e.cur ∈ e.dict := by
  rcases h.matched with hnil | hmem
  · exact absurd (h.seeded c) (by simpa [hnil] using hc)
  · exact hmem

theorem EncSession.Fits.unit {cap : Nat} {c : Byte} {e e' : EncSession} (h : e.Fits cap) (hu : e.unit cap c = .ok e') :
    e'.Fits cap := by
  rcases e.unit_cases cap c with ⟨hmem, hu'⟩ | ⟨-, -, hu'⟩ | ⟨hmem, hcap, hu'⟩ <;> rw [hu'] at hu <;> cases hu
  · exact { h with matched := .inr hmem }
  · have hle := h.capacity
    exact {
      seeded := fun d => List.mem_append_left _ (h.seeded d)
      matched := .inr (List.mem_append_left _ (h.seeded c))
      seed := by simpa using Nat.le_succ_of_le h.seed
      capacity := by simp; omega
      codes := fun k hk => by
        rw [List.length_append, List.length_singleton]
        rcases List.mem_append.1 hk with hk | hk
        · exact Nat.lt_succ_of_lt (h.codes k hk)
        · rw [List.mem_singleton.1 hk]
          exact Nat.lt_succ_of_lt (codeOf_lt (h.cur_mem hmem)) }

theorem EncSession.Fits.run {cap : Nat} {input : List Byte} {e e' : EncSession} (h : e.Fits cap)
    (hr : EncSession.run cap input e = .ok e') : e'.Fits cap := by
  induction input generalizing e with
  | nil => cases hr; exact h
  | cons c cs ih =>
    rw [EncSession.run_cons] at hr
    cases hu : e.unit cap c with
    | error r => rw [hu] at hr; cases hr
    | ok e₁ => rw [hu] at hr; exact ih (h.unit hu) hr

theorem EncSession.Fits.flushed_lt {cap : Nat} {e : EncSession} (h : e.Fits cap) {k : Nat} (hk : k ∈ e.flushed) :
    k < e.dict.length := by
  unfold EncSession.flushed at hk
  split at hk
  next => exact h.codes k hk
  next hne =>
    rcases List.mem_append.1 hk with hk | hk
    · exact h.codes k hk
    · rw [List.mem_singleton.1 hk]
      exact codeOf_lt (h.matched.resolve_left hne)

/-- The codes of an encode stand in its final dictionary, whose size lies between the seed's and the capacity. -/
theorem lzwEncode_bounds {cap size : Nat} {input : List Byte} {codes : List Nat} (hcap : 256 ≤ cap)
    (h : lzwEncode cap input = .ok (codes, size)) : 256 ≤ size ∧ size ≤ cap ∧ ∀ k ∈ codes, k < size := by
  unfold lzwEncode at h
  split at h
  next => cases h
  next e he =>
    cases h
    have hfits := (EncSession.start_fits hcap).run he
    exact ⟨hfits.seed, hfits.capacity, fun k => hfits.flushed_lt⟩

/-! ### encodeFrame (R188) -/

theorem encodeFrame_of_error {cap : Nat} {input : List Byte} {r : Raise} (h : lzwEncode cap input = .error r) :
    encodeFrame cap input = .error r := by simp [encodeFrame, h]

theorem encodeFrame_of_ok {cap size : Nat} {input : List Byte} {codes : List Nat} (h : lzwEncode cap input = .ok (codes, size)) :
    encodeFrame cap input = closeFrame codes size := by simp [encodeFrame, h]

/-- A frame that was encoded is the closed frame of the codes of its encode. -/
theorem encodeFrame_ok {cap : Nat} {input : List Byte} {r : CodecResult} (h : encodeFrame cap input = .ok r) :
    ∃ codes size, lzwEncode cap input = .ok (codes, size) ∧ closeFrame codes size = .ok r := by
  cases hl : lzwEncode cap input with
  | error q => rw [encodeFrame_of_error hl] at h; cases h
  | ok p => exact ⟨p.1, p.2, rfl, (encodeFrame_of_ok hl).symm.trans h⟩

/-- The length of a closed frame: its packed codes and the trailer of five bytes (R121). -/
theorem frame_length (codes : List Nat) (w n : Nat) :
    ((pack codes w).1 ++ le32 n ++ [byteOf w]).length = ceilDiv (codes.length * w) 8 + 5 := by
  simp

/-- Settles O45: the two answers of `closeFrame`, and for the bounds what an encode session keeps. -/
theorem framesHaveTheirTrailer : Obligations.FramesHaveTheirTrailer := by
  intro cap input hmin hmax
  refine ⟨fun r => encodeFrame_of_error, fun codes size h => ?_, fun r h => ?_⟩
  · rw [encodeFrame_of_ok h]
    rcases closeFrame_cases codes size with ⟨hover, hc⟩ | ⟨hfit, hc⟩
    · exact hc.trans (if_pos (by exact hover)).symm
    · rw [List.append_assoc] at hc
      exact hc.trans (if_neg (Nat.not_lt.2 hfit)).symm
  · obtain ⟨codes, size, hl, hclose⟩ := encodeFrame_ok h
    obtain ⟨hlow, hhigh, hcodes⟩ := lzwEncode_bounds hmin hl
    rcases closeFrame_cases codes size with ⟨-, hc⟩ | ⟨hfit, hc⟩ <;> rw [hc] at hclose <;> cases hclose
    exact ⟨hl, rfl, rfl, hfit, le_bitWidth (v := 8) hlow, bitWidth_le (hhigh.trans hmax),
      fun k hk => (hcodes k hk).trans_le (le_two_pow_bitWidth size), frame_length codes _ _⟩

/-! ### decodeFrame (R190) -/

/-- The bit count of a frame of at least five bytes. -/
theorem rdLE32_trailer {f : List Byte} (h : 5 ≤ f.length) : rdLE32 f (f.length - 5) =
    (f.getD (f.length - 5) 0).toNat + 2 ^ 8 * (f.getD (f.length - 4) 0).toNat + 2 ^ 16 * (f.getD (f.length - 3) 0).toNat +
      2 ^ 24 * (f.getD (f.length - 2) 0).toNat := by
  have h4 : f.length - 5 + 1 = f.length - 4 := by omega
  have h3 : f.length - 5 + 2 = f.length - 3 := by omega
  have h2 : f.length - 5 + 3 = f.length - 2 := by omega
  simp only [rdLE32, h4, h3, h2]
  rfl

/-- The bits fit the bytes exactly where the bytes they fill do. -/
theorem lt_ceilDiv_eight (n b : Nat) : n < ceilDiv b 8 ↔ 8 * n < b := by
  unfold ceilDiv
  omega

/-- The checks of a frame by its width byte and its bit count, and what it holds where they pass (R190, R303). -/
theorem readFrame_cases (f : List Byte) {w nb : Nat} (hw : (f.getD (f.length - 1) 0).toNat = w)
    (hnb : rdLE32 f (f.length - 5) = nb) :
    (f.length < 5 → readFrame f = .error (malformedFrame 1)) ∧
    (5 ≤ f.length → ¬(1 ≤ w ∧ w ≤ 32) → readFrame f = .error (malformedFrame 2)) ∧
    (5 ≤ f.length → 1 ≤ w ∧ w ≤ 32 → 2 ^ 31 ≤ nb → readFrame f = .error (malformedFrame 3)) ∧
    (5 ≤ f.length → 1 ≤ w ∧ w ≤ 32 → nb < 2 ^ 31 → 8 * (f.length - 5) < nb → readFrame f = .error (malformedFrame 4)) ∧
    (5 ≤ f.length → 1 ≤ w ∧ w ≤ 32 → nb < 2 ^ 31 → nb ≤ 8 * (f.length - 5) →
      readFrame f = .ok (unpack (f.take (f.length - 5)) nb w, nb, w)) := by
  obtain ⟨hneg, hnat⟩ := sext32_of_lt (hnb ▸ rdLE32_lt f (f.length - 5))
  have hwidth : (w < 1 ∨ Config.maxWidth < w) ↔ ¬(1 ≤ w ∧ w ≤ 32) := by
    unfold Config.maxWidth
    omega
  simp only [readFrame, hw, hnb, hneg, hwidth]
  refine ⟨fun h1 => if_pos h1, fun h1 h2 => ?_, fun h1 h2 h3 => ?_, fun h1 h2 h3 h4 => ?_, fun h1 h2 h3 h4 => ?_⟩
  · rw [if_neg (Nat.not_lt.2 h1), if_pos h2]
  · rw [if_neg (Nat.not_lt.2 h1), if_neg (not_not.2 h2), if_pos h3]
  · rw [if_neg (Nat.not_lt.2 h1), if_neg (not_not.2 h2), if_neg (Nat.not_le.2 h3), hnat h3, if_pos ((lt_ceilDiv_eight _ _).2 h4)]
  · rw [if_neg (Nat.not_lt.2 h1), if_neg (not_not.2 h2), if_neg (Nat.not_le.2 h3), hnat h3,
      if_neg (fun h => Nat.not_lt.2 h4 ((lt_ceilDiv_eight _ _).1 h))]

theorem decodeFrame_of_malformed {f : List Byte} {r : Raise} (h : readFrame f = .error r) (cap : Nat) :
    decodeFrame cap f = .error r := by simp [decodeFrame, h]

/-- A frame that passes its checks decodes to what its codes decode to. -/
theorem decodeFrame_of_read {f : List Byte} {codes : List Nat} {nbits width : Nat} (h : readFrame f = .ok (codes, nbits, width))
    (cap : Nat) : decodeFrame cap f = (lzwDecode cap codes).map fun p =>
      { out := p.1, codes := codes, dictSize := p.2, width := width, nbits := nbits } := by
  simp only [decodeFrame, h]
  cases lzwDecode cap codes <;> rfl

/-- Settles O48: the cases of `readFrame` at the bit count of the trailer. -/
theorem malformedFramesAreRaised : Obligations.MalformedFramesAreRaised := by
  intro cap f w nb codes raises
  have raised {k : Nat} (h : readFrame f = .error (malformedFrame k)) : raises k := decodeFrame_of_malformed h cap
  obtain ⟨short, -⟩ := readFrame_cases f rfl rfl
  refine ⟨fun h1 => raised (short h1), ?_⟩
  by_cases hlen : 5 ≤ f.length
  · obtain ⟨-, width, negative, long, pass⟩ := readFrame_cases f rfl (rdLE32_trailer hlen)
    refine ⟨fun h1 h2 => raised (width h1 h2), fun h1 h2 h3 => raised (negative h1 h2 h3),
      fun h1 h2 h3 h4 => raised (long h1 h2 h3 h4), fun h1 h2 h3 h4 => ?_⟩
    have hread := decodeFrame_of_read (pass h1 h2 h3 h4) cap
    exact ⟨fun r hr => by rw [hread, hr]; rfl, fun out size hd => by rw [hread, hd]; rfl⟩
  · exact ⟨fun h => absurd h hlen, fun h => absurd h hlen, fun h => absurd h hlen, fun h => absurd h hlen⟩

/-! ### Containers (R237, R241) -/

/-- A size table that was written in front of other bytes gives its lengths back, where none is negative. -/
theorem sizeTable_flatMap_le32 (T : Nat) (frames : List (List Byte)) (hmax : ∀ f ∈ frames, f.length ≤ 2 ^ 31 - 1)
    (pre post : List Byte) (i : Nat) (hpre : pre.length = T + 4 * i) :
    sizeTable (pre ++ frames.flatMap (fun f => le32 f.length) ++ post) T frames.length i = .ok (frames.map List.length) := by
  induction frames generalizing pre i with
  | nil => rfl
  | cons f frames ih =>
    have hf : f.length ≤ 2 ^ 31 - 1 := hmax f (by simp)
    have hsplit : pre ++ (f :: frames).flatMap (fun f => le32 f.length) ++ post =
        pre ++ le32 f.length ++ (frames.flatMap (fun f => le32 f.length) ++ post) := by simp
    have hentry : rdLE32 (pre ++ le32 f.length ++ (frames.flatMap (fun f => le32 f.length) ++ post)) (T + 4 * i) = f.length := by
      rw [← hpre, rdLE32_le32]
      omega
    obtain ⟨hneg, hnat⟩ := sext32_of_lt (v := f.length) (by omega)
    have hrest := ih (fun g hg => hmax g (List.mem_cons_of_mem f hg)) (pre ++ le32 f.length) (i + 1)
      (by rw [List.length_append, hpre, le32_length]; ring)
    rw [List.append_assoc (pre ++ le32 f.length)] at hrest
    rw [hsplit, List.length_cons, sizeTable, hentry, if_neg (by rw [hneg]; omega), hrest, hnat (by omega), List.map_cons]

/-- Bytes that were joined are cut at their lengths again. -/
theorem slices_flatten (frames : List (List Byte)) (post : List Byte) :
    slices (frames.flatten ++ post) (frames.map List.length) = frames := by
  induction frames with
  | nil => rfl
  | cons f frames ih => simp [slices, ih]

@[simp] theorem flatMap_le32_length (frames : List (List Byte)) :
    (frames.flatMap fun f => le32 f.length).length = 4 * frames.length := by
  simp [List.length_flatMap, Nat.mul_comm]

theorem assemble_length (frames : List (List Byte)) (x : List Byte) :
    (assemble frames x).length = frames.flatten.length + 4 * frames.length + 1 + x.length := by
  simp only [assemble, List.length_append, flatMap_le32_length, List.length_singleton]

/-- The chunk count stands behind the frames and the size table (R237). -/
theorem assemble_count {frames : List (List Byte)} (x : List Byte) (h : frames.length ≤ 255) :
    ((assemble frames x).getD (frames.flatten.length + 4 * frames.length) 0).toNat = frames.length := by
  have hlen : (frames.flatten ++ frames.flatMap fun f => le32 f.length).length = frames.flatten.length + 4 * frames.length := by
    rw [List.length_append, flatMap_le32_length]
  rw [assemble, List.append_assoc _ [byteOf frames.length], List.getD_append_right _ _ _ _ hlen.le, hlen, Nat.sub_self]
  simp only [List.cons_append, List.getD_cons_zero, byteOf, BitVec.toNat_ofNat]
  omega

/-- An assembled container parses to its frames, where the extension length it is parsed with is that of its extension. -/
theorem parseContainer_assemble {frames : List (List Byte)} (x : List Byte) (hcount : frames.length ≤ 255)
    (hmax : ∀ f ∈ frames, f.length ≤ 2 ^ 31 - 1) {ext : Bool} {xl : Nat}
    (hC : (if ext then (assemble frames x).length - xl else (assemble frames x).length) =
      frames.flatten.length + 4 * frames.length + 1) :
    parseContainer (assemble frames x) ext xl = .ok frames := by
  have htable : sizeTable (assemble frames x) frames.flatten.length frames.length 0 = .ok (frames.map List.length) := by
    have h := sizeTable_flatMap_le32 frames.flatten.length frames hmax frames.flatten ([byteOf frames.length] ++ x) 0 rfl
    rwa [← List.append_assoc] at h
  have hslices : slices (assemble frames x) (frames.map List.length) = frames := by
    simp only [assemble, List.append_assoc, slices_flatten]
  simp only [parseContainer, hC, Nat.add_sub_cancel, assemble_count x hcount, htable, hslices]
  rw [if_neg (by omega), if_neg (by omega), if_neg (by simp)]

/-- Settles O53: the container's parts have known lengths, so that the parse finds the count, the table and the frames. -/
theorem parseOfAssembledContainer : Obligations.ParseOfAssembledContainer := by
  intro frames x hcount hmax
  refine ⟨rfl, assemble_length frames x, ?_, ?_, ?_⟩
  · exact List.drop_left' (by simp only [List.length_append, flatMap_le32_length, List.length_singleton])
  · exact parseContainer_assemble x hcount hmax (by simp [assemble_length])
  · rintro rfl xl
    exact parseContainer_assemble [] hcount hmax (by simp [assemble_length])

end Sys2Proof.Machine
end

section
/-! PROOF. A command depends on no byte outside its buffers. Two runs on memories that agree on the buffers read the same bytes, so they
ready the same chunks or end alike (`TwinEnding`): both complete, both fail with one raise, or both deliver one output. -/

namespace Sys2Proof.Machine

/-! ### Operations that neither read nor write the memory -/

theorem State.capture_setMem (s : State) (m : Memory) (chunk : Word) (r : Raise) :
    State.capture { s with mem := m } chunk r = { s.capture chunk r with mem := m } := by
  unfold State.capture
  dsimp only
  split <;> rfl

theorem State.jobFail_setMem (s : State) (m : Memory) (r : Raise) :
    State.jobFail { s with mem := m } r = { s.jobFail r with mem := m } := by
  simp only [State.jobFail, State.recordJobFail, State.capture_setMem]
  rfl

theorem State.captureOneOf_setMem (s : State) (m : Memory) (fs : List (Nat × Raise)) :
    State.captureOneOf { s with mem := m } fs = { s.captureOneOf fs with mem := m } :=
  match fs with
  | [] => rfl
  | [_] => State.capture_setMem s m _ _
  | _ :: _ :: _ => State.capture_setMem { s with draws := s.draws + 1 } m _ _

/-- The workers work on the bytes of their slots (R232). -/
theorem State.runWorkers_setMem (codec : Codec) (s : State) (m : Memory) :
    State.runWorkers codec { s with mem := m } = { s.runWorkers codec with mem := m } := by
  have hcapture (slots : List Slot) (res : Results) (fs : List (Nat × Raise)) :
      State.captureOneOf { s with mem := m, slots := slots, res := res } fs =
        { State.captureOneOf { s with slots := slots, res := res } fs with mem := m } :=
    State.captureOneOf_setMem { s with slots := slots, res := res } m fs
  simp only [State.runWorkers, hcapture]
  split <;> rfl

/-! ### Two runs that end alike -/

/-- The ends of two runs of a job, in states that differ in their memories at most. -/
inductive TwinEnding (s : State) (m : Memory) (L : Latch) : State → State → Prop where
  | complete : TwinEnding s m L s.complete (State.complete { s with mem := m })
  | fail (r : Raise) : TwinEnding s m L (s.jobFail r) (State.jobFail { s with mem := m } r)
  | deliver (out : List Byte) (regs : Results → Results) (h : WritesOwn regs) :
      TwinEnding s m L (s.deliver L out regs) (State.deliver { s with mem := m } L out regs)

/-- What two runs of a job have in common at their end: the registers, the slots and the bytes of the output. -/
structure SameResults (L : Latch) (t u : State) : Prop where
  res : u.res = t.res
  errs : u.errs = t.errs
  status : u.status = t.status
  slots : u.slots = t.slots
  output : ∀ k, k < t.res.dstLen.toNat → u.readByte (L.dst.addr + k) = t.readByte (L.dst.addr + k)

theorem SameResults.deliver (s : State) (m : Memory) (L : Latch) (out : List Byte) {regs : Results → Results} (hw : WritesOwn regs) :
    SameResults L (s.deliver L out regs) (State.deliver { s with mem := m } L out regs) := by
  by_cases hlen : L.dst.len < out.length
  · rw [State.deliver_overflow _ _ _ _ hlen, State.deliver_overflow _ _ _ _ hlen, State.jobFail_setMem s m]
    exact ⟨rfl, rfl, rfl, rfl, by simp⟩
  · obtain ⟨-, hbytes, -, -, hres, herrs, hstatus, -, hslots⟩ := s.deliver_fits L out regs (by omega)
    obtain ⟨-, hbytes', -, -, hres', herrs', hstatus', -, hslots'⟩ :=
      State.deliver_fits { s with mem := m } L out regs (by omega)
    refine ⟨hres'.trans hres.symm, herrs'.trans herrs.symm, hstatus'.trans hstatus.symm, hslots'.trans hslots.symm, fun k hk => ?_⟩
    have hk' : k < out.length := by
      rw [hres, hw.dstLen, BitVec.toNat_ofNat] at hk
      exact hk.trans_le (Nat.mod_le _ _)
    exact (hbytes' k hk').trans (hbytes k hk').symm

/-- A job that completes without an output is NOP, which leaves DST_LEN as it was. -/
theorem TwinEnding.sameResults {s t u : State} {m : Memory} {L : Latch} (h : TwinEnding s m L t u) (hlen : s.res.dstLen = 0) :
    SameResults L t u := by
  cases h with
  | complete => exact ⟨rfl, rfl, rfl, rfl, by simp [hlen]⟩
  | fail r =>
    rw [State.jobFail_setMem s m]
    exact ⟨rfl, rfl, rfl, rfl, by simp⟩
  | deliver out regs hw => exact .deliver s m L out hw

theorem TwinEnding.completed {s t u : State} {m : Memory} {L : Latch} (h : TwinEnding s m L t u) : Completed t ∧ Completed u := by
  cases h with
  | complete => exact ⟨State.complete_completed _, State.complete_completed _⟩
  | fail r => exact ⟨State.jobFail_completed _ r, State.jobFail_completed _ r⟩
  | deliver out regs => exact ⟨(State.deliver_frame ..).1, (State.deliver_frame ..).1⟩

/-! ### The sequencer's steps on two memories -/

/-- Two memories that agree on the buffers that a command reads (R81). -/
structure BuffersAgree (s : State) (m : Memory) (L : Latch) (ext : Bool) : Prop where
  src : State.readBuffer { s with mem := m } L.src = s.readBuffer L.src
  ext : ext = true → State.readBuffer { s with mem := m } L.ext = s.readBuffer L.ext

theorem State.readBuffer_congr {s t : State} {b : Buffer} (h : ∀ a, b.addr ≤ a ∧ a < b.addr + b.len → t.readByte a = s.readByte a) :
    t.readBuffer b = s.readBuffer b :=
  List.map_congr_left fun k hk => h (b.addr + k) ⟨Nat.le_add_right _ _, Nat.add_lt_add_left (List.mem_range.1 hk) _⟩

/-- What the first step of two runs can be: both end alike, or both ready the same chunks. -/
def TwinFirst (i : Instr) (s : State) (m : Memory) (L : Latch) (t u : State) : Prop :=
  TwinEnding s m L t u ∨
    (codecOf i).isSome = true ∧ ∃ chunks staged, t = s.ready chunks staged ∧ u = { s.ready chunks staged with mem := m }

theorem packJob_twin (w : Nat) {s : State} {m : Memory} {L : Latch}
    (hsrc : State.readBuffer { s with mem := m } L.src = s.readBuffer L.src) :
    TwinEnding s m L (packJob w L s) (packJob w L { s with mem := m }) := by
  simp only [packJob, hsrc]
  cases argFault s.params.memSize L false with
  | some r => exact .fail r
  | none =>
    dsimp only
    split_ifs
    · exact .fail _
    · exact .fail _
    · exact .fail _
    · exact .deliver _ _ (by constructor <;> intro r <;> rfl)

theorem unpackJob_twin (w : Nat) {s : State} {m : Memory} {L : Latch}
    (hsrc : State.readBuffer { s with mem := m } L.src = s.readBuffer L.src) :
    TwinEnding s m L (unpackJob w L s) (unpackJob w L { s with mem := m }) := by
  simp only [unpackJob, hsrc]
  cases argFault s.params.memSize L false with
  | some r => exact .fail r
  | none =>
    dsimp only
    split_ifs
    · exact .fail _
    · exact .fail _
    · exact .deliver _ _ (by constructor <;> intro r <;> rfl)

theorem oneChunkStart_setMem {s : State} {m : Memory} {L : Latch}
    (hsrc : State.readBuffer { s with mem := m } L.src = s.readBuffer L.src) :
    oneChunkStart L { s with mem := m } = (oneChunkStart L s).map fun t => { t with mem := m } := by
  simp only [oneChunkStart, hsrc]
  cases argFault s.params.memSize L false <;> rfl

theorem parEncStart_setMem (n : Nat) {ext : Bool} {s : State} {m : Memory} {L : Latch} (h : BuffersAgree s m L ext) :
    parEncStart n ext L { s with mem := m } = (parEncStart n ext L s).map fun t => { t with mem := m } := by
  have hstaged : (if ext then State.readBuffer { s with mem := m } L.ext else []) = if ext then s.readBuffer L.ext else [] := by
    cases ext with
    | false => rfl
    | true => simp [h.ext rfl]
  simp only [parEncStart, h.src, hstaged]
  cases argFault s.params.memSize L ext with
  | some r => rfl
  | none =>
    dsimp only
    split_ifs <;> rfl

theorem parDecStart_setMem (ext : Bool) {s : State} {m : Memory} {L : Latch}
    (hsrc : State.readBuffer { s with mem := m } L.src = s.readBuffer L.src) :
    parDecStart ext L { s with mem := m } = (parDecStart ext L s).map fun t => { t with mem := m } := by
  simp only [parDecStart, hsrc]
  cases argFault s.params.memSize L false with
  | some r => rfl
  | none =>
    dsimp only
    split_ifs
    · rfl
    · cases parseContainer (s.readBuffer L.src) ext L.ext.len <;> rfl

/-- A start that raises, or readies chunks, does so on both memories. -/
theorem orFail_twin {i : Instr} {s : State} {m : Memory} {L : Latch} {x y : Except Raise State} (hc : (codecOf i).isSome = true)
    (hy : y = x.map fun t => { t with mem := m }) (hx : (∃ r, x = .error r) ∨ ∃ chunks staged, x = .ok (s.ready chunks staged)) :
    TwinFirst i s m L (s.orFail x) (State.orFail { s with mem := m } y) := by
  subst hy
  rcases hx with ⟨r, rfl⟩ | ⟨chunks, staged, rfl⟩
  · exact .inl (.fail r)
  · exact .inr ⟨hc, chunks, staged, rfl, rfl⟩

theorem firstStep_twin (i : Instr) {s : State} {m : Memory} {L : Latch} (h : BuffersAgree s m L (usesExt i)) :
    TwinFirst i s m L (firstStep i L s) (firstStep i L { s with mem := m }) := by
  cases i with
  | nop => exact .inl .complete
  | pack w => exact .inl (packJob_twin w h.src)
  | unpack w => exact .inl (unpackJob_twin w h.src)
  | lzwEnc | lzwDec =>
    refine orFail_twin rfl (oneChunkStart_setMem h.src) ?_
    rcases oneChunkStart_cases L s with ⟨r, hr, -⟩ | ⟨-, hok⟩
    · exact .inl ⟨r, hr⟩
    · exact .inr ⟨_, _, hok⟩
  | parEnc n ext =>
    refine orFail_twin rfl (parEncStart_setMem n h) ?_
    rcases parEncStart_cases n ext L s with ⟨r, hr, -⟩ | ⟨-, -, hok⟩
    · exact .inl ⟨r, hr⟩
    · exact .inr ⟨_, _, hok⟩
  | parDec n ext =>
    refine orFail_twin rfl (parDecStart_setMem ext h.src) ?_
    rcases parDecStart_cases ext L s with ⟨r, hr, -⟩ | ⟨frames, -, -, hok⟩
    · exact .inl ⟨r, hr⟩
    · exact .inr ⟨_, _, hok⟩

theorem oneChunkFinish_twin (s : State) (m : Memory) (L : Latch) :
    TwinEnding s m L (oneChunkFinish L s) (oneChunkFinish L { s with mem := m }) := by
  unfold oneChunkFinish
  dsimp only
  cases s.slots.head? with
  | none => exact .deliver _ _ (by constructor <;> intro r <;> rfl)
  | some sl =>
    refine .deliver _ _ ?_
    constructor <;> intro r <;> split <;> rfl

theorem lastStep_twin {i : Instr} (hc : (codecOf i).isSome = true) (s : State) (m : Memory) (L : Latch) :
    TwinEnding s m L (lastStep i L s) (lastStep i L { s with mem := m }) := by
  cases i with
  | nop | pack | unpack => cases hc
  | lzwEnc | lzwDec => exact oneChunkFinish_twin s m L
  | parEnc =>
    simp only [lastStep, parEncFinish]
    exact .deliver _ _ ⟨fun _ => rfl, fun _ => rfl, fun _ => rfl, fun _ => rfl, fun _ => rfl⟩
  | parDec =>
    simp only [lastStep, parDecFinish]
    exact .deliver _ _ ⟨fun _ => rfl, fun _ => rfl, fun _ => rfl, fun _ => rfl, fun _ => rfl⟩

/-- Two runs of a command, on memories that agree on what it reads. -/
theorem exec_sameResults {i : Instr} {s : State} {m : Memory} {L : Latch} (hl : s.latch = some L) (hlen : s.res.dstLen = 0)
    (h : BuffersAgree s m L (usesExt i)) :
    ∃ t u, exec i s = .next t ∧ exec i { s with mem := m } = .next u ∧ SameResults L t u := by
  rcases firstStep_twin i h with he | ⟨hc, chunks, staged, ht, hu⟩
  · obtain ⟨ht, hu⟩ := he.completed
    exact ⟨_, _, exec_of_completed hl ht, exec_of_completed hl hu, he.sameResults hlen⟩
  · obtain ⟨codec, hcodec⟩ := Option.isSome_iff_exists.1 hc
    refine ⟨_, _, exec_of_ready hl hcodec ht, exec_of_ready hl hcodec hu, ?_⟩
    have hlast := lastStep_twin hc ((s.ready chunks staged).runWorkers codec) m L
    rw [← State.runWorkers_setMem] at hlast
    exact hlast.sameResults (by rw [State.runWorkers_res]; exact hlen)

/-- Settles O38: memories that agree byte for byte on the buffers agree on what is read from them. -/
theorem commandsReadOnlyTheirBuffers : Obligations.CommandsReadOnlyTheirBuffers := by
  intro i s m L hj hsrc hext
  obtain ⟨t, u, ht, hu, h⟩ := exec_sameResults (i := i) hj.latch (by simp [hj.res])
    ⟨State.readBuffer_congr hsrc, fun he => State.readBuffer_congr (hext he)⟩
  exact ⟨t, u, ht, hu, h.res, h.errs, h.status, h.slots, h.output⟩

end Sys2Proof.Machine
end

section
/-! PROOF. The command word. The fields of a word with no reserved bit determine it (`hasFields_iff`), and a word decodes to a command
exactly when it has that command's fields (`decode_eq_ok_iff`). The round trips of the encoding follow from the two. A row of the opcode
table masks out the fields that its command reads (`matchesRow_iff`). -/

namespace Sys2Proof

/-! ### The fields of a word (R110 to R115) -/

/-- The word has these fields, and no reserved bit is set. -/
def HasFields (v : Word) (op n w : Nat) (ext : Bool) : Prop :=
  reservedClear v = true ∧ opField v = op ∧ nField v = n ∧ widthField v = w ∧ extField v = ext

/-- The fields and the reserved bits are all the bits of a word, so one word has given fields: the one assembled from them. -/
theorem hasFields_iff {v : Word} {op n w : Nat} {ext : Bool} (ho : op < 16) (hn : n < 256) (hw : w < 64) :
    HasFields v op n w ext ↔ v = assembleWord op n w ext := by
  constructor
  · rintro ⟨hres, rfl, rfl, rfl, rfl⟩
    have hext : (extField v).toNat = v.toNat / 2 ^ 24 % 2 := Nat.toNat_testBit ..
    simp only [reservedClear, Bool.and_eq_true, beq_iff_eq, BitVec.extractLsb'_toNat, Nat.shiftRight_eq_div_pow] at hres
    apply BitVec.eq_of_toNat_eq
    simp only [assembleWord, hext, opField, nField, widthField, BitVec.toNat_ofNat, BitVec.extractLsb'_toNat,
      Nat.shiftRight_eq_div_pow]
    omega
  · rintro rfl
    obtain ⟨hop, hcount, hwidth, hext, hres⟩ := assembleWord_fields op n w ext ho hn hw
    exact ⟨hres, hop, hcount, hwidth, hext⟩

/-! ### The fields of a command (R111 to R114) -/

/-- `N` in the word of a command. -/
@[simp] def Instr.count : Instr → Nat
  | .parEnc n _ | .parDec n _ => n
  | _ => 0

/-- `WIDTH` in the word of a command. -/
@[simp] def Instr.width : Instr → Nat
  | .pack w | .unpack w => w
  | _ => 0

/-- `EXT` in the word of a command. -/
@[simp] def Instr.ext : Instr → Bool
  | .parEnc _ ext | .parDec _ ext => ext
  | _ => false

/-- The word has the fields of the command. -/
def Instr.InWord (i : Instr) (v : Word) : Prop := HasFields v i.opcode i.count i.width i.ext

theorem encode_eq_assembleWord (i : Instr) : encode i = assembleWord i.opcode i.count i.width i.ext := by
  cases i <;> rfl

theorem Instr.opcode_lt (i : Instr) : i.opcode < 16 := by
  cases i <;> simp [Instr.opcode]

theorem Instr.count_lt {i : Instr} (h : i.wf = true) : i.count < 256 := by
  cases i with
  | parEnc | parDec => exact of_decide_eq_true h
  | _ => exact Nat.zero_lt_succ _

theorem Instr.width_lt {i : Instr} (h : i.wf = true) : i.width < 64 := by
  cases i with
  | pack | unpack => exact of_decide_eq_true h
  | _ => exact Nat.zero_lt_succ _

/-- The one word with the fields of a command is the word of that command. -/
theorem Instr.inWord_iff {i : Instr} (h : i.wf = true) {v : Word} : i.InWord v ↔ v = encode i := by
  rw [encode_eq_assembleWord]
  exact hasFields_iff i.opcode_lt (Instr.count_lt h) (Instr.width_lt h)

/-! ### The decoder (R116, R283) -/

theorem ifZero_eq_ok {zero : Bool} {i j : Instr} : ifZero zero i = .ok j ↔ zero = true ∧ i = j := by
  cases zero <;> simp [ifZero]

/-- A word decodes to a command exactly when it has the command's fields. -/
theorem decode_eq_ok_iff {v : Word} {i : Instr} : decode v = .ok i ↔ i.InWord v := by
  constructor
  · intro h
    unfold decode at h
    split at h
    case isTrue => cases h
    case isFalse hres =>
      split at h
      case h_8 => cases h
      all_goals
        obtain ⟨hzero, rfl⟩ := ifZero_eq_ok.1 h
        simp_all [Instr.InWord, HasFields, Instr.opcode]
  · rintro ⟨hres, hop, hcount, hwidth, hext⟩
    cases i <;> simp_all [decode, ifZero, Instr.opcode]

/-! ### The rows of the opcode table (R116) -/

/-- The mask of a command's row: every bit but those of the fields that the command reads. -/
def Instr.mask : Instr → Word
  | .nop | .lzwEnc | .lzwDec => BitVec.allOnes 32
  | .pack _ | .unpack _ => 0xFFC0FFFF
  | .parEnc _ _ | .parDec _ _ => 0xFEFF00FF

/-- The row of a command. -/
def Instr.row (i : Instr) : OpcodeRow := ⟨i.mnemonic, i.mask, assembleWord i.opcode 0 0 false⟩

theorem Instr.row_mem (i : Instr) : i.row ∈ opcodeTable := by
  cases i <;> simp [Instr.row, Instr.mnemonic, Instr.mask, Instr.opcode, opcodeTable, assembleWord]

theorem exists_row_of_mem {r : OpcodeRow} (h : r ∈ opcodeTable) : ∃ i : Instr, i.row = r := by
  simp only [opcodeTable, List.mem_cons, List.not_mem_nil, or_false] at h
  obtain rfl | rfl | rfl | rfl | rfl | rfl | rfl := h
  exacts [⟨.nop, rfl⟩, ⟨.pack 0, rfl⟩, ⟨.unpack 0, rfl⟩, ⟨.lzwEnc, rfl⟩, ⟨.lzwDec, rfl⟩, ⟨.parEnc 0 false, rfl⟩, ⟨.parDec 0 false, rfl⟩]

/-- The command of the same row whose fields are those of the word. -/
def Instr.withFieldsOf (v : Word) : Instr → Instr
  | .pack _ => .pack (widthField v)
  | .unpack _ => .unpack (widthField v)
  | .parEnc _ _ => .parEnc (nField v) (extField v)
  | .parDec _ _ => .parDec (nField v) (extField v)
  | i => i

theorem Instr.mnemonic_withFieldsOf (v : Word) (i : Instr) : (i.withFieldsOf v).mnemonic = i.mnemonic := by
  cases i <;> rfl

theorem Instr.InWord.withFieldsOf {v : Word} {i : Instr} (h : i.InWord v) : i.withFieldsOf v = i := by
  obtain ⟨-, -, hcount, hwidth, hext⟩ := h
  cases i <;> simp_all [Instr.withFieldsOf]

theorem extractLsb'_and_of_ones {v m : Word} {start len : Nat} (h : m.extractLsb' start len = BitVec.allOnes len) :
    (v &&& m).extractLsb' start len = v.extractLsb' start len := by
  rw [BitVec.extractLsb'_and, h, BitVec.and_allOnes]

theorem extractLsb'_and_of_zeros {v m : Word} {start len : Nat} (h : m.extractLsb' start len = 0#len) :
    (v &&& m).extractLsb' start len = 0#len := by
  rw [BitVec.extractLsb'_and, h, BitVec.and_zero]

/-- The mask of PACK and UNPACK keeps every field but `WIDTH`. -/
theorem hasFields_and_widthMask (v : Word) (op : Nat) :
    HasFields (v &&& 0xFFC0FFFF) op 0 0 false ↔ HasFields v op 0 (widthField v) false := by
  simp (disch := decide) [HasFields, reservedClear, opField, nField, widthField, extField, extractLsb'_and_of_ones,
    extractLsb'_and_of_zeros]

/-- The mask of PAR_ENC and PAR_DEC keeps every field but `N` and `EXT`. -/
theorem hasFields_and_countMask (v : Word) (op : Nat) :
    HasFields (v &&& 0xFEFF00FF) op 0 0 false ↔ HasFields v op (nField v) 0 (extField v) := by
  simp (disch := decide) [HasFields, reservedClear, opField, nField, widthField, extField, extractLsb'_and_of_ones,
    extractLsb'_and_of_zeros]

/-- A row matches a word exactly when the word decodes to the row's command with the fields it has. -/
theorem matchesRow_iff (i : Instr) (v : Word) : v &&& i.row.mask = i.row.pattern ↔ decode v = .ok (i.withFieldsOf v) := by
  rw [decode_eq_ok_iff, Instr.row, ← hasFields_iff i.opcode_lt (by decide) (by decide)]
  cases i with
  | nop | lzwEnc | lzwDec => rw [Instr.mask, BitVec.and_allOnes]; rfl
  | pack | unpack => exact hasFields_and_widthMask v _
  | parEnc | parDec => exact hasFields_and_countMask v _

theorem matchesRow_of_decode {v : Word} {i : Instr} (h : decode v = .ok i) : v &&& i.row.mask = i.row.pattern := by
  rw [matchesRow_iff, (decode_eq_ok_iff.1 h).withFieldsOf, h]

theorem exists_badWord_of_no_row {v : Word} (h : ∀ r ∈ opcodeTable, v &&& r.mask ≠ r.pattern) : ∃ b, decode v = .error b := by
  cases hd : decode v with
  | error b => exact ⟨b, rfl⟩
  | ok i => exact absurd (matchesRow_of_decode hd) (h _ i.row_mem)

/-! ### The obligations -/

/-- Settles O13: the word of a command whose fields fit has the command's fields. -/
theorem decodeOfEncode : Obligations.DecodeOfEncode :=
  fun _ h => decode_eq_ok_iff.2 ((Instr.inWord_iff h).2 rfl)

/-- Settles O14: the word has the fields of the command it decodes to, and one word has them. -/
theorem encodeOfDecode : Obligations.EncodeOfDecode :=
  fun _ _ h => ⟨decode_wf h, ((Instr.inWord_iff (decode_wf h)).1 (decode_eq_ok_iff.1 h)).symm⟩

/-- Settles O15: each row is the row of a command, and matches the words that decode to a command of that mnemonic. -/
theorem decodeAcceptsTheOpcodeTable : Obligations.DecodeAcceptsTheOpcodeTable := by
  intro v m
  constructor
  · rintro ⟨i, hd, rfl⟩
    exact ⟨i.row, i.row_mem, rfl, matchesRow_of_decode hd⟩
  · rintro ⟨r, hr, rfl, hv⟩
    obtain ⟨i, rfl⟩ := exists_row_of_mem hr
    exact ⟨i.withFieldsOf v, (matchesRow_iff i v).1 hv, i.mnemonic_withFieldsOf v⟩

/-- Settles O12: the decoder evaluates each of the nine words. -/
theorem workedWordsDecode : Obligations.WorkedWordsDecode := by
  unfold Obligations.WorkedWordsDecode
  decide

end Sys2Proof
end

section
/-! PROOF. RUN while IDLE is one step: the decoded command from the state that the job start leaves, or, where the word is no command, the
BAD_COMMAND job failure that the sequencer's first step makes too. -/

namespace Sys2Proof.Machine

theorem step_run_of_idle {s : State} {rest : List Turn} {v : Word} (hp : s.phase = .idle) (ha : s.agenda = .run v :: rest) :
    step s = runCommand v { s with agenda := rest } := by
  simp [step_of_agenda ha, turn, runTurn, State.busy, hp]

theorem runCommand_of_ok {v : Word} {i : Instr} (h : decode v = .ok i) (s : State) : runCommand v s = exec i (s.startJob v) := by
  simp [runCommand, h]

theorem runCommand_of_error {v : Word} {b : BadWord} (h : decode v = .error b) (s : State) :
    runCommand v s = .next ((s.startJob v).badCommand v) := by simp [runCommand, h]

/-- The sequencer's first step in a job whose word is no command (R283). -/
theorem JustStarted.sequencerStep_of_error {s : State} {L : Latch} {b : BadWord} (h : JustStarted s L) (hd : decode L.cmd = .error b) :
    s.sequencerStep = s.badCommand L.cmd := by
  simp [State.sequencerStep, State.sequencerRule, h.phase, h.latch, h.stage, h.untainted, hd]

/-- Settles O16: RUN while IDLE, of a word that decodes. -/
theorem stepRunsTheDecodedCommand : Obligations.StepRunsTheDecodedCommand :=
  fun _ _ _ _ hp ha hd => (step_run_of_idle hp ha).trans (runCommand_of_ok hd _)

/-- Settles O19: such a word does not decode, and right after the job start a job failure leaves no result. -/
theorem badWordIsABadCommandJobFailure : Obligations.BadWordIsABadCommandJobFailure := by
  intro s rest v hp ha hrow
  obtain ⟨b, hd⟩ := exists_badWord_of_no_row hrow
  have hj := State.startJob_justStarted { s with agenda := rest } v
  obtain ⟨hfailed, hres, hmem⟩ := hj.jobFail { cause := .badCommand, info := v.toNat, pos := 0 }
  have hstart : HostSideKept { s with cmd := v, agenda := rest } (State.startJob { s with agenda := rest } v) := by
    constructor <;> rfl
  exact ⟨_, (step_run_of_idle hp ha).trans (runCommand_of_error hd _), hfailed.host.cmd, hres, hmem,
    { hfailed with host := hstart.trans hfailed.host }, hj.sequencerStep_of_error hd⟩

end Sys2Proof.Machine
end

section
/-! PROOF. The bit packer. Bit `k` of a list of `w`-bit fields is a bit of field `k div w` (`flatMap_valueBits_getD`); a byte sequence
is such a list with 8-bit fields, and the stream of what `pack` gives is that of the values and then zeros (`streamOf_pack`). -/

namespace Sys2Proof.Machine

/-! ### The bits of a stream (R87, R151) -/

/-- Stream bit `k` of values of `w` bits is bit `w-1 - k mod w` of value `k div w`; past the end both are 0. -/
theorem flatMap_valueBits_getD {w : Nat} (hw : 0 < w) (vals : List Nat) (k : Nat) :
    (vals.flatMap (valueBits w)).getD k false = (vals.getD (k / w) 0).testBit (w - 1 - k % w) := by
  induction vals generalizing k with
  | nil => simp
  | cons v vals ih =>
    rw [List.flatMap_cons]
    by_cases hk : k < w
    · rw [List.getD_append _ _ _ _ (by simpa using hk), List.getD_eq_getElem _ _ (by simpa using hk), valueBits_getElem,
        Nat.div_eq_of_lt hk, Nat.mod_eq_of_lt hk, List.getD_cons_zero]
    · obtain ⟨j, rfl⟩ := Nat.exists_eq_add_of_le (Nat.le_of_not_lt hk)
      rw [List.getD_append_right _ _ _ _ (by simp), valueBits_length, Nat.add_sub_cancel_left, ih, Nat.add_div_left j hw,
        Nat.add_mod_left, List.getD_cons_succ]

/-- Stream bit `k` of a byte sequence is bit `7 - k mod 8` of byte `k div 8` (R87). -/
theorem streamOf_getD (bytes : List Byte) (k : Nat) :
    (streamOf bytes).getD k false = (bytes.getD (k / 8) 0).getLsbD (7 - k % 8) := by
  have hfields : streamOf bytes = (bytes.map BitVec.toNat).flatMap (valueBits 8) := by rw [List.flatMap_map]; rfl
  have hbyte : (bytes.map BitVec.toNat).getD (k / 8) 0 = (bytes.getD (k / 8) 0).toNat :=
    List.getD_map bytes (0 : Byte) BitVec.toNat
  rw [hfields, flatMap_valueBits_getD (by decide), hbyte, BitVec.testBit_toNat]

/-! ### pack (R150 to R152, R157) -/

/-- The stream of the packed bytes: the values' bits, and zeros up to a whole byte (R152). -/
theorem streamOf_pack (vals : List Nat) (w : Nat) : streamOf (pack vals w).1 =
    vals.flatMap (valueBits w) ++ List.replicate (8 * ceilDiv (vals.length * w) 8 - vals.length * w) false := by
  have hceil : vals.length * w ≤ 8 * ceilDiv (vals.length * w) 8 ∧ 8 * ceilDiv (vals.length * w) 8 ≤ vals.length * w + 7 := by
    unfold ceilDiv
    omega
  rw [pack, streamOf_bytesOfStream _ _ (by simpa using hceil.2), List.take_append,
    List.take_of_length_le (by simpa using hceil.1), List.take_replicate, flatMap_valueBits_length, Nat.min_eq_left (by omega)]

/-- Settles O39: the stream of the packed bytes is the bits of the values, and then zeros. -/
theorem packPlacesEveryBit : Obligations.PackPlacesEveryBit := by
  intro vals w hw _
  refine ⟨rfl, pack_bytes_length vals w, fun k _ => ?_⟩
  rw [← streamOf_getD, streamOf_pack, ← flatMap_valueBits_getD hw]
  by_cases hk : k < vals.length * w
  · rw [List.getD_append _ _ _ _ (by simpa using hk), decide_eq_true hk, Bool.true_and]
  · rw [List.getD_append_right _ _ _ _ (by simpa using hk), List.getD_eq_getElem?_getD,
      List.getElem?_getD_replicate_default_eq, decide_eq_false hk, Bool.false_and]

theorem unpack_pack {w : Nat} (hw : 0 < w) (vals : List Nat) :
    unpack (pack vals w).1 (pack vals w).2 w = vals.map (· % 2 ^ w) := by
  rw [unpack, pack_totalBits, Nat.mul_div_cancel _ hw, streamOf_pack, valuesOfStream_valueBits]

/-- Settles O40: the stream of the packed bytes starts with the values' bits, and a value below `2^w` is not cut. -/
theorem unpackOfPack : Obligations.UnpackOfPack := by
  intro vals w hw _
  refine ⟨unpack_pack hw vals, fun hlt => (unpack_pack hw vals).trans ?_⟩
  exact (List.map_congr_left fun v hv => Nat.mod_eq_of_lt (hlt v hv)).trans (List.map_id _)

/-! ### unpack (R153, R154) -/

theorem valuesOfStream_lt {w n : Nat} {bits : List Bool} : ∀ v ∈ valuesOfStream w n bits, v < 2 ^ w := by
  induction n generalizing bits with
  | zero => simp [valuesOfStream]
  | succ n ih =>
    rw [valuesOfStream, List.forall_mem_cons]
    exact ⟨(bitsValue_lt _).trans_le (Nat.pow_le_pow_right (by decide) (List.length_take_le w bits)), ih⟩

/-- The first `n` values of `w` bits depend on the first `n * w` bits only. -/
theorem valuesOfStream_congr {w n : Nat} {bits bits' : List Bool} (h : bits.take (n * w) = bits'.take (n * w)) :
    valuesOfStream w n bits = valuesOfStream w n bits' := by
  induction n generalizing bits bits' with
  | zero => rfl
  | succ n ih =>
    rw [Nat.succ_mul, Nat.add_comm] at h
    have hhead : bits.take w = bits'.take w := by
      simpa [List.take_take] using congrArg (List.take w) h
    have htail : (bits.drop w).take (n * w) = (bits'.drop w).take (n * w) := by
      simpa [List.drop_take] using congrArg (List.drop w) h
    rw [valuesOfStream, valuesOfStream, hhead, ih htail]

/-- Two lists with at least `n` entries that agree on each of the first `n` agree up to there. -/
theorem take_eq_take_of_getD {bits bits' : List Bool} {n : Nat} (hn : n ≤ bits.length) (hn' : n ≤ bits'.length)
    (h : ∀ k, k < n → bits.getD k false = bits'.getD k false) : bits.take n = bits'.take n := by
  refine List.ext_getElem (by simp [hn, hn']) fun k hk hk' => ?_
  simp only [List.length_take, lt_min_iff] at hk hk'
  simpa [hk.2, hk'.2] using h k hk.1

/-- Settles O41: the values are cut from the first `(totalBits div w) * w` stream bits. -/
theorem unpackDropsTheRemainder : Obligations.UnpackDropsTheRemainder := by
  intro bytes other total w _ _ hb ho
  refine ⟨unpack_length bytes total w, valuesOfStream_lt, fun hagree => valuesOfStream_congr ?_⟩
  have hread : total / w * w ≤ total := Nat.div_mul_le_self total w
  refine take_eq_take_of_getD (by rw [streamOf_length]; omega) (by rw [streamOf_length]; omega) fun k hk => ?_
  rw [streamOf_getD, streamOf_getD, hagree k hk]

/-! ### Value words in memory (R86, R128) -/

theorem valueWords_getElem? {bytes : List Byte} {k : Nat} (h : k < bytes.length / 4) :
    (valueWords bytes)[k]? = some (rdLE32 bytes (4 * k)) := by
  simp [valueWords, h]

@[simp] theorem State.readBuffer_length (s : State) (b : Buffer) : (s.readBuffer b).length = b.len := s.memRead_length b.addr b.len

theorem State.readBuffer_getD (s : State) (b : Buffer) {k : Nat} (h : k < b.len) :
    (s.readBuffer b).getD k 0 = s.readByte (b.addr + k) := by
  rw [List.getD_eq_getElem _ _ (by simpa using h)]
  exact s.memRead_getElem b.addr b.len k _

/-- Value word `k` of a buffer: its four bytes, least significant first. -/
theorem State.valueWords_readBuffer (s : State) (b : Buffer) {k : Nat} (h : k < b.len / 4) :
    (valueWords (s.readBuffer b))[k]? = some (
      (s.readByte (b.addr + 4 * k)).toNat + 2 ^ 8 * (s.readByte (b.addr + 4 * k + 1)).toNat +
      2 ^ 16 * (s.readByte (b.addr + 4 * k + 2)).toNat + 2 ^ 24 * (s.readByte (b.addr + 4 * k + 3)).toNat) := by
  rw [valueWords_getElem? (by simpa using h), rdLE32, State.readBuffer_getD s b (by omega),
    State.readBuffer_getD s b (by omega), State.readBuffer_getD s b (by omega), State.readBuffer_getD s b (by omega)]
  rfl

/-- The bytes of value word `k` are four from byte `4 * k` on. -/
theorem wordBytes_getElem? {vals : List Nat} {k v : Nat} (h : vals[k]? = some v) {j : Nat} (hj : j < 4) :
    (wordBytes vals)[4 * k + j]? = (le32 v)[j]? := by
  induction vals generalizing k with
  | nil => simp at h
  | cons u vals ih =>
    have hcons : wordBytes (u :: vals) = le32 u ++ wordBytes vals := rfl
    rw [hcons]
    cases k with
    | zero =>
      obtain rfl : u = v := by simpa using h
      rw [Nat.mul_zero, Nat.zero_add, List.getElem?_append_left (by simpa using hj)]
    | succ k =>
      rw [List.getElem?_append_right (by simp; omega), le32_length, show 4 * (k + 1) + j - 4 = 4 * k + j by omega]
      exact ih (by simpa using h)

theorem HoldsAt.readByte {t : State} {a k : Nat} {bytes : List Byte} {b : Byte} (h : HoldsAt t a bytes) (hk : bytes[k]? = some b) :
    t.readByte (a + k) = b := by
  obtain ⟨hlt, rfl⟩ := List.getElem?_eq_some_iff.1 hk
  exact h k hlt

/-- Memory that holds value words holds value word `k` as four bytes, least significant first. -/
theorem HoldsAt.valueWord {t : State} {a k v : Nat} {vals : List Nat} (h : HoldsAt t a (wordBytes vals)) (hv : vals[k]? = some v) :
    t.readByte (a + 4 * k) = BitVec.ofNat 8 v ∧ t.readByte (a + 4 * k + 1) = BitVec.ofNat 8 (v / 2 ^ 8) ∧
      t.readByte (a + 4 * k + 2) = BitVec.ofNat 8 (v / 2 ^ 16) ∧ t.readByte (a + 4 * k + 3) = BitVec.ofNat 8 (v / 2 ^ 24) :=
  ⟨h.readByte (wordBytes_getElem? (j := 0) hv (by decide)), h.readByte (wordBytes_getElem? (j := 1) hv (by decide)),
    h.readByte (wordBytes_getElem? (j := 2) hv (by decide)), h.readByte (wordBytes_getElem? (j := 3) hv (by decide))⟩

/-! ### The jobs of PACK and UNPACK (R155, R156) -/

/-- The checks of PACK in their order, and what it delivers where they pass (R155). -/
theorem packJob_cases (w : Nat) {s : State} {L : Latch} (ha : ArgsPass s L false) :
    (¬(1 ≤ w ∧ w ≤ 32) → packJob w L s = s.jobFail (badArgs 2 0)) ∧
    (1 ≤ w ∧ w ≤ 32 → L.src.len % 4 ≠ 0 → packJob w L s = s.jobFail (badArgs 6 0)) ∧
    (1 ≤ w ∧ w ≤ 32 → L.src.len % 4 = 0 → 2 ^ 31 - 1 < L.src.len / 4 * w →
      packJob w L s = s.jobFail { cause := .fieldOverflow, info := 1, pos := 0 }) ∧
    (OwnChecksPass s L (.pack w) → packJob w L s = s.deliver L (pack (valueWords (s.readBuffer L.src)) w).1 fun r => { r with
      nbitsOut := BitVec.ofNat 32 (L.src.len / 4 * w)
      codeCount := BitVec.ofNat 32 (L.src.len / 4)
      bitWidth := BitVec.ofNat 6 w }) := by
  have hwidth : (w < 1 ∨ Config.maxWidth < w) ↔ ¬(1 ≤ w ∧ w ≤ 32) := by unfold Config.maxWidth; omega
  simp only [packJob, (argFault_eq_none s L false).2 ha, hwidth]
  refine ⟨fun h => if_pos h, fun h h4 => ?_, fun h h4 hmax => ?_, fun ⟨h1, h32, h4, hmax⟩ => ?_⟩
  · rw [if_neg (not_not.2 h), if_pos h4]
  · rw [if_neg (not_not.2 h), if_neg (not_not.2 h4), if_pos (show _ > Config.fieldMax from hmax)]
  · rw [if_neg (not_not.2 ⟨h1, h32⟩), if_neg (not_not.2 h4), if_neg (show ¬_ > Config.fieldMax from Nat.not_lt.2 hmax)]
    simp only [pack_totalBits, valueWords_length, State.readBuffer_length]

/-- The checks of UNPACK in their order, and what it delivers where they pass (R156). -/
theorem unpackJob_cases (w : Nat) {s : State} {L : Latch} (ha : ArgsPass s L false) :
    (¬(1 ≤ w ∧ w ≤ 32) → unpackJob w L s = s.jobFail (badArgs 2 0)) ∧
    (1 ≤ w ∧ w ≤ 32 → 8 * L.src.len < L.args.nbitsIn.toNat → unpackJob w L s = s.jobFail (badArgs 7 0)) ∧
    (OwnChecksPass s L (.unpack w) → unpackJob w L s =
      s.deliver L (wordBytes (unpack (s.readBuffer L.src) L.args.nbitsIn.toNat w)) fun r => { r with
        codeCount := BitVec.ofNat 32 (L.args.nbitsIn.toNat / w)
        bitWidth := BitVec.ofNat 6 w }) := by
  have hwidth : (w < 1 ∨ Config.maxWidth < w) ↔ ¬(1 ≤ w ∧ w ≤ 32) := by unfold Config.maxWidth; omega
  simp only [unpackJob, (argFault_eq_none s L false).2 ha, hwidth, lt_ceilDiv_eight]
  refine ⟨fun h => if_pos h, fun h hlen => ?_, fun ⟨h1, h32, hlen⟩ => ?_⟩
  · rw [if_neg (not_not.2 h), if_pos hlen]
  · rw [if_neg (not_not.2 ⟨h1, h32⟩), if_neg (Nat.not_lt.2 hlen), unpack_length]

/-- An output that fits, delivered in a job that has just started: nothing but the command's own registers is set. -/
theorem JustStarted.deliver {s : State} {L : Latch} (h : JustStarted s L) {out : List Byte} {regs : Results → Results}
    (hw : WritesOwn regs) (hfit : out.length ≤ L.dst.len) :
    Delivered s (s.deliver L out regs) L out ∧ (s.deliver L out regs).res = regs { dstLen := BitVec.ofNat 32 out.length } ∧
      (s.deliver L out regs).errs = {} ∧ (s.deliver L out regs).status.err = false := by
  obtain ⟨hcompleted, hbytes, houtside, hhost, hres, herrs, hstatus, -, -⟩ := s.deliver_fits L out regs hfit
  have hlen : out.length < 2 ^ 32 := hfit.trans_lt L.args.dstCap.isLt
  refine ⟨⟨hcompleted, ?_, hbytes, houtside, hhost, by rw [hstatus], by rw [herrs]⟩, by rw [hres, h.res], by rw [herrs, h.errs],
    by rw [hstatus]; exact h.noErr⟩
  rw [hres, hw.dstLen, BitVec.toNat_ofNat, Nat.mod_eq_of_lt hlen]

/-- Settles O26: the job of PACK delivers the packed value words of the source. -/
theorem packWritesThePackedWords : Obligations.PackWritesThePackedWords := by
  intro w s L h ha ho hfit
  obtain ⟨-, -, -, hjob⟩ := packJob_cases w ha
  have hlen : (pack (valueWords (s.readBuffer L.src)) w).1.length = ceilDiv (L.src.len / 4 * w) 8 := by simp
  refine ⟨fun k hk => s.valueWords_readBuffer L.src hk, packJob w L s, State.withLatch_of_latch h.latch _, ?_⟩
  rw [hjob ho, ← hlen]
  exact h.deliver (by constructor <;> intro r <;> rfl) (hlen.trans_le hfit)

/-- Settles O27: the job of UNPACK delivers the bytes of the value words. -/
theorem unpackWritesTheValueWords : Obligations.UnpackWritesTheValueWords := by
  intro w s L h ha ho hfit
  obtain ⟨-, -, hjob⟩ := unpackJob_cases w ha
  have hlen : (wordBytes (unpack (s.readBuffer L.src) L.args.nbitsIn.toNat w)).length = 4 * (L.args.nbitsIn.toNat / w) := by simp
  refine ⟨unpackJob w L s, State.withLatch_of_latch h.latch _, ?_⟩
  rw [hjob ho, ← hlen]
  refine have hends := h.deliver ?own (hlen.trans_le hfit)
    ⟨hends.1, fun k v hv => hends.1.bytes.valueWord hv, hends.2⟩
  constructor <;> intro r <;> rfl

/-! ### The commands' own argument checks (R155, R156, R240, R243) -/

/-- A command whose first step raises ends in that job failure, whether or not it has workers. -/
theorem JustStarted.exec_of_jobFail {s : State} {L : Latch} {i : Instr} {r : Raise} (h : JustStarted s L)
    (hf : firstStep i L s = s.jobFail r) :
    ∃ t, exec i s = .next t ∧ JobFailed s t r ∧ t.res = {} ∧ MemoryKept s t :=
  ⟨s.jobFail r, hf ▸ exec_of_completed h.latch (hf ▸ s.jobFail_completed r), h.jobFail r⟩

theorem parEncStart_of_zero {ext : Bool} {s : State} {L : Latch} (ha : ArgsPass s L ext) :
    parEncStart 0 ext L s = .error (badArgs 1 0) := by
  simp [parEncStart, (argFault_eq_none s L ext).2 ha]

theorem parDecStart_of_long_ext {ext : Bool} {s : State} {L : Latch} (ha : ArgsPass s L false)
    (hext : ext = true ∧ L.src.len < L.ext.len) : parDecStart ext L s = .error (badArgs 5 0) := by
  simp only [parDecStart, (argFault_eq_none s L false).2 ha, if_pos hext]

/-- Settles O33: each check is made in the command's first step, and its raise is the job failure. -/
theorem ownArgumentChecks : Obligations.OwnArgumentChecks := by
  intro s L w n ext h
  refine ⟨fun ha => ?_, fun ha => h.exec_of_jobFail (congrArg s.orFail (parEncStart_of_zero ha))⟩
  obtain ⟨pWidth, pLen, pBits, -⟩ := packJob_cases w ha
  obtain ⟨uWidth, uBits, -⟩ := unpackJob_cases w ha
  exact ⟨fun hw => ⟨h.exec_of_jobFail (pWidth hw), h.exec_of_jobFail (uWidth hw)⟩,
    fun hw h4 => h.exec_of_jobFail (pLen hw h4),
    fun hw h4 hmax => h.exec_of_jobFail (pBits hw h4 hmax),
    fun hw hlen => h.exec_of_jobFail (uBits hw hlen),
    fun hext => h.exec_of_jobFail (congrArg s.orFail (parDecStart_of_long_ext ha hext))⟩

end Sys2Proof.Machine
end

section
/-! PROOF. The sessions of the codec. `EncSession.Scanned` is what an encode session keeps at every capacity, and `DecSession.Scanned` what a
decode session keeps. `Mirrors` is the lockstep of R198: a decoder that has read the emitted codes is one dictionary entry behind the
encoder, and reading the code of the match (`Mirrors.unit_cur`) gives it that entry. -/

namespace Sys2Proof.Machine

/-! ### Codes and sequences (R69, R70) -/

theorem getElem?_codeOf {dict : List (List Byte)} {seq : List Byte} (h : seq ∈ dict) : dict[codeOf dict seq]? = some seq :=
  List.getElem?_idxOf h

theorem getElem?_eq_seqOf {dict : List (List Byte)} {k : Nat} (h : k < dict.length) : dict[k]? = some (seqOf dict k) := by
  rw [seqOf, List.getD_eq_getElem _ _ h, List.getElem?_eq_getElem h]

theorem seqOf_codeOf {dict : List (List Byte)} {seq : List Byte} (h : seq ∈ dict) : seqOf dict (codeOf dict seq) = seq :=
  Option.some.inj ((getElem?_eq_seqOf (codeOf_lt h)).symm.trans (getElem?_codeOf h))

/-- An entry before the last is that of the shorter dictionary. -/
theorem seqOf_append_of_lt {dict : List (List Byte)} {seq : List Byte} {k : Nat} (h : k < dict.length) :
    seqOf (dict ++ [seq]) k = seqOf dict k := List.getD_append _ _ _ _ h

theorem seqOf_append_length (dict : List (List Byte)) (seq : List Byte) : seqOf (dict ++ [seq]) dict.length = seq := by
  simp [seqOf]

theorem seqOf_seedDict {k : Nat} (h : k < 256) : seqOf seedDict k = [byteOf k] := by
  have hlen : k < seedDict.length := by simpa using h
  rw [seqOf, List.getD_eq_getElem _ _ hlen, seedDict_getElem k hlen]

theorem seedDict_nodup : seedDict.Nodup := by
  refine List.nodup_range.map_on fun a ha b hb hab => ?_
  have hbytes := congrArg BitVec.toNat (List.singleton_inj.1 hab)
  simpa [byteOf, Nat.mod_eq_of_lt (List.mem_range.1 ha), Nat.mod_eq_of_lt (List.mem_range.1 hb)] using hbytes

/-! ### An encode session, byte after byte (R180 to R187) -/

/-- One more byte is one more unit of the session. -/
theorem EncSession.run_snoc {cap : Nat} {before : List Byte} {e₀ e : EncSession} (h : EncSession.run cap before e₀ = .ok e)
    (c : Byte) : EncSession.run cap (before ++ [c]) e₀ = e.unit cap c := by
  rw [EncSession.run_append, h, Except.bind, EncSession.run_cons]
  cases e.unit cap c <;> rfl

/-- What holds of a fresh session and is kept by every unit holds of the session of any bytes. -/
theorem EncSession.run_induction {cap : Nat} {P : List Byte → EncSession → Prop} (start : P [] EncSession.start)
    (unit : ∀ {before e c e'}, P before e → e.unit cap c = .ok e' → P (before ++ [c]) e') {input : List Byte} {e : EncSession}
    (h : EncSession.start.run cap input = .ok e) : P input e := by
  induction input using List.reverseRecOn generalizing e with
  | nil => cases h; exact start
  | append_singleton before c ih =>
    cases hb : EncSession.start.run cap before with
    | error r => rw [EncSession.run_append, hb] at h; cases h
    | ok e₁ => rw [EncSession.run_snoc hb] at h; exact unit (ih hb) h

/-- A unit that succeeds does so at any capacity that its dictionary has not reached. -/
theorem EncSession.unit_of_room {cap cap' : Nat} {c : Byte} {e e' : EncSession} (h : e.unit cap c = .ok e')
    (hroom : e.dict.length ≠ cap') : e.unit cap' c = .ok e' := by
  rcases e.unit_cases cap c with ⟨hmem, hu⟩ | ⟨-, -, hu⟩ | ⟨hmem, -, hu⟩ <;> rw [hu] at h <;> cases h
  · simp [EncSession.unit, hmem]
  · simp [EncSession.unit, hmem, hroom]

/-- What `EncSession.Fits` says apart from the capacity is kept by the units of any session. -/
theorem EncSession.Fits.unit_at_own_size {cap : Nat} {c : Byte} {e e' : EncSession} (h : e.Fits e.dict.length)
    (hu : e.unit cap c = .ok e') : e'.Fits e'.dict.length :=
  have hroom : e.Fits (e.dict.length + 1) := { h with capacity := Nat.le_succ _ }
  { hroom.unit (EncSession.unit_of_room hu (Nat.succ_ne_self _).symm) with capacity := le_rfl }

/-- A match that ends is not empty: every single byte is in the dictionary. -/
theorem EncSession.Fits.cur_ne_nil {cap : Nat} {e : EncSession} (h : e.Fits cap) {c : Byte} (hc : e.cur ++ [c] ∉ e.dict) :
    e.cur ≠ [] := by
  intro hnil
  exact hc (by simpa [hnil] using h.seeded c)

/-- What the encode session of the bytes `before` holds, whatever the capacity: no sequence has two codes, each code emitted has added
one, a match is under way once there is a byte, and all but one of the bytes can have ended one. -/
structure EncSession.Scanned (before : List Byte) (e : EncSession) : Prop where
  fits : e.Fits e.dict.length
  nodup : e.dict.Nodup
  size : e.dict.length = 256 + e.codes.length
  begun : e.cur = [] ↔ before = []
  short : e.codes.length ≤ before.length - 1

theorem EncSession.start_scanned : EncSession.start.Scanned [] where
  fits := EncSession.start_fits seedDict_length.ge
  nodup := seedDict_nodup
  size := seedDict_length
  begun := by simp [EncSession.start]
  short := Nat.zero_le _

theorem EncSession.Scanned.unit {cap : Nat} {before : List Byte} {c : Byte} {e e' : EncSession} (h : e.Scanned before)
    (hu : e.unit cap c = .ok e') : e'.Scanned (before ++ [c]) := by
  have hfits := h.fits.unit_at_own_size hu
  have hshort := h.short
  rcases e.unit_cases cap c with ⟨-, hu'⟩ | ⟨-, -, hu'⟩ | ⟨hmem, -, hu'⟩ <;> rw [hu'] at hu <;> cases hu
  · exact ⟨hfits, h.nodup, h.size, by simp, by simp; omega⟩
  · have hbefore : 0 < before.length := List.length_pos_of_ne_nil (mt h.begun.2 (h.fits.cur_ne_nil hmem))
    exact {
      fits := hfits
      nodup := List.concat_eq_append ▸ List.Nodup.concat hmem h.nodup
      size := by simp [h.size]; omega
      begun := by simp
      short := by simp; omega }

theorem EncSession.scanned_of_run {cap : Nat} {input : List Byte} {e : EncSession} (h : EncSession.start.run cap input = .ok e) :
    e.Scanned input := EncSession.run_induction EncSession.start_scanned (fun hs hu => hs.unit hu) h

theorem EncSession.flushed_of_nil {e : EncSession} (h : e.cur = []) : e.flushed = e.codes := if_pos h

theorem EncSession.flushed_of_ne_nil {e : EncSession} (h : e.cur ≠ []) : e.flushed = e.codes ++ [codeOf e.dict e.cur] := if_neg h

theorem lzwEncode_of_run {cap : Nat} {input : List Byte} {e : EncSession} (h : EncSession.start.run cap input = .ok e) :
    lzwEncode cap input = .ok (e.flushed, e.dict.length) := by simp [lzwEncode, h]

/-- An encode that succeeds is a session that does, flushed (R183). -/
theorem lzwEncode_eq_ok {cap size : Nat} {input : List Byte} {codes : List Nat} (h : lzwEncode cap input = .ok (codes, size)) :
    ∃ e, EncSession.start.run cap input = .ok e ∧ codes = e.flushed ∧ size = e.dict.length := by
  unfold lzwEncode at h
  split at h
  next => cases h
  next e he => cases h; exact ⟨e, he, rfl, rfl⟩

theorem lzwEncode_eq_error_iff {cap : Nat} {input : List Byte} {r : Raise} :
    lzwEncode cap input = .error r ↔ EncSession.start.run cap input = .error r := by
  unfold lzwEncode
  cases EncSession.start.run cap input <;> simp

/-! ### A decode session, code after code (R191 to R197) -/

/-- What a decode session holds: each code but the first has added an entry, no entry is empty, and after the first code there is a
previous sequence. -/
structure DecSession.Scanned (d : DecSession) : Prop where
  size : d.dict.length = 256 + (d.pos - 1)
  entries : ∀ seq ∈ d.dict, seq ≠ []
  begun : d.pos ≠ 0 → d.prev ≠ []

theorem DecSession.start_scanned (codes : List Nat) (nbits width : Nat) : (DecSession.start codes nbits width).Scanned where
  size := seedDict_length
  entries := by simp [DecSession.start, seedDict]
  begun := fun h => absurd rfl h

theorem DecSession.Scanned.seqOf_ne_nil {d : DecSession} (h : d.Scanned) {k : Nat} (hk : k < d.dict.length) : seqOf d.dict k ≠ [] :=
  h.entries _ (List.mem_of_getElem? (getElem?_eq_seqOf hk))

theorem DecSession.Scanned.unit {cap k : Nat} {d d' : DecSession} (h : d.Scanned) (hu : d.unit cap k = .ok d') : d'.Scanned := by
  have hsize := h.size
  by_cases hp : d.pos = 0
  · rcases d.unit_first cap k hp with ⟨-, hu'⟩ | ⟨hk, hu'⟩ <;> rw [hu'] at hu <;> cases hu
    exact ⟨by simp only; omega, h.entries, fun _ => h.seqOf_ne_nil (by omega)⟩
  · rcases d.unit_later cap k hp with ⟨-, hu'⟩ | ⟨-, -, hu'⟩ | ⟨-, -, seq, hseq, hu'⟩ <;> rw [hu'] at hu <;> cases hu
    have hprev := h.begun hp
    refine ⟨by simp only [List.length_append, List.length_singleton]; omega, fun x hx => ?_, fun _ => ?_⟩
    · rcases List.mem_append.1 hx with hx | hx
      · exact h.entries x hx
      · simp [List.mem_singleton.1 hx, hprev]
    · rcases hseq with ⟨hk, rfl⟩ | ⟨-, rfl⟩
      · exact h.seqOf_ne_nil hk
      · simp [hprev]

/-- What every unit of a decode session keeps holds after any of its codes. -/
theorem DecSession.run_induction {cap : Nat} {P : DecSession → Prop} (unit : ∀ {d k d'}, P d → d.unit cap k = .ok d' → P d')
    {ks : List Nat} {d d' : DecSession} (h : P d) (hr : DecSession.run cap ks d = .ok d') : P d' := by
  induction ks generalizing d with
  | nil => cases hr; exact h
  | cons k ks ih =>
    rw [DecSession.run_cons] at hr
    cases hu : d.unit cap k with
    | error r => rw [hu] at hr; cases hr
    | ok d₁ => rw [hu] at hr; exact ih (unit h hu) hr

theorem DecSession.Scanned.run {cap : Nat} {ks : List Nat} {d d' : DecSession} (h : d.Scanned)
    (hr : DecSession.run cap ks d = .ok d') : d'.Scanned := DecSession.run_induction Scanned.unit h hr

/-- A decode session only appends to its dictionary. -/
theorem DecSession.unit_prefix {cap k : Nat} {d d' : DecSession} (hu : d.unit cap k = .ok d') : d.dict <+: d'.dict := by
  by_cases hp : d.pos = 0
  · rcases d.unit_first cap k hp with ⟨-, hu'⟩ | ⟨-, hu'⟩ <;> rw [hu'] at hu <;> cases hu
    exact List.prefix_rfl
  · rcases d.unit_later cap k hp with ⟨-, hu'⟩ | ⟨-, -, hu'⟩ | ⟨-, -, seq, -, hu'⟩ <;> rw [hu'] at hu <;> cases hu
    exact List.prefix_append _ _

theorem DecSession.run_prefix {cap : Nat} {ks : List Nat} {d d' : DecSession} (hr : DecSession.run cap ks d = .ok d') :
    d.dict <+: d'.dict :=
  DecSession.run_induction (P := fun x => d.dict <+: x.dict) (fun h hu => h.trans (DecSession.unit_prefix hu)) List.prefix_rfl hr

/-- The units of a session that succeeds, cut in two. -/
theorem DecSession.run_append_eq_ok {cap : Nat} {xs ys : List Nat} {d d' : DecSession} :
    DecSession.run cap (xs ++ ys) d = .ok d' ↔ ∃ d₁, DecSession.run cap xs d = .ok d₁ ∧ DecSession.run cap ys d₁ = .ok d' := by
  rw [DecSession.run_append]
  cases DecSession.run cap xs d <;> simp [Except.bind]

/-- A session that succeeds has passed, after any number of its codes, a dictionary that begins its last one. -/
theorem DecSession.run_take {cap : Nat} {ks : List Nat} {d d' : DecSession} (h : DecSession.run cap ks d = .ok d') (n : Nat) :
    ∃ d₁, DecSession.run cap (ks.take n) d = .ok d₁ ∧ d₁.dict <+: d'.dict := by
  rw [← List.take_append_drop n ks] at h
  obtain ⟨d₁, hd, hrest⟩ := DecSession.run_append_eq_ok.1 h
  exact ⟨d₁, hd, DecSession.run_prefix hrest⟩

theorem DecSession.run_singleton (cap k : Nat) (d : DecSession) : DecSession.run cap [k] d = d.unit cap k := by
  rw [DecSession.run_cons]
  cases d.unit cap k <;> rfl

theorem lzwDecode_of_run {cap : Nat} {codes : List Nat} {d : DecSession} (h : (DecSession.start codes 0 0).run cap codes = .ok d) :
    lzwDecode cap codes = .ok (d.out, d.dict.length) := by simp [lzwDecode, h]

/-! ### Lockstep (R198) -/

/-- The decode session `d` has read the codes that the encode session `e` of the bytes `before` has emitted: with the match they make up
the bytes, and after the first code the encoder has one entry more, the previous sequence and the first byte of the match. -/
structure Mirrors (before : List Byte) (e : EncSession) (d : DecSession) : Prop where
  text : d.out ++ e.cur = before
  fresh : d.pos = 0 → d.dict = e.dict ∧ e.dict.length = 256 ∧ d.out = []
  behind : d.pos ≠ 0 → e.dict = d.dict ++ [d.prev ++ e.cur.take 1] ∧ d.prev ≠ [] ∧ e.cur ≠ []

/-- The KwKwK case: where the match is the entry that the decoder lacks, its first byte is that of the previous sequence. -/
theorem append_take_one_of_eq {prev cur : List Byte} (hp : prev ≠ []) (h : prev ++ cur.take 1 = cur) : prev ++ prev.take 1 = cur := by
  have hfirst : cur.take 1 = prev.take 1 := by
    rw [← h, List.take_append_of_le_length (List.length_pos_of_ne_nil hp)]
  rw [← hfirst, h]

/-- The entry that the decoder finds for the code of the match is the match (R193, R194). -/
theorem Mirrors.entry_eq_cur {before : List Byte} {e : EncSession} {d : DecSession} (h : Mirrors before e d) (hp : d.pos ≠ 0)
    (hmem : e.cur ∈ e.dict) {seq : List Byte} (hseq : codeOf e.dict e.cur < d.dict.length ∧ seq = seqOf d.dict (codeOf e.dict e.cur) ∨
      codeOf e.dict e.cur = d.dict.length ∧ seq = d.prev ++ d.prev.take 1) : seq = e.cur := by
  obtain ⟨hdict, hprev, -⟩ := h.behind hp
  have hcur := seqOf_codeOf hmem
  generalize codeOf e.dict e.cur = k at hcur hseq
  rw [hdict] at hcur
  rcases hseq with ⟨hk, rfl⟩ | ⟨rfl, rfl⟩
  · rwa [seqOf_append_of_lt hk] at hcur
  · rw [seqOf_append_length] at hcur
    exact append_take_one_of_eq hprev hcur

/-- Reading the code of the match, the decoder raises nothing, catches up with the encoder's dictionary and has put out all the bytes. -/
theorem Mirrors.unit_cur {cap : Nat} {before : List Byte} {e : EncSession} {d : DecSession} (h : Mirrors before e d) (hf : e.Fits cap)
    (hmem : e.cur ∈ e.dict) :
    ∃ d', d.unit cap (codeOf e.dict e.cur) = .ok d' ∧ d'.dict = e.dict ∧ d'.prev = e.cur ∧ d'.out = before := by
  have hlt := codeOf_lt hmem
  have htext := h.text
  by_cases hp : d.pos = 0
  · obtain ⟨hdict, hlen, hout⟩ := h.fresh hp
    rcases d.unit_first cap (codeOf e.dict e.cur) hp with ⟨hbad, -⟩ | ⟨-, hu⟩
    · omega
    · have hseq : seqOf d.dict (codeOf e.dict e.cur) = e.cur := by rw [hdict, seqOf_codeOf hmem]
      exact ⟨_, hu, hdict, hseq, by simpa [hout, hseq] using htext⟩
  · obtain ⟨hdict, -, -⟩ := h.behind hp
    have hlen : e.dict.length = d.dict.length + 1 := by rw [hdict]; simp
    have hcap := hf.capacity
    rcases d.unit_later cap (codeOf e.dict e.cur) hp with ⟨hbad, -⟩ | ⟨-, hfull, -⟩ | ⟨-, -, seq, hseq, hu⟩
    · omega
    · omega
    · obtain rfl := h.entry_eq_cur hp hmem hseq
      exact ⟨_, hu, hdict.symm, rfl, htext⟩

/-- Every unit of the encoder that emits no code keeps the lockstep; one that does is followed by the decoder's unit on that code. -/
theorem Mirrors.unit {cap : Nat} {before : List Byte} {c : Byte} {e e' : EncSession} {d₀ d : DecSession} (h : Mirrors before e d)
    (hf : e.Fits cap) (hr : DecSession.run cap e.codes d₀ = .ok d) (hu : e.unit cap c = .ok e') :
    ∃ d', DecSession.run cap e'.codes d₀ = .ok d' ∧ Mirrors (before ++ [c]) e' d' := by
  rcases e.unit_cases cap c with ⟨-, hu'⟩ | ⟨-, -, hu'⟩ | ⟨hmem, -, hu'⟩ <;> rw [hu'] at hu <;> cases hu
  · refine ⟨d, hr, by rw [← h.text, List.append_assoc], h.fresh, fun hp => ?_⟩
    obtain ⟨hdict, hprev, hcur⟩ := h.behind hp
    refine ⟨?_, hprev, by simp⟩
    rw [List.take_append_of_le_length (List.length_pos_of_ne_nil hcur)]
    exact hdict
  · obtain ⟨d', hd, hdict, hprev, hout⟩ := h.unit_cur hf (hf.cur_mem hmem)
    have hpos := (DecSession.unit_frame hd).1
    refine ⟨d', DecSession.run_append_eq_ok.2 ⟨d, hr, (DecSession.run_singleton ..).trans hd⟩, ?_⟩
    exact {
      text := by rw [hout]
      fresh := fun hp => by omega
      behind := fun _ => ⟨by rw [hdict, hprev]; rfl, hprev ▸ hf.cur_ne_nil hmem, by simp⟩ }

/-- A decoder with the frame codes `codes` can read what the encode session `e` of the bytes `before` has emitted, and is then in lockstep
with it. -/
def EncSession.Followed (cap : Nat) (codes : List Nat) (before : List Byte) (e : EncSession) : Prop :=
  e.Fits cap ∧ ∃ d, DecSession.run cap e.codes (DecSession.start codes 0 0) = .ok d ∧ Mirrors before e d

theorem EncSession.start_followed {cap : Nat} (hcap : 256 ≤ cap) (codes : List Nat) : EncSession.start.Followed cap codes [] :=
  ⟨EncSession.start_fits hcap, _, rfl, rfl, fun _ => ⟨rfl, seedDict_length, rfl⟩, fun hp => absurd rfl hp⟩

theorem EncSession.Followed.unit {cap : Nat} {codes : List Nat} {before : List Byte} {c : Byte} {e e' : EncSession}
    (h : e.Followed cap codes before) (hu : e.unit cap c = .ok e') : e'.Followed cap codes (before ++ [c]) :=
  have ⟨hf, _, hr, hm⟩ := h
  ⟨hf.unit hu, hm.unit hf hr hu⟩

theorem EncSession.followed_of_run {cap : Nat} (hcap : 256 ≤ cap) {input : List Byte} {e : EncSession} (codes : List Nat)
    (h : EncSession.start.run cap input = .ok e) : e.Followed cap codes input :=
  EncSession.run_induction (EncSession.start_followed hcap codes) (fun hf hu => hf.unit hu) h

/-- On the codes of an encode the decoder raises nothing, puts out the input and ends with the encoder's dictionary (R198). -/
theorem decoder_run_flushed {cap : Nat} (hcap : 256 ≤ cap) {input : List Byte} {e : EncSession} (codes : List Nat)
    (h : EncSession.start.run cap input = .ok e) :
    ∃ d, DecSession.run cap e.flushed (DecSession.start codes 0 0) = .ok d ∧ d.out = input ∧ d.dict = e.dict := by
  obtain ⟨hf, d, hr, hm⟩ := EncSession.followed_of_run hcap codes h
  by_cases hcur : e.cur = []
  · have hp : d.pos = 0 := by
      by_contra hp
      exact (hm.behind hp).2.2 hcur
    exact ⟨d, by rw [EncSession.flushed_of_nil hcur, hr], by simpa [hcur] using hm.text, (hm.fresh hp).1⟩
  · obtain ⟨d', hd, hdict, -, hout⟩ := hm.unit_cur hf (hf.matched.resolve_left hcur)
    refine ⟨d', ?_, hout, hdict⟩
    rw [EncSession.flushed_of_ne_nil hcur]
    exact DecSession.run_append_eq_ok.2 ⟨d, hr, (DecSession.run_singleton ..).trans hd⟩

/-- Decoding the codes of an encode gives the bytes back and the encoder's final size, the empty input included. -/
theorem lzwDecode_of_lzwEncode {cap size : Nat} (hcap : 256 ≤ cap) {input : List Byte} {codes : List Nat}
    (h : lzwEncode cap input = .ok (codes, size)) : lzwDecode cap codes = .ok (input, size) := by
  obtain ⟨e, he, rfl, rfl⟩ := lzwEncode_eq_ok h
  obtain ⟨d, hd, hout, hdict⟩ := decoder_run_flushed hcap e.flushed he
  rw [lzwDecode_of_run hd, hout, hdict]

/-- Settles O49: each dictionary of the decoder begins its last one, which is the encoder's, and is as long as R198 says. -/
theorem decoderMirrorsTheEncoder : Obligations.DecoderMirrorsTheEncoder := by
  intro cap input e hcap he _
  refine ⟨fun j hj => ?_, lzwDecode_of_lzwEncode hcap (lzwEncode_of_run he)⟩
  obtain ⟨last, hrun, -, hdict⟩ := decoder_run_flushed hcap e.flushed he
  obtain ⟨d, hd, hprefix⟩ := DecSession.run_take hrun (j + 1)
  rw [hdict] at hprefix
  have hpos : d.pos = j + 1 := by
    rw [(DecSession.run_frame hd).1, List.length_take_of_le hj]
    exact Nat.zero_add _
  have hlen : d.dict.length = 256 + j := by
    rw [((DecSession.start_scanned _ 0 0).run hd).size, hpos, Nat.add_sub_cancel]
  exact ⟨d, hd, hlen ▸ List.prefix_iff_eq_take.1 hprefix⟩

/-! ### What the codec answers (R180 to R197) -/

theorem EncSession.scan_pos {cap : Nat} {before : List Byte} {e : EncSession} (h : EncSession.start.run cap before = .ok e) :
    e.pos = before.length := (EncSession.run_pos h).trans (Nat.zero_add _)

/-- Settles O43: what the session of the bytes holds, and the one code of the flush. -/
theorem encodeSizesAndCodeBounds : Obligations.EncodeSizesAndCodeBounds := by
  intro cap input codes size h
  obtain ⟨e, he, rfl, rfl⟩ := lzwEncode_eq_ok h
  have hs := EncSession.scanned_of_run he
  refine ⟨?_, fun hne => ?_⟩
  · rintro rfl
    cases he
    exact ⟨rfl, seedDict_length⟩
  · have hsize := hs.size
    have hshort := hs.short
    have hlen := List.length_pos_of_ne_nil hne
    have hflushed : e.flushed.length = e.codes.length + 1 := by
      rw [EncSession.flushed_of_ne_nil (mt hs.begun.1 hne), List.length_append, List.length_singleton]
    exact ⟨by omega, fun k => hs.fits.flushed_lt, by omega⟩

/-- An encode raises exactly where a byte does not extend the match and the dictionary is full, and raises DICT_OVERFLOW (R187). -/
theorem lzwEncode_error_iff (cap : Nat) (input : List Byte) (r : Raise) : lzwEncode cap input = .error r ↔
    ∃ (c : Byte) (e : EncSession), input[r.pos]? = some c ∧ EncSession.start.run cap (input.take r.pos) = .ok e ∧
      e.dict.length = cap ∧ e.cur ++ [c] ∉ e.dict ∧ r.cause = .dictOverflow ∧ r.info = cap := by
  rw [lzwEncode_eq_error_iff]
  constructor
  · intro h
    obtain ⟨before, c, after, e, rfl, he, hu⟩ := EncSession.run_error h
    have hpos : e.pos = before.length := EncSession.scan_pos he
    rcases e.unit_cases cap c with ⟨-, hu'⟩ | ⟨hmem, hfull, hu'⟩ | ⟨-, -, hu'⟩ <;> rw [hu'] at hu <;> cases hu
    exact ⟨c, e, by simp [hpos], by simpa [hpos] using he, hfull, hmem, rfl, rfl⟩
  · rintro ⟨c, e, hc, he, hfull, hmem, hcause, hinfo⟩
    obtain ⟨hlt, rfl⟩ := List.getElem?_eq_some_iff.1 hc
    have hpos : e.pos = r.pos := by rw [EncSession.scan_pos he, List.length_take_of_le hlt.le]
    have hu : e.unit cap input[r.pos] = .error r := by
      simp only [EncSession.unit, if_neg hmem, if_pos hfull, hpos, ← hcause]
      rw [← hinfo]
    rw [← List.take_append_drop r.pos input, EncSession.run_append, he, List.drop_eq_getElem_cons hlt, Except.bind,
      EncSession.run_cons, hu]
    rfl

/-- Settles O44: the cases of a unit on the session of the bytes before it, and the flush. -/
theorem encodeOverflowsOnlyAtCapacity : Obligations.EncodeOverflowsOnlyAtCapacity := by
  refine ⟨lzwEncode_error_iff, rfl, fun cap before e he => ?_⟩
  have hs := EncSession.scanned_of_run he
  refine ⟨EncSession.scan_pos he, hs.nodup, fun c hmem => ?grows, fun c hmem hroom => ?ends, fun hcur => ?empty, fun hcur => ?flush⟩
  case grows => rw [EncSession.run_snoc he, EncSession.unit, if_pos hmem]
  case ends =>
    refine ⟨_, getElem?_codeOf (hs.fits.cur_mem hmem), ?_⟩
    rw [EncSession.run_snoc he, EncSession.unit, if_neg hmem, if_neg hroom]
  case empty => rw [lzwEncode_of_run he, EncSession.flushed_of_nil hcur]
  case flush =>
    refine ⟨_, getElem?_codeOf (hs.fits.matched.resolve_left hcur), ?_⟩
    rw [lzwEncode_of_run he, EncSession.flushed_of_ne_nil hcur]

theorem lzwDecode_of_unit_error {cap k : Nat} {before after : List Nat} {d : DecSession} {r : Raise}
    (hd : (DecSession.start (before ++ k :: after) 0 0).run cap before = .ok d) (hu : d.unit cap k = .error r) :
    lzwDecode cap (before ++ k :: after) = .error r := by
  simp [lzwDecode, DecSession.run_append, hd, Except.bind, DecSession.run_cons, hu]

/-- Settles O47: the cases of a unit, at the first code and at a later one. -/
theorem decoderJudgesEachCode : Obligations.DecoderJudgesEachCode := by
  intro cap before after k d
  have hfirst := (DecSession.start (k :: after) 0 0).unit_first cap k rfl
  refine ⟨?none, fun hk => ?bad, fun hk => ?first, lzwDecode_of_run, fun hne hd => ?later⟩
  case none => rw [lzwDecode_of_run rfl, DecSession.start, seedDict_length]
  case bad =>
    rcases hfirst with ⟨-, hu⟩ | ⟨hlt, -⟩
    · exact lzwDecode_of_unit_error (before := []) rfl hu
    · omega
  case first =>
    rcases hfirst with ⟨hbad, -⟩ | ⟨-, hu⟩
    · omega
    · have hseq : seqOf (DecSession.start (k :: after) 0 0).dict k = [byteOf k] := seqOf_seedDict hk
      rw [DecSession.run_singleton, hu, hseq]
      rfl
  case later =>
    have hpos : d.pos = before.length := (DecSession.run_frame hd).1.trans (Nat.zero_add _)
    have hp : d.pos ≠ 0 := hpos ▸ mt List.length_eq_zero_iff.1 hne
    rw [← hpos]
    rcases d.unit_later cap k hp with ⟨hbad, hu⟩ | ⟨hk, hfull, hu⟩ | ⟨hk, hroom, seq, hseq, hu⟩
    · exact ⟨fun _ => lzwDecode_of_unit_error hd hu, fun h => by omega, fun h => by omega⟩
    · exact ⟨fun h => by omega, fun _ _ => lzwDecode_of_unit_error hd hu, fun _ h => absurd hfull h⟩
    · have hrun := DecSession.run_append_eq_ok.2 ⟨d, hd, (DecSession.run_singleton cap k d).trans hu⟩
      have hprev := ((DecSession.start_scanned _ 0 0).run hd).begun hp
      refine ⟨fun h => by omega, fun _ h => absurd h hroom, fun _ _ => ⟨_, hrun, rfl, rfl, rfl, hprev, fun h => ?_, fun h => ?_⟩⟩
      · rcases hseq with ⟨hlt, rfl⟩ | ⟨heq, -⟩
        · exact (getElem?_eq_seqOf hlt).symm
        · omega
      · rcases hseq with ⟨hlt, -⟩ | ⟨-, rfl⟩
        · omega
        · rfl

end Sys2Proof.Machine
end

section
/-! PROOF. Frames that decode again (R199), and the bound of a frame's length (R204). -/

namespace Sys2Proof.Machine

/-- Settles O42: the width is the first that `leastWidth` finds, and `2^8` and `2^31` bound it. -/
theorem bitWidthIsTheLeast : Obligations.BitWidthIsTheLeast := by
  intro s
  exact ⟨le_two_pow_bitWidth s, fun _ => bitWidth_le, fun hlow hhigh => ⟨le_bitWidth (v := 8) hlow, bitWidth_le hhigh⟩⟩

theorem bitWidth_mono {s s' : Nat} (h : s ≤ s') : bitWidth s ≤ bitWidth s' := bitWidth_le (h.trans (le_two_pow_bitWidth s'))

theorem ceilDiv_mono {a a' : Nat} (b : Nat) (h : a ≤ a') : ceilDiv a b ≤ ceilDiv a' b := Nat.div_le_div_right (by omega)

/-- The three parts of a frame, read back: the checks pass, and the codes are those that were packed. -/
theorem readFrame_of_parts {codes : List Nat} {w : Nat} (hw : 1 ≤ w ∧ w ≤ 32) (hcodes : ∀ k ∈ codes, k < 2 ^ w)
    (hbits : codes.length * w < 2 ^ 31) :
    readFrame ((pack codes w).1 ++ le32 (codes.length * w) ++ [byteOf w]) = .ok (codes, codes.length * w, w) := by
  have hlen := frame_length codes w (codes.length * w)
  have hpacked := pack_bytes_length codes w
  have hunpack := (unpackOfPack codes w hw.1 hw.2).2 hcodes
  have hfield := rdLE32_le32 (pack codes w).1 [byteOf w] (codes.length * w)
  rw [pack_totalBits] at hunpack
  generalize hf : (pack codes w).1 ++ le32 (codes.length * w) ++ [byteOf w] = f at hlen hfield
  have hpre : f.length - 5 = (pack codes w).1.length := by rw [hlen, hpacked, Nat.add_sub_cancel]
  have hwidth : (f.getD (f.length - 1) 0).toNat = w := by
    have hlast : f.getD (f.length - 1) 0 = byteOf w := by
      rw [List.getD_eq_getElem?_getD, ← List.getLast?_eq_getElem?, ← hf, List.getLast?_concat, Option.getD_some]
    rw [hlast, byteOf, BitVec.toNat_ofNat, Nat.mod_eq_of_lt (by omega)]
  have hbitcount : rdLE32 f (f.length - 5) = codes.length * w := by
    rw [hpre, hfield, Nat.mod_eq_of_lt (by omega)]
  have htake : f.take (f.length - 5) = (pack codes w).1 := by
    rw [hpre, ← hf, List.append_assoc, List.take_left]
  obtain ⟨-, -, -, -, pass⟩ := readFrame_cases f hwidth hbitcount
  rw [pass (by omega) hw hbits ?fits, htake, hunpack]
  case fits =>
    rw [hpre, hpacked]
    exact Nat.not_lt.1 (mt (lt_ceilDiv_eight _ _).2 (lt_irrefl _))

/-- Settles O50: the frame reads back as its codes, which decode to the input. -/
theorem decodeOfEncodedFrame : Obligations.DecodeOfEncodedFrame := by
  intro cap input r hmin hmax h
  obtain ⟨-, -, hframe⟩ := framesHaveTheirTrailer cap input hmin hmax
  obtain ⟨-, -, -, hfit, hlow, hhigh, hlt, -⟩ := hframe r h
  obtain ⟨codes, size, hl, hclose⟩ := encodeFrame_ok h
  rcases closeFrame_cases codes size with ⟨-, hc⟩ | ⟨-, hc⟩ <;> rw [hc] at hclose <;> cases hclose
  simp only at hfit hlow hhigh hlt
  have hread := readFrame_of_parts ⟨by omega, by omega⟩ hlt (by omega)
  rw [decodeFrame_of_read hread, lzwDecode_of_lzwEncode hmin hl]
  rfl

/-- Settles O46: at most one code a byte, each of the width of a size that grows with the codes. -/
theorem frameLengthBound : Obligations.FrameLengthBound := by
  intro cap input r hne h
  obtain ⟨codes, size, hl, hclose⟩ := encodeFrame_ok h
  obtain ⟨hsize, -, hshort⟩ := (encodeSizesAndCodeBounds cap input codes size hl).2 hne
  rcases closeFrame_cases codes size with ⟨-, hc⟩ | ⟨-, hc⟩ <;> rw [hc] at hclose <;> cases hclose
  have hwidth : bitWidth size ≤ bitWidth (255 + input.length) := bitWidth_mono (by omega)
  refine ⟨hshort, hwidth, ?_⟩
  rw [frame_length]
  exact Nat.add_le_add_right (ceilDiv_mono 8 (Nat.mul_le_mul hshort hwidth)) 5

end Sys2Proof.Machine
end

section
/-! PROOF. LZW_ENC and LZW_DEC. `WorkersEnded.deliver` says what an output that is delivered after the workers leaves of their records;
a single-chunk command has one record, that of its session. -/

namespace Sys2Proof.Machine

/-! ### An output delivered after the workers (R201, R202, R240, R243) -/

/-- The workers of a command write no result register but PROGRESS and the records of the chunks. -/
theorem JustStarted.afterWorkers_res {s : State} {L : Latch} (h : JustStarted s L) (i : Instr) : (s.afterWorkers L i).res = {
    progress := (s.afterWorkers L i).res.progress
    chunkCount := (s.afterWorkers L i).res.chunkCount
    failCount := (s.afterWorkers L i).res.failCount
    chunkCause := (s.afterWorkers L i).res.chunkCause
    chunkSize := (s.afterWorkers L i).res.chunkSize } := by
  unfold State.afterWorkers
  split
  · simp [h.res]
  · rw [State.runWorkers_res]
    simp [State.ready, h.res]

/-- No worker records a job failure (R311). -/
theorem State.afterWorkers_jobLevel (s : State) (L : Latch) (i : Instr) :
    (s.afterWorkers L i).status.jobFail = s.status.jobFail ∧ (s.afterWorkers L i).errs.jobCause = s.errs.jobCause := by
  unfold State.afterWorkers
  split
  · exact ⟨rfl, rfl⟩
  · exact ⟨State.runWorkers_status_jobFail .., State.runWorkers_errs_jobCause ..⟩

/-- An output that fits is delivered, and keeps the records of the chunks, the capture and PROGRESS. -/
theorem WorkersEnded.deliver {s : State} {L : Latch} {i : Instr} (h : WorkersEnded s (s.afterWorkers L i) L i) {out : List Byte}
    {regs : Results → Results} (hw : WritesOwn regs) (hfit : out.length ≤ L.dst.len) :
    ∃ t, (s.afterWorkers L i).deliver L out regs = t ∧ Delivered s t L out ∧
      t.res = regs { (s.afterWorkers L i).res with dstLen := BitVec.ofNat 32 out.length } ∧
      ChunksRecorded t (sessionsOf s L i) ∧ CapturedOneOf t (sessionsOf s L i) ∧
      ∀ codec chunk r, codecOf i = some codec → (chunksOf s L i).getLast? = some chunk → (sessionsOf s L i).getLast? = some r →
        ProgressRecorded t codec chunk r := by
  obtain ⟨hjobFail, hjobCause⟩ := s.afterWorkers_jobLevel L i
  generalize s.afterWorkers L i = w at h hjobFail hjobCause
  obtain ⟨hcompleted, hbytes, houtside, hhost, hres, herrs, hstatus, honce, -⟩ := w.deliver_fits L out regs hfit
  generalize w.deliver L out regs = t at *
  have hlen : out.length < 2 ^ 32 := hfit.trans_lt L.args.dstCap.isLt
  refine ⟨t, rfl, ?delivered, hres, ?recorded, ?captured, fun codec chunk r hc hchunk hr => ?progress⟩
  case delivered =>
    exact {
      completed := hcompleted
      dstLen := by rw [hres, hw.dstLen, BitVec.toNat_ofNat, Nat.mod_eq_of_lt hlen]
      bytes := hbytes
      outside := (KeptOutside.of_mem_eq h.mem _).trans houtside
      host := h.host.trans hhost
      jobFail := by rw [hstatus, ← hjobFail]
      jobCause := by rw [herrs, hjobCause] }
  case recorded =>
    exact ⟨by rw [hres, hw.chunkCount]; exact h.recorded.count, by rw [hres, hw.failCount]; exact h.recorded.fails,
      by rw [hres, hw.chunkCause]; exact h.recorded.causes⟩
  case captured => simpa only [CapturedOneOf, herrs, hstatus, honce] using h.captured
  case progress =>
    have hp := h.progress codec chunk r hc hchunk hr
    have hsame : t.res.progress = w.res.progress := by rw [hres, hw.progress]
    cases r <;> simpa only [ProgressRecorded, hsame] using hp

theorem setIfInBounds_of_lt {α : Type} {n : Nat} (xs : Vector α n) {k : Nat} (x : α) (h : k < n) :
    xs.setIfInBounds k x = xs.set k x := by
  refine Vector.ext fun j hj => ?_
  rw [Vector.getElem_setIfInBounds, Vector.getElem_set]

/-! ### The one chunk of LZW_ENC and LZW_DEC -/

/-- The command runs one session of the codec on its source: LZW_ENC an encode, LZW_DEC a decode (R201, R202). -/
def RunsOneChunk (i : Instr) (codec : Codec) : Prop := (i = .lzwEnc ∧ codec = .enc) ∨ (i = .lzwDec ∧ codec = .dec)

theorem RunsOneChunk.codecOf_eq {i : Instr} {codec : Codec} (h : RunsOneChunk i codec) : codecOf i = some codec := by
  rcases h with ⟨rfl, rfl⟩ | ⟨rfl, rfl⟩ <;> rfl

theorem RunsOneChunk.chunksOf_eq {i : Instr} {codec : Codec} (h : RunsOneChunk i codec) (s : State) (L : Latch) :
    chunksOf s L i = [s.readBuffer L.src] := by
  rcases h with ⟨rfl, rfl⟩ | ⟨rfl, rfl⟩ <;> rfl

theorem RunsOneChunk.sessionsOf_eq {i : Instr} {codec : Codec} (h : RunsOneChunk i codec) (s : State) (L : Latch) :
    sessionsOf s L i = [sessionOf codec s.params.dictCapacity (s.readBuffer L.src)] := by
  rw [sessionsOf_of_codec h.codecOf_eq, h.chunksOf_eq, List.map_singleton]

/-- What the last step of a single-chunk command writes, by what the slot of its chunk holds (R201, R202). -/
def oneChunkRegs (sl : Slot) (res : Results) : Results :=
  let sized := { res with chunkSize := res.chunkSize.setIfInBounds 0 (BitVec.ofNat 32 sl.out.length) }
  (sl.info.map sized.ofSession).getD sized

theorem oneChunkRegs_writesOwn (sl : Slot) : WritesOwn (oneChunkRegs sl) := by
  constructor <;> intro res <;> cases h : sl.info <;> simp [oneChunkRegs, h, Results.ofSession]

theorem oneChunkFinish_of_slots {L : Latch} {w : State} {sl : Slot} (h : w.slots = [sl]) :
    oneChunkFinish L w = w.deliver L sl.out (oneChunkRegs sl) := by
  simp only [oneChunkFinish, h, List.head?_cons]
  congr 1
  funext res
  cases hinfo : sl.info <;> simp [oneChunkRegs, hinfo]

/-- A single-chunk command whose arguments pass delivers what its session leaves in the slot. -/
theorem RunsOneChunk.exec_eq {i : Instr} {codec : Codec} (h : RunsOneChunk i codec) {s : State} {L : Latch} (hl : s.latch = some L)
    (ha : ArgsPass s L false) {sl : Slot} (hsl : Slot.settle { input := s.readBuffer L.src }
      (sessionOf codec s.params.dictCapacity (s.readBuffer L.src)) = sl) :
    exec i s = .next ((s.afterWorkers L i).deliver L sl.out (oneChunkRegs sl)) := by
  have hslots : (s.afterWorkers L i).slots = [sl] := by
    rw [State.afterWorkers_of_codec h.codecOf_eq, State.runWorkers_slots_map, h.chunksOf_eq, ← hsl]
    rfl
  have hready : firstStep i L s = s.ready (chunksOf s L i) (stagedOf s L i) := by
    rcases h with ⟨rfl, -⟩ | ⟨rfl, -⟩ <;> exact firstStep_readies rfl ha trivial
  rw [exec_of_ready hl h.codecOf_eq hready, ← State.afterWorkers_of_codec h.codecOf_eq, ← oneChunkFinish_of_slots hslots]
  rcases h with ⟨rfl, -⟩ | ⟨rfl, -⟩ <;> rfl

/-- The records of a single-chunk command's worker when it has ended. -/
theorem RunsOneChunk.workersEnded {i : Instr} {codec : Codec} (h : RunsOneChunk i codec) {s : State} {L : Latch}
    (hs : JustStarted s L) : WorkersEnded s (s.afterWorkers L i) L i := by
  refine hs.workersEnded h.codecOf_eq ?_
  rw [h.chunksOf_eq, List.length_singleton]
  decide

/-- The result registers that one successful session leaves before the output is delivered: CHUNK_COUNT 1 and PROGRESS 65536. -/
theorem RunsOneChunk.res_of_ok {i : Instr} {codec : Codec} (hi : RunsOneChunk i codec) {s : State} {L : Latch} (hs : JustStarted s L)
    {r : CodecResult} (hr : sessionsOf s L i = [.ok r]) : (s.afterWorkers L i).res = { progress := 65536, chunkCount := 1 } := by
  have hw := hi.workersEnded hs
  have hres := hs.afterWorkers_res i
  generalize s.afterWorkers L i = w at hw hres
  obtain ⟨hcount, hfails, hcauses⟩ := hw.recorded
  have hprogress := hw.progress codec (s.readBuffer L.src) (.ok r) hi.codecOf_eq (by rw [hi.chunksOf_eq]; rfl) (by rw [hr]; rfl)
  rw [hr] at hcount hfails hcauses
  have progress : w.res.progress = 65536 := BitVec.eq_of_toNat_eq hprogress
  have chunkCount : w.res.chunkCount = 1 := BitVec.eq_of_toNat_eq hcount
  have failCount : w.res.failCount = 0 := BitVec.eq_of_toNat_eq hfails
  have chunkCause : w.res.chunkCause = Vector.replicate 255 .none := by
    refine Vector.ext fun k hk => ?_
    rw [hcauses k hk, Vector.getElem_replicate]
    cases k <;> rfl
  have chunkSize : w.res.chunkSize = Vector.replicate 255 0 := by
    refine Vector.ext fun k hk => ?_
    rw [hw.sizes k hk, Vector.getElem_replicate]
  rw [hres, progress, chunkCount, failCount, chunkCause, chunkSize]

/-- Where the one session succeeded, nothing is captured (R313). -/
theorem CapturedOneOf.of_ok {t : State} {r : CodecResult} (h : CapturedOneOf t [.ok r]) (hj : t.errs.jobCause = .none) :
    t.errs = {} ∧ t.status.err = false := by
  rcases h with ⟨-, herr, -, hcause, hchunk, hinfo, hpos⟩ | ⟨k, q, hk, -⟩
  · refine ⟨?_, herr⟩
    generalize t.errs = errs at *
    cases errs
    simp_all
  · cases k <;> simp at hk

/-- Where the one session raised, its raise is captured, as that of chunk 0 (R311, R313). -/
theorem CapturedOneOf.of_error {t : State} {r : Raise} (h : CapturedOneOf t [.error r]) (hr : r.cause ≠ .none)
    (hj : t.errs.jobCause = .none) : t.status.err = true ∧
      t.errs = { cause := r.cause, chunk := 0, info := BitVec.ofNat 32 r.info, pos := BitVec.ofNat 32 r.pos, jobCause := .none } := by
  rcases h with ⟨hok, -⟩ | ⟨k, q, hk, herr, -, hcause, hchunk, hinfo, hpos⟩
  · exact absurd (hok _ (List.mem_singleton_self _)) hr
  · obtain ⟨rfl, rfl⟩ : k = 0 ∧ r = q := by cases k <;> simp_all
    refine ⟨herr, ?_⟩
    generalize t.errs = errs at *
    cases errs
    simp_all

/-- Settles O28: the slot of a session that succeeded holds its result and its numbers. -/
theorem singleChunkCommandWritesItsResult : Obligations.SingleChunkCommandWritesItsResult := by
  intro i codec s L r hi hs ha hr hfit
  replace hi : RunsOneChunk i codec := hi
  have hw := hi.workersEnded hs
  have hsessions : sessionsOf s L i = [.ok r] := by rw [hi.sessionsOf_eq, hr]
  obtain ⟨t, ht, hdelivered, hres, -, hcaptured, -⟩ := hw.deliver (oneChunkRegs_writesOwn _) hfit
  refine ⟨t, ?_, hdelivered, ?_, ?_⟩
  · rw [hi.exec_eq hs.latch ha (congrArg _ hr)]
    exact congrArg _ ht
  · rw [hres, hi.res_of_ok hs hsessions]
    simp [oneChunkRegs, Slot.settle, Slot.succeed, Results.ofSession, setIfInBounds_of_lt]
  · exact (hsessions ▸ hcaptured).of_ok (by rw [hdelivered.jobCause, hs.errs])

/-- Settles O29: the slot of a session that raised is empty, and its raise is the one captured. -/
theorem failedSingleChunkLeavesEmptyOutput : Obligations.FailedSingleChunkLeavesEmptyOutput := by
  intro i codec s L r hi hs ha hr
  replace hi : RunsOneChunk i codec := hi
  have hw := hi.workersEnded hs
  have hsessions : sessionsOf s L i = [.error r] := by rw [hi.sessionsOf_eq, hr]
  obtain ⟨t, ht, hdelivered, hres, hrecorded, hcaptured, hprogress⟩ := hw.deliver (oneChunkRegs_writesOwn _) (out := []) (Nat.zero_le _)
  refine ⟨t, ?_, hdelivered, ?_⟩
  · rw [hi.exec_eq hs.latch ha (congrArg _ hr)]
    exact congrArg _ ht
  rw [hsessions] at hrecorded hcaptured hprogress
  have hcause : r.cause ≠ .none := sessionsOf_error_cause (hsessions ▸ List.mem_singleton_self _)
  obtain ⟨herr, herrs⟩ := hcaptured.of_error hcause (by rw [hdelivered.jobCause, hs.errs])
  have hsizes : SizesRecorded t [.error r] := by
    intro k hk
    have hnone : (([.error r] : List (Except Raise CodecResult))[k]?.map fun q => (chunkOutput q).length).getD 0 = 0 := by
      cases k <;> rfl
    rw [hnone, hres]
    refine (Vector.getElem_setIfInBounds ..).trans ?_
    split
    · rfl
    · exact hw.sizes k hk
  have hregs := hs.afterWorkers_res i
  refine ⟨hrecorded, hsizes, hprogress codec _ _ hi.codecOf_eq (by rw [hi.chunksOf_eq]; rfl) rfl, ?_, ?_, ?_, ?_, herr,
    by rw [hdelivered.jobFail, hs.noJobFail], herrs⟩ <;> rw [hres]
  · exact congrArg Results.nbitsOut hregs
  · exact congrArg Results.codeCount hregs
  · exact congrArg Results.dictSize hregs
  · exact congrArg Results.bitWidth hregs

end Sys2Proof.Machine
end

section
/-! PROOF. Chunks and containers, read the other way: the chunks of a split join to the bytes (R231), and each of the checks of
`parseContainer` has its raise, where the frames are what is left (R241). -/

namespace Sys2Proof.Machine

/-! ### split (R230, R231) -/

theorem chunkOf_of_lt (bytes : List Byte) {n i : Nat} (h : i + 1 < n) :
    chunkOf bytes n i = (bytes.drop (i * (bytes.length / n))).take (bytes.length / n) := if_neg h.ne

theorem chunkOf_last (bytes : List Byte) (m : Nat) : chunkOf bytes (m + 1) m = bytes.drop (m * (bytes.length / (m + 1))) := if_pos rfl

@[simp] theorem split_length (bytes : List Byte) (n : Nat) : (split bytes n).length = n := by simp [split]

theorem split_getD (bytes : List Byte) {n i : Nat} (h : i < n) : (split bytes n).getD i [] = chunkOf bytes n i := by
  simp [split, h]

/-- The first `m` pieces of `q` bytes are the first `m * q` bytes. -/
theorem flatten_pieces (bytes : List Byte) (q m : Nat) :
    ((List.range m).map fun i => (bytes.drop (i * q)).take q).flatten = bytes.take (m * q) := by
  induction m with
  | zero => simp
  | succ m ih =>
    rw [List.range_succ, List.map_append, List.flatten_append, ih, Nat.succ_mul, List.take_add]
    simp

theorem split_flatten (bytes : List Byte) {n : Nat} (h : 1 ≤ n) : (split bytes n).flatten = bytes := by
  obtain ⟨m, rfl⟩ : ∃ m, n = m + 1 := ⟨n - 1, by omega⟩
  have hpieces : (List.range m).map (chunkOf bytes (m + 1)) =
      (List.range m).map fun i => (bytes.drop (i * (bytes.length / (m + 1)))).take (bytes.length / (m + 1)) :=
    List.map_congr_left fun i hi => chunkOf_of_lt bytes (Nat.succ_lt_succ (List.mem_range.1 hi))
  rw [split, List.range_succ, List.map_append, List.flatten_append, hpieces, flatten_pieces, List.map_singleton, chunkOf_last]
  simp

/-- Settles O51: the pieces before the last are the first bytes, and the last is the rest. -/
theorem splitChunksJoinToTheBytes : Obligations.SplitChunksJoinToTheBytes := by
  intro bytes n hn
  refine ⟨split_length bytes n, split_flatten bytes hn, fun i hi => ?_, ?_⟩
  · have hfits : (i + 1) * (bytes.length / n) ≤ bytes.length :=
      (Nat.mul_le_mul_right _ hi.le).trans (Nat.mul_div_le bytes.length n)
    rw [Nat.succ_mul] at hfits
    rw [split_getD bytes (by omega), chunkOf_of_lt bytes hi, List.length_take, List.length_drop]
    omega
  · obtain ⟨m, rfl⟩ : ∃ m, n = m + 1 := ⟨n - 1, by omega⟩
    rw [Nat.add_sub_cancel, split_getD bytes m.lt_succ_self, chunkOf_last, List.length_drop]

/-! ### The size table and the frames (R241) -/

/-- A table with no negative entry is its entries. -/
theorem sizeTable_of_small {s : List Byte} {T n i : Nat} (h : ∀ j, i ≤ j → j < i + n → rdLE32 s (T + 4 * j) < 2 ^ 31) :
    sizeTable s T n i = .ok ((List.range' i n).map fun j => rdLE32 s (T + 4 * j)) := by
  induction n generalizing i with
  | zero => rfl
  | succ n ih =>
    have hi := h i (le_refl i) (by omega)
    obtain ⟨hneg, hnat⟩ := sext32_of_lt (rdLE32_lt s (T + 4 * i))
    rw [sizeTable, if_neg (by rw [hneg]; omega), ih fun j hj hlt => h j (by omega) (by omega), hnat hi]
    rfl

/-- The first negative entry of a table is raised, with its index (R242). -/
theorem sizeTable_of_negative {s : List Byte} {T n i k : Nat} (hik : i ≤ k) (hk : k < i + n) (hneg : 2 ^ 31 ≤ rdLE32 s (T + 4 * k))
    (h : ∀ j, i ≤ j → j < k → rdLE32 s (T + 4 * j) < 2 ^ 31) : sizeTable s T n i = .error (malformedContainer 3 k) := by
  induction n generalizing i with
  | zero => omega
  | succ n ih =>
    obtain ⟨hsign, -⟩ := sext32_of_lt (rdLE32_lt s (T + 4 * i))
    rcases hik.eq_or_lt with rfl | hlt
    · rw [sizeTable, if_pos (hsign.2 hneg)]
    · have hi := h i (le_refl i) hlt
      rw [sizeTable, if_neg (by rw [hsign]; omega), ih hlt (by omega) fun j hj => h j (by omega)]

/-- Slices that fit have the lengths they are cut at, and join to the bytes they were cut from. -/
theorem slices_spec {s : List Byte} {zs : List Nat} (h : zs.sum ≤ s.length) :
    (slices s zs).map List.length = zs ∧ (slices s zs).flatten = s.take zs.sum := by
  induction zs generalizing s with
  | nil => simp [slices]
  | cons z zs ih =>
    rw [List.sum_cons] at h
    obtain ⟨hlens, hjoin⟩ := ih (s := s.drop z) (by rw [List.length_drop]; omega)
    constructor
    · rw [slices, List.map_cons, hlens, List.length_take, Nat.min_eq_left (by omega)]
    · rw [slices, List.flatten_cons, hjoin, List.sum_cons, List.take_add]

/-! ### parseContainer (R241, R242) -/

/-- The checks of `parseContainer` in their order, by the bytes `C` left of the extension, the chunk count `c` and the start `T` of the
size table. -/
theorem parseContainer_cases {s : List Byte} {ext : Bool} {xl C c T : Nat} (hC : C = s.length - if ext then xl else 0)
    (hc : c = (s.getD (C - 1) 0).toNat) (hT : T = C - 1 - 4 * c) :
    (C < 1 → parseContainer s ext xl = .error (malformedContainer 1 0)) ∧
    (1 ≤ C → C - 1 < 4 * c → parseContainer s ext xl = .error (malformedContainer 2 0)) ∧
    (1 ≤ C → 4 * c ≤ C - 1 →
      (∀ r, sizeTable s T c 0 = .error r → parseContainer s ext xl = .error r) ∧
      (∀ zs, sizeTable s T c 0 = .ok zs →
        (zs.sum ≠ T → parseContainer s ext xl = .error (malformedContainer 4 0)) ∧
        (zs.sum = T → parseContainer s ext xl = .ok (slices s zs)))) := by
  have hleft : (if ext then s.length - xl else s.length) = C := by rw [hC]; cases ext <;> rfl
  simp only [parseContainer, hleft, ← hc, ← hT]
  refine ⟨fun h => if_pos h, fun h1 h2 => ?_, fun h1 h2 => ⟨fun r hr => ?_, fun zs hz => ⟨fun hsum => ?_, fun hsum => ?_⟩⟩⟩
  · rw [if_neg (by omega), if_pos h2]
  · rw [if_neg (by omega), if_neg (by omega), hr]
  · rw [if_neg (by omega), if_neg (by omega), hz]
    exact if_pos hsum
  · rw [if_neg (by omega), if_neg (by omega), hz]
    exact if_neg (not_not.2 hsum)

/-- Settles O52: the cases of `parseContainer`, with the size table and its slices read by their entries. -/
theorem containerChecks : Obligations.ContainerChecks := by
  intro src ext xl _ len c T entry raises
  obtain ⟨empty, short, table⟩ := parseContainer_cases (s := src) (ext := ext) (xl := xl) (C := len) (c := c) (T := T) rfl rfl rfl
  refine ⟨empty, short, fun h1 h2 => ?_⟩
  obtain ⟨bad, good⟩ := table h1 h2
  refine ⟨fun i hi hneg hfirst => bad _ ?_, fun hsmall => ?_⟩
  · exact sizeTable_of_negative (Nat.zero_le i) (by omega) hneg fun j _ => hfirst j
  · have hz := sizeTable_of_small (s := src) (T := T) (n := c) (i := 0) fun j _ hj => hsmall j (by omega)
    rw [← List.range_eq_range'] at hz
    obtain ⟨mismatch, fit⟩ := good _ hz
    refine ⟨mismatch, fun hsum => ⟨_, fit hsum, by simp, ?_⟩⟩
    have hT : T ≤ src.length := by omega
    obtain ⟨hlens, hjoin⟩ := slices_spec (s := src) (zs := (List.range c).map entry) (hsum.trans_le hT)
    exact ⟨hlens, hjoin.trans (by rw [hsum])⟩

end Sys2Proof.Machine
end

section
/-! PROOF. PAR_ENC and PAR_DEC. Both deliver what their workers leave in the slots, and record the length of each (`RunsChunks.delivers`).
A container that PAR_ENC wrote parses to its frames, which decode to the chunks they were made from (R246). -/

namespace Sys2Proof.Machine

/-! ### What PAR_ENC and PAR_DEC deliver (R240, R243) -/

/-- The command runs one session of the codec on each of its chunks: PAR_ENC an encode, PAR_DEC a decode (R240, R243). -/
def RunsChunks (i : Instr) (codec : Codec) : Prop :=
  (∃ n ext, i = .parEnc n ext ∧ codec = .enc) ∨ (∃ n ext, i = .parDec n ext ∧ codec = .dec)

theorem RunsChunks.codecOf_eq {i : Instr} {codec : Codec} (h : RunsChunks i codec) : codecOf i = some codec := by
  rcases h with ⟨n, ext, rfl, rfl⟩ | ⟨n, ext, rfl, rfl⟩ <;> rfl

/-- What the last step of PAR_ENC and PAR_DEC writes: the length of each chunk's result (R64). -/
def sizeRegs (slots : List Slot) (res : Results) : Results := { res with chunkSize := sizesOf slots res.chunkSize }

theorem sizeRegs_writesOwn (slots : List Slot) : WritesOwn (sizeRegs slots) := by
  constructor <;> simp [sizeRegs]

/-- Where the checks pass, the command runs its workers and delivers the output of its rule. -/
theorem RunsChunks.exec_eq {i : Instr} {codec : Codec} (h : RunsChunks i codec) {s : State} {L : Latch} (hl : s.latch = some L)
    (ha : ArgsPass s L (usesExt i)) (ho : OwnChecksPass s L i) : exec i s =
      .next ((s.afterWorkers L i).deliver L (outputOf s L i) (sizeRegs (s.afterWorkers L i).slots)) := by
  have hsome : (codecOf i).isSome = true := by rw [h.codecOf_eq]; rfl
  have houts := State.afterWorkers_outputs hsome s L
  rw [exec_of_ready hl h.codecOf_eq (firstStep_readies hsome ha ho), ← State.afterWorkers_of_codec h.codecOf_eq]
  rcases h with ⟨n, ext, rfl, rfl⟩ | ⟨n, ext, rfl, rfl⟩
  · have hstaged : (s.afterWorkers L (.parEnc n ext)).staged = stagedOf s L (.parEnc n ext) := State.runWorkers_staged _ _
    simp only [lastStep, parEncFinish, houts, hstaged]
    rfl
  · simp only [lastStep, parDecFinish, houts]
    rfl

/-- The recorded lengths are those of the sessions' outputs (R64). -/
theorem sizesOf_getElem {slots : List Slot} {rs : List (Except Raise CodecResult)} (h : slots.map Slot.out = rs.map chunkOutput)
    {old : Vector Word 255} (hold : ∀ k (hk : k < 255), old[k] = 0) (k : Nat) (hk : k < 255) :
    (sizesOf slots old)[k] = BitVec.ofNat 32 (((rs[k]?).map fun r => (chunkOutput r).length).getD 0) := by
  have hout : (slots[k]?).map Slot.out = (rs[k]?).map chunkOutput := by
    rw [← List.getElem?_map, h, List.getElem?_map]
  simp only [sizesOf, Vector.getElem_ofFn]
  cases hs : slots[k]? with
  | none =>
    have hr : rs[k]? = none := by simpa [hs] using hout
    simp [hr, hold]
  | some sl =>
    obtain ⟨r, hr, hsl⟩ : ∃ r, rs[k]? = some r ∧ chunkOutput r = sl.out := by simpa [hs, eq_comm] using hout
    simp [hr, hsl]

/-- What the command leaves where its checks pass and its output fits: the output, the records of the chunks, and no number of its own. -/
structure ChunksDelivered (s t : State) (L : Latch) (i : Instr) : Prop where
  delivered : Delivered s t L (outputOf s L i)
  recorded : ChunksRecorded t (sessionsOf s L i)
  sizes : SizesRecorded t (sessionsOf s L i)
  captured : CapturedOneOf t (sessionsOf s L i)
  progress : ∀ codec chunk r, codecOf i = some codec → (chunksOf s L i).getLast? = some chunk →
    (sessionsOf s L i).getLast? = some r → ProgressRecorded t codec chunk r
  noChunk : chunksOf s L i = [] → t.res.progress = 0
  nbitsOut : t.res.nbitsOut = 0
  codeCount : t.res.codeCount = 0
  dictSize : t.res.dictSize = 0
  bitWidth : t.res.bitWidth = 0
  jobFail : t.status.jobFail = false

theorem RunsChunks.delivers {i : Instr} {codec : Codec} (h : RunsChunks i codec) {s : State} {L : Latch} (hs : JustStarted s L)
    (ha : ArgsPass s L (usesExt i)) (ho : OwnChecksPass s L i) (hfit : (outputOf s L i).length ≤ L.dst.len) :
    ∃ t, exec i s = .next t ∧ ChunksDelivered s t L i := by
  have hsome : (codecOf i).isSome = true := by rw [h.codecOf_eq]; rfl
  have hw := hs.workersEnded h.codecOf_eq (chunksOf_length ho)
  have hregs := hs.afterWorkers_res i
  obtain ⟨t, ht, hdelivered, hres, hrecorded, hcaptured, hprogress⟩ := hw.deliver (sizeRegs_writesOwn _) hfit
  refine ⟨t, (h.exec_eq hs.latch ha ho).trans (congrArg _ ht), ?_⟩
  exact {
    delivered := hdelivered
    recorded := hrecorded
    sizes := fun k hk => by
      rw [hres]
      exact sizesOf_getElem (State.afterWorkers_outputs hsome s L) hw.sizes k hk
    captured := hcaptured
    progress := hprogress
    noChunk := fun hnil => by rw [hres]; exact hw.noChunk hnil
    nbitsOut := by rw [hres]; exact congrArg Results.nbitsOut hregs
    codeCount := by rw [hres]; exact congrArg Results.codeCount hregs
    dictSize := by rw [hres]; exact congrArg Results.dictSize hregs
    bitWidth := by rw [hres]; exact congrArg Results.bitWidth hregs
    jobFail := by rw [hdelivered.jobFail, hs.noJobFail] }

/-- Settles O30: the output of PAR_ENC's rule is the container. -/
theorem parEncWritesTheContainer : Obligations.ParEncWritesTheContainer := by
  intro n ext s L hs ha h1 h255 chunks rs out hfit
  obtain ⟨t, ht, h⟩ := RunsChunks.delivers (i := .parEnc n ext) (.inl ⟨n, ext, rfl, rfl⟩) hs ha ⟨h1, h255⟩ hfit
  exact ⟨t, ht, h.delivered, h.recorded, h.sizes, h.captured, fun chunk r => h.progress .enc chunk r rfl, h.nbitsOut, h.codeCount,
    h.dictSize, h.bitWidth, h.jobFail⟩

/-! ### PAR_DEC and its container (R242, R243) -/

theorem chunksOf_parDec {s : State} {L : Latch} {ext : Bool} {frames : List (List Byte)}
    (h : parseContainer (s.readBuffer L.src) ext L.ext.len = .ok frames) (n : Nat) : chunksOf s L (.parDec n ext) = frames := by
  simp [chunksOf, h]

/-- Settles O31: the chunks of PAR_DEC are the frames of the container, and its output is their outputs, joined. -/
theorem parDecWritesTheChunksInOrder : Obligations.ParDecWritesTheChunksInOrder := by
  intro n ext s L frames hs ha hext hparse rs out hfit
  have hchunks := chunksOf_parDec hparse n
  have hsessions : sessionsOf s L (.parDec n ext) = rs := by rw [sessionsOf, codecOf, hchunks]
  have hout : outputOf s L (.parDec n ext) = out := by rw [outputOf, hsessions]
  obtain ⟨t, ht, h⟩ := RunsChunks.delivers (.inr ⟨n, ext, rfl, rfl⟩) hs ha ⟨hext, frames, hparse⟩ (hout ▸ hfit)
  have hprogress := h.progress
  have hnone := h.noChunk
  rw [hchunks] at hprogress hnone
  rw [hsessions] at hprogress
  exact ⟨t, ht, hout ▸ h.delivered, hsessions ▸ h.recorded, hsessions ▸ h.sizes, hsessions ▸ h.captured,
    fun f r => hprogress .dec f r rfl, hnone, h.nbitsOut, h.codeCount, h.dictSize, h.bitWidth, h.jobFail⟩

theorem parDecStart_of_malformed {ext : Bool} {s : State} {L : Latch} {r : Raise} (ha : ArgsPass s L false)
    (hext : ext = true → L.ext.len ≤ L.src.len) (hparse : parseContainer (s.readBuffer L.src) ext L.ext.len = .error r) :
    parDecStart ext L s = .error r := by
  have hlong : ¬(ext = true ∧ L.src.len < L.ext.len) := fun h => absurd (hext h.1) (Nat.not_le.2 h.2)
  simp only [parDecStart, (argFault_eq_none s L false).2 ha, if_neg hlong, hparse]

/-- Settles O34: the container is parsed in the first step, before any worker starts. -/
theorem malformedContainerIsAJobFailure : Obligations.MalformedContainerIsAJobFailure := by
  intro n ext s L r hs ha hext hparse
  obtain ⟨t, ht, hfailed, hres, hmem⟩ := hs.exec_of_jobFail (i := .parDec n ext)
    (congrArg s.orFail (parDecStart_of_malformed ha hext hparse))
  exact ⟨t, ht, parseContainer_cause hparse, hfailed, hres, hmem⟩

end Sys2Proof.Machine
end

section
/-! PROOF. The parallel round trip (R246): the container that PAR_ENC wrote parses to its frames, and where every chunk encoded, each frame
decodes to its chunk. -/

namespace Sys2Proof.Machine

/-! ### Frames of chunks (R189, R199) -/

/-- A frame's length fits a 4-byte field (R189). -/
theorem encodeFrame_out_length {cap : Nat} {input : List Byte} {r : CodecResult} (hmin : 256 ≤ cap) (hmax : cap ≤ 2 ^ 31)
    (h : encodeFrame cap input = .ok r) : r.out.length ≤ 2 ^ 31 - 1 := by
  obtain ⟨-, -, -, hbits, -, -, -, hlen⟩ := (framesHaveTheirTrailer cap input hmin hmax).2.2 r h
  rw [hlen, ceilDiv]
  omega

theorem chunkOutput_encodeFrame_length {cap : Nat} (hmin : 256 ≤ cap) (hmax : cap ≤ 2 ^ 31) (input : List Byte) :
    (chunkOutput (encodeFrame cap input)).length ≤ 2 ^ 31 - 1 := by
  cases h : encodeFrame cap input with
  | ok r => exact encodeFrame_out_length hmin hmax h
  | error r => exact Nat.zero_le _

/-- The container of encoded chunks parses to their frames (R239, R241). -/
theorem parseContainer_of_chunks {cap : Nat} (hmin : 256 ≤ cap) (hmax : cap ≤ 2 ^ 31) {chunks : List (List Byte)}
    (hcount : chunks.length ≤ 255) {x : List Byte} {ext : Bool} {xl : Nat} (hxl : ext = true → xl = x.length)
    (hx : ext = false → x = []) :
    parseContainer (assemble ((chunks.map (encodeFrame cap)).map chunkOutput) x) ext xl =
      .ok ((chunks.map (encodeFrame cap)).map chunkOutput) := by
  refine parseContainer_assemble x (by simpa using hcount) ?_ ?_
  · simp only [List.map_map, List.forall_mem_map]
    exact fun chunk _ => chunkOutput_encodeFrame_length hmin hmax chunk
  · rw [assemble_length]
    cases ext with
    | true => simp [hxl rfl]
    | false => simp [hx rfl]

/-- The frame of a chunk that encodes decodes to the chunk (R199). -/
theorem decodeFrame_of_chunk {cap : Nat} (hmin : 256 ≤ cap) (hmax : cap ≤ 2 ^ 31) {chunk : List Byte}
    (hok : chunkCauseOf (encodeFrame cap chunk) = .none) :
    ∃ q, decodeFrame cap (chunkOutput (encodeFrame cap chunk)) = .ok q ∧ q.out = chunk := by
  cases h : encodeFrame cap chunk with
  | ok r => exact ⟨_, decodeOfEncodedFrame cap chunk r hmin hmax h, rfl⟩
  | error r =>
    rw [h] at hok
    rcases sessionOf_cause (codec := .enc) h with hr | hr | hr | hr <;> simp [chunkCauseOf, hr] at hok

/-- Chunks that all encode: their frames decode without a raise, to the chunks. -/
theorem decode_frames_of_chunks {cap : Nat} (hmin : 256 ≤ cap) (hmax : cap ≤ 2 ^ 31) {chunks : List (List Byte)}
    (hok : ∀ r ∈ chunks.map (encodeFrame cap), chunkCauseOf r = .none) {rs : List (Except Raise CodecResult)}
    (hrs : ((chunks.map (encodeFrame cap)).map chunkOutput).map (decodeFrame cap) = rs) :
    rs.map chunkOutput = chunks ∧ ∀ r ∈ rs, ∃ q, r = .ok q := by
  subst hrs
  have one : ∀ chunk ∈ chunks, ∃ q, decodeFrame cap (chunkOutput (encodeFrame cap chunk)) = .ok q ∧ q.out = chunk :=
    fun chunk hmem => decodeFrame_of_chunk hmin hmax (hok _ (List.mem_map_of_mem hmem))
  simp only [List.map_map, List.forall_mem_map]
  constructor
  · refine (List.map_congr_left fun chunk hmem => ?_).trans chunks.map_id
    obtain ⟨q, hq, hout⟩ := one chunk hmem
    exact (congrArg chunkOutput hq).trans hout
  · intro chunk hmem
    obtain ⟨q, hq, -⟩ := one chunk hmem
    exact ⟨q, hq⟩

/-! ### The second job (R246) -/

/-- A buffer that holds, byte for byte, what memory holds elsewhere. -/
theorem HoldsAt.readBuffer_of_copy {t u : State} {a : Nat} {bytes : List Byte} {b : Buffer} (h : HoldsAt t a bytes)
    (hlen : b.len = bytes.length) (hcopy : ∀ k, k < b.len → u.readByte (b.addr + k) = t.readByte (a + k)) :
    u.readBuffer b = bytes := by
  refine List.ext_getElem (by rw [State.readBuffer_length, hlen]) fun k hk hk' => ?_
  rw [State.readBuffer_length] at hk
  exact (u.memRead_getElem b.addr b.len k _).trans ((hcopy k hk).trans (h k hk'))

theorem ErrorRegs.eq_of_fields {e e' : ErrorRegs}
    (h : e.cause = e'.cause ∧ e.chunk = e'.chunk ∧ e.info = e'.info ∧ e.pos = e'.pos) (hj : e.jobCause = e'.jobCause) : e = e' := by
  obtain ⟨hcause, hchunk, hinfo, hpos⟩ := h
  cases e
  cases e'
  simp_all

/-- Where every session succeeded, there is no failure to record (R313, R314). -/
theorem CapturedOneOf.of_all_ok {t : State} {rs : List (Except Raise CodecResult)} (h : CapturedOneOf t rs)
    (hok : ∀ r ∈ rs, ∃ q, r = .ok q) (hj : t.errs.jobCause = .none) : t.errs = {} ∧ t.status.err = false := by
  rcases h with ⟨-, herr, -, hc, hchunk, hinfo, hpos⟩ | ⟨k, r, hk, -⟩
  · exact ⟨ErrorRegs.eq_of_fields ⟨hc, hchunk, hinfo, hpos⟩ hj, herr⟩
  · obtain ⟨q, hq⟩ := hok _ (List.mem_of_getElem? hk)
    cases hq

theorem ChunksRecorded.failCount_of_all_ok {t : State} {rs : List (Except Raise CodecResult)} (h : ChunksRecorded t rs)
    (hok : ∀ r ∈ rs, ∃ q, r = .ok q) : t.res.failCount = 0 := by
  refine BitVec.eq_of_toNat_eq (h.fails.trans (List.countP_eq_zero.2 fun r hr => ?_))
  obtain ⟨q, rfl⟩ := hok r hr
  simp [chunkCauseOf]

/-- A job of PAR_ENC that no job failure ended has delivered its container: an output that does not fit is a job failure (R308). -/
theorem parEnc_delivers {n : Nat} {ext : Bool} {s t : State} {L : Latch} (hs : JustStarted s L) (ha : ArgsPass s L ext)
    (hn : 1 ≤ n ∧ n ≤ 255) (hexec : exec (.parEnc n ext) s = .next t) (hjob : t.status.jobFail = false) :
    ChunksDelivered s t L (.parEnc n ext) := by
  by_cases hfit : (outputOf s L (.parEnc n ext)).length ≤ L.dst.len
  · obtain ⟨t', ht, h⟩ := RunsChunks.delivers (.inl ⟨n, ext, rfl, rfl⟩) hs ha hn hfit
    obtain rfl := Host.Outcome.next.inj (ht.symm.trans hexec)
    exact h
  · obtain ⟨t', ht, -, hfail, -⟩ := outputLongerThanCapacityFailsTheJob (.parEnc n ext) s L (by simp) hs ha hn (Nat.lt_of_not_le hfit)
    obtain rfl := Host.Outcome.next.inj (ht.symm.trans hexec)
    rw [hfail] at hjob
    cases hjob

/-- A chunk count of failures that is 0 says that every session had its result. -/
theorem ChunksRecorded.all_ok {t : State} {rs : List (Except Raise CodecResult)} (h : ChunksRecorded t rs)
    (hzero : t.res.failCount = 0) : ∀ r ∈ rs, chunkCauseOf r = .none := by
  have hcount := h.fails
  rw [hzero] at hcount
  simpa using List.countP_eq_zero.1 hcount.symm

/-- Settles O54: the second job's source is the container, whose frames decode to the chunks, and these join to the bytes. -/
theorem parallelRoundTrip : Obligations.ParallelRoundTrip := by
  intro n m ext s t u L K hlegal h1 h255 hs ha hexec hjob hzero hu hparams haK hlen hext hroom hcopy
  obtain ⟨-, -, hmin, hmax, -⟩ := hlegal
  have h := parEnc_delivers hs ha ⟨h1, h255⟩ hexec hjob
  have hcontainer : u.readBuffer K.src = outputOf s L (.parEnc n ext) :=
    h.delivered.bytes.readBuffer_of_copy (hlen.trans h.delivered.dstLen) hcopy
  have hxl : ext = true → K.ext.len = (if ext then s.readBuffer L.ext else []).length := fun he => by simp [hext he, he]
  have hparse := parseContainer_of_chunks hmin hmax (chunks := split (s.readBuffer L.src) n) (by simpa using h255) hxl
    fun he => by simp [he]
  obtain ⟨hjoin, hok⟩ := decode_frames_of_chunks hmin hmax (h.recorded.all_ok hzero) rfl
  have hout := (congrArg List.flatten hjoin).trans (split_flatten _ h1)
  have hextFits : ext = true → K.ext.len ≤ K.src.len := fun he => by
    have hle := congrArg List.length hcontainer
    rw [State.readBuffer_length, outputOf, assemble_length] at hle
    rw [hxl he]
    omega
  obtain ⟨v, hv, hdelivered, hrecorded, -, hcaptured, -, -, -, -, -, -, hvjob⟩ :=
    parDecWritesTheChunksInOrder m ext u K _ hu haK hextFits (by rw [hcontainer]; exact hparse) (by
      rw [hparams]
      refine (congrArg List.length hout).trans_le ?_
      rw [State.readBuffer_length]
      exact hroom)
  rw [hparams] at hdelivered hrecorded hcaptured
  obtain ⟨herrs, herr⟩ := hcaptured.of_all_ok hok (by rw [hdelivered.jobCause, hu.errs])
  exact ⟨v, hv, hout ▸ hdelivered, herrs, herr, hvjob, hrecorded.failCount_of_all_ok hok⟩

end Sys2Proof.Machine
end

section
/-! PROOF. A worker step by step. `Slot.OnTrack` says that a slot is waiting, or that its session has done the units up to its scan
position, or that it holds the outcome of the whole session; each turn of the worker keeps it on that track (`State.workerStep_track`). -/

namespace Sys2Proof.Machine

/-! ### A session, one unit further (R182, R191) -/

theorem EncSession.run_take_succ {cap : Nat} {input : List Byte} {e₀ e : EncSession} {n : Nat} {c : Byte}
    (h : EncSession.run cap (input.take n) e₀ = .ok e) (hc : input[n]? = some c) :
    EncSession.run cap (input.take (n + 1)) e₀ = e.unit cap c := by
  rw [List.take_add_one, hc, Option.toList_some, EncSession.run_snoc h]

theorem EncSession.run_of_take_error {cap : Nat} {input : List Byte} {e₀ : EncSession} {n : Nat} {r : Raise}
    (h : EncSession.run cap (input.take n) e₀ = .error r) : EncSession.run cap input e₀ = .error r := by
  rw [← input.take_append_drop n, EncSession.run_append, h]
  rfl

theorem DecSession.run_take_succ {cap : Nat} {codes : List Nat} {d₀ d : DecSession} {n k : Nat}
    (h : DecSession.run cap (codes.take n) d₀ = .ok d) (hk : codes[n]? = some k) :
    DecSession.run cap (codes.take (n + 1)) d₀ = d.unit cap k := by
  rw [List.take_add_one, hk, Option.toList_some, DecSession.run_append, h]
  exact DecSession.run_singleton cap k d

theorem DecSession.run_of_take_error {cap : Nat} {codes : List Nat} {d₀ : DecSession} {n : Nat} {r : Raise}
    (h : DecSession.run cap (codes.take n) d₀ = .error r) : DecSession.run cap codes d₀ = .error r := by
  rw [← codes.take_append_drop n, DecSession.run_append, h]
  rfl

/-- The units of a session do not read its own list of codes, nor the frame's numbers. -/
theorem DecSession.run_congr (cap : Nat) (ks : List Nat) (d : DecSession) (codes : List Nat) (nbits width : Nat) :
    DecSession.run cap ks { d with codes := codes, nbits := nbits, width := width } =
      (DecSession.run cap ks d).map fun d' => { d' with codes := codes, nbits := nbits, width := width } := by
  induction ks generalizing d with
  | nil => rfl
  | cons k ks ih =>
    rw [DecSession.run_cons, DecSession.run_cons, DecSession.unit_congr]
    cases d.unit cap k with
    | error r => rfl
    | ok d' => exact ih d'

/-- The decode of a frame that passes its checks is the session of its codes. -/
theorem decodeFrame_eq_run {cap : Nat} {f : List Byte} {codes : List Nat} {nbits width : Nat}
    (h : readFrame f = .ok (codes, nbits, width)) :
    decodeFrame cap f = ((DecSession.start codes nbits width).run cap codes).map fun d =>
      { out := d.out, codes := codes, dictSize := d.dict.length, width := width, nbits := nbits } := by
  have hrun := DecSession.run_congr cap codes (DecSession.start codes 0 0) codes nbits width
  rw [decodeFrame_of_read h, lzwDecode, show DecSession.start codes nbits width =
    { DecSession.start codes 0 0 with codes := codes, nbits := nbits, width := width } from rfl, hrun]
  cases (DecSession.start codes 0 0).run cap codes <;> rfl

/-! ### The track of a worker (R68 to R70, R235) -/

/-- The session of a worker on a chunk, by the units up to its scan position. -/
inductive Session.OnTrack (cap : Nat) (chunk : List Byte) : Codec → Session → Prop where
  | enc (e : EncSession) (h : EncSession.start.run cap (chunk.take e.pos) = .ok e) : Session.OnTrack cap chunk .enc (.enc e)
  | dec (codes : List Nat) (nbits width : Nat) (d : DecSession) (hf : readFrame chunk = .ok (codes, nbits, width))
      (h : (DecSession.start codes nbits width).run cap (codes.take d.pos) = .ok d) : Session.OnTrack cap chunk .dec (.dec d)

/-- The slot of a chunk from the start of its worker to its end. -/
inductive Slot.OnTrack (cap : Nat) (codec : Codec) (chunk : List Byte) : Slot → Prop where
  | waiting : Slot.OnTrack cap codec chunk { input := chunk }
  | running (x : Session) (h : x.OnTrack cap chunk codec) : Slot.OnTrack cap codec chunk (Slot.runs x { input := chunk })
  | ended : Slot.OnTrack cap codec chunk (Slot.settle { input := chunk } (sessionOf codec cap chunk))

/-- What the turn of a live worker on a chunk does to a job: its session goes one unit on, or ends with its outcome. -/
inductive TrackMove (s : State) (k : Nat) (codec : Codec) (chunk : List Byte) : State → Prop where
  | runs (x : Session) (h : x.OnTrack s.params.dictCapacity chunk codec) (p : BitVec 17) (n : Nat) : TrackMove s k codec chunk
      { s with slots := s.slots.modify k (Slot.runs x), res := { s.res with progress := p }, draws := n }
  | ok (r : CodecResult) (h : sessionOf codec s.params.dictCapacity chunk = .ok r) : TrackMove s k codec chunk (s.chunkOk k r)
  | fail (r : Raise) (h : sessionOf codec s.params.dictCapacity chunk = .error r) : TrackMove s k codec chunk (s.chunkFail k r)

/-- The worker of the slot has not ended: nothing is there but its chunk and its session. -/
def Slot.Live (sl : Slot) (chunk : List Byte) : Prop := ∃ p x, sl = { input := chunk, phase := p, session := x }

theorem TrackMove.chunkUnit {s : State} {codec : Codec} {chunk : List Byte} {x : Session}
    (h : x.OnTrack s.params.dictCapacity chunk codec) (k d T : Nat) : TrackMove s k codec chunk (s.chunkUnit k d T x) := by
  obtain ⟨p, n, ht, -⟩ := s.chunkUnit_cases k d T x
  rw [ht]
  exact .runs x h p n

theorem State.startWorker_track (codec : Codec) (s : State) (k : Nat) (chunk : List Byte) :
    TrackMove s k codec chunk (s.startWorker codec k { input := chunk }) := by
  cases codec with
  | enc => exact .runs (.enc EncSession.start) (.enc _ rfl) s.res.progress s.draws
  | dec =>
    simp only [State.startWorker]
    cases hf : readFrame chunk with
    | error r => exact .fail r (decodeFrame_of_malformed hf _)
    | ok p =>
      obtain ⟨codes, nbits, width⟩ := p
      exact .runs (.dec (DecSession.start codes nbits width)) (.dec codes nbits width _ hf rfl) s.res.progress s.draws

/-- An encode session takes the next byte, or closes its frame (R182, R188). -/
theorem State.advanceWorker_enc_track (s : State) (k : Nat) {chunk : List Byte} {e : EncSession} {sl : Slot} (hsl : sl.input = chunk)
    (h : EncSession.start.run s.params.dictCapacity (chunk.take e.pos) = .ok e) :
    TrackMove s k .enc chunk (s.advanceWorker k sl (.enc e)) := by
  have whole := encodeFrame_eq s.params.dictCapacity chunk
  simp only [State.advanceWorker, hsl]
  split
  next c hc =>
    have hnext := EncSession.run_take_succ h hc
    split
    next r hu =>
      rw [EncSession.run_of_take_error (hnext.trans hu)] at whole
      exact .fail r whole
    next e' hu =>
      rw [hu, ← EncSession.unit_pos hu] at hnext
      exact .chunkUnit (.enc e' hnext) k e'.pos chunk.length
  next hc =>
    rw [List.take_of_length_le (List.getElem?_eq_none_iff.1 hc)] at h
    rw [h] at whole
    split
    next r hr => exact .fail r (whole.trans hr)
    next r hr => exact .ok r (whole.trans hr)

/-- A decode session takes the next code, or has its bytes (R191). -/
theorem State.advanceWorker_dec_track (s : State) (k : Nat) {chunk : List Byte} {codes : List Nat} {nbits width : Nat} {d : DecSession}
    (sl : Slot) (hf : readFrame chunk = .ok (codes, nbits, width))
    (h : (DecSession.start codes nbits width).run s.params.dictCapacity (codes.take d.pos) = .ok d) :
    TrackMove s k .dec chunk (s.advanceWorker k sl (.dec d)) := by
  have whole := decodeFrame_eq_run (cap := s.params.dictCapacity) hf
  obtain ⟨-, hcodes, hnbits, hwidth⟩ := DecSession.run_frame h
  simp only [DecSession.start] at hcodes hnbits hwidth
  simp only [State.advanceWorker, hcodes, hnbits, hwidth]
  split
  next c hc =>
    have hnext := DecSession.run_take_succ h hc
    split
    next r hu =>
      rw [DecSession.run_of_take_error (hnext.trans hu)] at whole
      exact .fail r whole
    next d' hu =>
      obtain ⟨hpos, -⟩ := DecSession.unit_frame hu
      rw [hu, ← hpos] at hnext
      exact .chunkUnit (.dec codes nbits width d' hf hnext) k d'.pos codes.length
  next hc =>
    rw [List.take_of_length_le (List.getElem?_eq_none_iff.1 hc)] at h
    rw [h] at whole
    exact .ok _ whole

/-- The turn of a worker whose slot is on its track: it passes, or moves a live worker. -/
theorem State.workerStep_track {codec : Codec} {s : State} {k : Nat} {chunk : List Byte} {sl : Slot} (hs : s.slots[k]? = some sl)
    (h : sl.OnTrack s.params.dictCapacity codec chunk) :
    s.workerStep codec k = s ∨ sl.Live chunk ∧ TrackMove s k codec chunk (s.workerStep codec k) := by
  unfold State.workerStep
  rw [hs]
  dsimp only
  split
  swap
  · exact .inl rfl
  cases h with
  | waiting => exact .inr ⟨⟨_, _, rfl⟩, s.startWorker_track codec k chunk⟩
  | running x h =>
    refine .inr ⟨⟨_, _, rfl⟩, ?_⟩
    cases h with
    | enc e h => exact s.advanceWorker_enc_track k rfl h
    | dec codes nbits width d hf h => exact s.advanceWorker_dec_track k _ hf h
  | ended => cases sessionOf codec s.params.dictCapacity chunk <;> exact .inl rfl

/-- A move of a live worker changes its slot alone, and keeps it on its track. -/
theorem TrackMove.slots {s t : State} {k : Nat} {codec : Codec} {chunk : List Byte} {sl : Slot} (h : TrackMove s k codec chunk t)
    (hl : sl.Live chunk) :
    ∃ f, t.slots = s.slots.modify k f ∧ (f sl).OnTrack s.params.dictCapacity codec chunk := by
  obtain ⟨p, x, rfl⟩ := hl
  have hended := Slot.OnTrack.ended (cap := s.params.dictCapacity) (codec := codec) (chunk := chunk)
  cases h with
  | runs x h => exact ⟨_, rfl, .running x h⟩
  | ok r h =>
    rw [h] at hended
    exact ⟨_, rfl, hended⟩
  | fail r h =>
    rw [h] at hended
    exact ⟨_, s.chunkFail_slots k r, hended⟩

/-- The slot of a worker that has ended holds the outcome of its session (R68). -/
theorem Slot.OnTrack.eq_settle {cap : Nat} {codec : Codec} {chunk : List Byte} {sl : Slot} (h : sl.OnTrack cap codec chunk)
    (he : sl.ended = true) : sl = Slot.settle { input := chunk } (sessionOf codec cap chunk) := by
  cases h with
  | waiting => cases he
  | running => cases he
  | ended => rfl

end Sys2Proof.Machine
end

section
/-! PROOF. Two joins that deliver alike. `SameJoin` is what the end of a job reads: two states that agree on it, apart from PROGRESS
and from which failing chunk was captured, end in states that agree in the same way (`SameJoin.agree`). -/

namespace Sys2Proof.Machine

/-! ### Which failing chunk was captured (R313, R314) -/

theorem CapturedOneOf.congr {t u : State} {rs : List (Except Raise CodecResult)} (h : CapturedOneOf t rs)
    (herr : u.status.err = t.status.err) (honce : u.errOnce = t.errOnce) (hcause : u.errs.cause = t.errs.cause)
    (hchunk : u.errs.chunk = t.errs.chunk) (hinfo : u.errs.info = t.errs.info) (hpos : u.errs.pos = t.errs.pos) :
    CapturedOneOf u rs := by
  unfold CapturedOneOf
  rwa [herr, honce, hcause, hchunk, hinfo, hpos]

/-- A job failure keeps the capture of a failed chunk (R316). -/
theorem CapturedOneOf.jobFail {t : State} {rs : List (Except Raise CodecResult)} (h : CapturedOneOf t rs)
    (hfail : ∃ r ∈ rs, chunkCauseOf r ≠ .none) (r : Raise) : CapturedOneOf (t.jobFail r) rs := by
  have honce : t.errOnce = true := by
    rcases h with ⟨hok, -⟩ | ⟨k, q, -, -, honce, -⟩
    · obtain ⟨q, hq, hne⟩ := hfail
      exact absurd (hok q hq) hne
    · exact honce
  apply h.congr <;> simp [State.capture_of_once honce, honce]

/-- Two captures of the same sessions agree on whether there was one. -/
theorem CapturedOneOf.same_once {t u : State} {rs : List (Except Raise CodecResult)} (h : CapturedOneOf t rs) (h' : CapturedOneOf u rs)
    (hcause : ∀ r, .error r ∈ rs → r.cause ≠ .none) : t.status.err = u.status.err ∧ t.errOnce = u.errOnce := by
  have never {k : Nat} {r : Raise} (hok : ∀ r ∈ rs, chunkCauseOf r = .none) (hk : rs[k]? = some (.error r)) : False :=
    hcause r (List.mem_of_getElem? hk) (hok _ (List.mem_of_getElem? hk))
  rcases h with ⟨hok, herr, honce, -⟩ | ⟨k, r, hk, herr, honce, -⟩ <;>
    rcases h' with ⟨hok', herr', honce', -⟩ | ⟨k', r', hk', herr', honce', -⟩
  · exact ⟨herr.trans herr'.symm, honce.trans honce'.symm⟩
  · exact (never hok hk').elim
  · exact (never hok' hk).elim
  · exact ⟨herr.trans herr'.symm, honce.trans honce'.symm⟩

/-- A property that holds of at most one element holds at one index. -/
theorem index_unique_of_countP_le_one {α : Type} {p : α → Bool} {xs : List α} (h : xs.countP p ≤ 1) {j k : Nat} {x y : α}
    (hx : xs[j]? = some x) (hy : xs[k]? = some y) (hpx : p x = true) (hpy : p y = true) : j = k := by
  have apart {j k : Nat} {x y : α} (hx : xs[j]? = some x) (hy : xs[k]? = some y) (hpx : p x = true) (hpy : p y = true) : k ≤ j := by
    by_contra hlt
    have hfirst : 0 < (xs.take k).countP p :=
      List.countP_pos_iff.2 ⟨x, List.mem_of_getElem? (i := j) (by rw [List.getElem?_take_of_lt (by omega), hx]), hpx⟩
    have hsecond : 0 < (xs.drop k).countP p :=
      List.countP_pos_iff.2 ⟨y, List.mem_of_getElem? (i := 0) (by rw [List.getElem?_drop, Nat.add_zero, hy]), hpy⟩
    have hboth : (xs.take k).countP p + (xs.drop k).countP p = xs.countP p := by
      rw [← List.countP_append, List.take_append_drop]
    omega
  exact Nat.le_antisymm (apart hy hx hpy hpx) (apart hx hy hpx hpy)

/-- Where at most one chunk failed, there is one capture. -/
theorem CapturedOneOf.same_errs {t u : State} {rs : List (Except Raise CodecResult)} (h : CapturedOneOf t rs) (h' : CapturedOneOf u rs)
    (hcause : ∀ r, .error r ∈ rs → r.cause ≠ .none) (hfew : (rs.countP fun r => chunkCauseOf r != .none) ≤ 1)
    (hjob : t.errs.jobCause = u.errs.jobCause) : t.errs = u.errs := by
  obtain ⟨-, hsame⟩ := h.same_once h' hcause
  have failing {k : Nat} {r : Raise} (hk : rs[k]? = some (.error r)) : (chunkCauseOf (.error r) != .none) = true := by
    simpa [chunkCauseOf] using hcause r (List.mem_of_getElem? hk)
  rcases h with ⟨-, -, honce, hregs⟩ | ⟨k, r, hk, -, honce, hregs⟩ <;>
    rcases h' with ⟨-, -, honce', hregs'⟩ | ⟨k', r', hk', -, honce', hregs'⟩
  · exact ErrorRegs.eq_of_fields (by simp [hregs, hregs']) hjob
  · simp [honce, honce'] at hsame
  · simp [honce, honce'] at hsame
  · obtain rfl := index_unique_of_countP_le_one hfew hk hk' (failing hk) (failing hk')
    obtain rfl : r = r' := by simpa [hk] using hk'
    exact ErrorRegs.eq_of_fields (by simp [hregs, hregs']) hjob

/-! ### Two states at the join, and at the end -/

/-- Two states that a job may be in when its workers have ended with the outcomes `rs`, on one latch. -/
structure SameJoin (a b : State) (rs : List (Except Raise CodecResult)) : Prop where
  slots : a.slots = b.slots
  res : a.res = { b.res with progress := a.res.progress }
  status : a.status = b.status
  once : a.errOnce = b.errOnce
  jobCause : a.errs.jobCause = b.errs.jobCause
  errs : (rs.countP fun r => chunkCauseOf r != .none) ≤ 1 → a.errs = b.errs
  captured : CapturedOneOf a rs
  fails : b.res.failCount.toNat = rs.countP fun r => chunkCauseOf r != .none

/-- What R247 asks of two ends `t` and `u` of one job that started in `s`. -/
structure Agree (s : State) (L : Latch) (t u : State) : Prop where
  res : t.res = { u.res with progress := t.res.progress }
  status : t.status = u.status
  jobCause : t.errs.jobCause = u.errs.jobCause
  slots : t.slots = u.slots
  errs : u.res.failCount.toNat ≤ 1 → t.errs = u.errs
  captured : ∀ i, decode L.cmd = .ok i → 1 ≤ u.res.failCount.toNat → CapturedOneOf t (sessionsOf s L i)
  bytes : ∀ k, k < u.res.dstLen.toNat → t.readByte (L.dst.addr + k) = u.readByte (L.dst.addr + k)
  outside : KeptOutside s t L.dst

/-- A command's registers, written at its end, neither read PROGRESS nor count the failed chunks. -/
def BlindToProgress (regs : Results → Results) : Prop :=
  ∀ res p, regs { res with progress := p } = { regs res with progress := p }

section
variable {a b : State} {rs : List (Except Raise CodecResult)}

/-- The job failure of an output that does not fit, at two joins. -/
theorem SameJoin.jobFail (h : SameJoin a b rs) (r : Raise) :
    (a.jobFail r).res = { (b.jobFail r).res with progress := (a.jobFail r).res.progress } ∧
      (a.jobFail r).status = (b.jobFail r).status ∧ (a.errs = b.errs → (a.jobFail r).errs = (b.jobFail r).errs) := by
  refine ⟨?_, ?_, fun herrs => ?_⟩
  · rw [State.jobFail_res, State.jobFail_res, h.res]
  · rw [State.jobFail_status, State.jobFail_status]
    simp only [State.capture, h.once, h.status]
    split <;> simp [h.status]
  · rw [State.jobFail_errs, State.jobFail_errs]
    simp only [State.capture, h.once, herrs]
    split <;> simp [herrs]

variable {s : State} {L : Latch} {i : Instr} {regs : Results → Results}

/-- Whether or not the output fits: the frame, and the slots of the join. -/
theorem SameJoin.deliver_frame (h : SameJoin a b rs) (hmem : a.mem = s.mem) (out : List Byte) :
    KeptOutside s (a.deliver L out regs) L.dst ∧ (a.deliver L out regs).slots = (b.deliver L out regs).slots := by
  obtain ⟨-, hout, -, hslots⟩ := a.deliver_frame L out regs
  obtain ⟨-, -, -, hslots'⟩ := b.deliver_frame L out regs
  exact ⟨(KeptOutside.of_mem_eq hmem _).trans hout, (hslots.trans h.slots).trans hslots'.symm⟩

theorem SameJoin.agree_of_fits (h : SameJoin a b (sessionsOf s L i)) (hd : decode L.cmd = .ok i) (hmem : a.mem = s.mem)
    (hw : WritesOwn regs) (hblind : BlindToProgress regs) {out : List Byte} (hfit : out.length ≤ L.dst.len) :
    Agree s L (a.deliver L out regs) (b.deliver L out regs) := by
  obtain ⟨houtside, hslots⟩ := h.deliver_frame (L := L) (regs := regs) hmem out
  obtain ⟨-, hbytes, -, -, hres, herrs, hstatus, honce, -⟩ := a.deliver_fits L out regs hfit
  obtain ⟨-, hbytes', -, -, hres', herrs', hstatus', -, -⟩ := b.deliver_fits L out regs hfit
  generalize a.deliver L out regs = t at *
  generalize b.deliver L out regs = u at *
  have hlen : u.res.dstLen.toNat = out.length := by
    rw [hres', hw.dstLen, BitVec.toNat_ofNat]
    exact Nat.mod_eq_of_lt (hfit.trans_lt L.args.dstCap.isLt)
  have hcount : u.res.failCount = b.res.failCount := by rw [hres', hw.failCount]
  exact {
    res := by rw [hres, hres', h.res, ← hblind, hw.progress]
    status := by rw [hstatus, hstatus', h.status]
    jobCause := by rw [herrs, herrs', h.jobCause]
    slots := hslots
    errs := fun hfew => by
      rw [hcount, h.fails] at hfew
      rw [herrs, herrs', h.errs hfew]
    captured := fun j hj _ => by
      obtain rfl : i = j := Except.ok.inj (hd.symm.trans hj)
      apply h.captured.congr <;> simp [hstatus, honce, herrs]
    bytes := fun k hk => by
      rw [hlen] at hk
      exact (hbytes k hk).trans (hbytes' k hk).symm
    outside := houtside }

theorem SameJoin.agree_of_overflow (h : SameJoin a b (sessionsOf s L i)) (hd : decode L.cmd = .ok i) (hmem : a.mem = s.mem)
    {out : List Byte} (hlong : L.dst.len < out.length) : Agree s L (a.deliver L out regs) (b.deliver L out regs) := by
  obtain ⟨houtside, hslots⟩ := h.deliver_frame (L := L) (regs := regs) hmem out
  obtain ⟨hres, hstatus, herrs⟩ := h.jobFail { cause := .outputOverflow, info := min out.length (2 ^ 32 - 1), pos := 0 }
  rw [a.deliver_overflow L out regs hlong, b.deliver_overflow L out regs hlong] at *
  exact {
    res := hres
    status := hstatus
    jobCause := rfl
    slots := hslots
    errs := fun hfew => herrs (h.errs (by simpa [h.fails] using hfew))
    captured := fun j hj hfails => by
      obtain rfl : i = j := Except.ok.inj (hd.symm.trans hj)
      have hfailing : ∃ r ∈ sessionsOf s L i, chunkCauseOf r ≠ .none := by
        have hpos : 0 < (sessionsOf s L i).countP fun r => chunkCauseOf r != .none := by
          rw [← h.fails]
          exact Nat.lt_of_succ_le (by simpa using hfails)
        simpa using List.countP_pos_iff.1 hpos
      exact (h.captured.jobFail hfailing _).congr rfl rfl rfl rfl rfl rfl
    bytes := fun k hk => by simp at hk
    outside := houtside }

/-- Two joins that deliver one output end in agreement. -/
theorem SameJoin.agree (h : SameJoin a b (sessionsOf s L i)) (hd : decode L.cmd = .ok i) (hmem : a.mem = s.mem)
    (hw : WritesOwn regs) (hblind : BlindToProgress regs) (out : List Byte) :
    Agree s L (a.deliver L out regs) (b.deliver L out regs) := by
  rcases Nat.lt_or_ge L.dst.len out.length with hlong | hfit
  · exact h.agree_of_overflow hd hmem hlong
  · exact h.agree_of_fits hd hmem hw hblind hfit

end

/-- An end agrees with itself, where no chunk can have failed. -/
theorem Ending.agree_self {s t : State} {L : Latch} (h : Ending s L t) (hs : JustStarted s L) : Agree s L t t := by
  obtain ⟨-, hout, -, -⟩ := h.frame
  have hzero : t.res.failCount = 0 := by
    cases h with
    | complete => simp [hs.res]
    | fail r _ => simp [hs.res]
    | deliver out regs hw =>
      unfold State.deliver
      split <;> simp [hs.res, hw.failCount]
  exact ⟨rfl, rfl, rfl, rfl, fun _ => rfl, fun i _ hfails => by simp [hzero] at hfails, fun _ _ => rfl, hout⟩

end Sys2Proof.Machine
end

section
/-! PROOF. Schedule independence (R247). In a job that the host leaves alone the state is that of the start, or `InFlight`, with every slot
on its track, or an end (`JobStage`); when all workers have ended, the slots are those of the whole command run at once, and the last
step delivers from there. -/

namespace Sys2Proof.Machine

/-! ### The whole command at once -/

/-- The slots after the workers hold the outcomes of their sessions. -/
theorem State.afterWorkers_slots {i : Instr} {codec : Codec} (hc : codecOf i = some codec) (s : State) (L : Latch) :
    (s.afterWorkers L i).slots = (chunksOf s L i).map fun chunk =>
      Slot.settle { input := chunk } (sessionOf codec s.params.dictCapacity chunk) := by
  rw [State.afterWorkers_of_codec hc, State.runWorkers_slots_map]
  simp [State.ready]

theorem State.afterWorkers_staged {i : Instr} {codec : Codec} (hc : codecOf i = some codec) (s : State) (L : Latch) :
    (s.afterWorkers L i).staged = stagedOf s L i := by
  rw [State.afterWorkers_of_codec hc, State.runWorkers_staged]
  rfl

/-- The first step of a command that has workers ends the job, or readies them. -/
theorem firstStep_ends_or_readies {i : Instr} (hc : (codecOf i).isSome = true) (s : State) (L : Latch) :
    Ending s L (firstStep i L s) ∨ firstStep i L s = s.ready (chunksOf s L i) (stagedOf s L i) := by
  have one : Ending s L (s.orFail (oneChunkStart L s)) ∨
      s.orFail (oneChunkStart L s) = s.ready [s.readBuffer L.src] s.staged := by
    rcases oneChunkStart_cases L s with ⟨r, h, hr⟩ | ⟨-, h⟩ <;> rw [h]
    · exact .inl (.fail r (by simp [hr]))
    · exact .inr rfl
  cases i with
  | nop | pack | unpack => cases hc
  | lzwEnc | lzwDec => exact one
  | parEnc n ext =>
    simp only [firstStep]
    rcases parEncStart_cases n ext L s with ⟨r, h, hr⟩ | ⟨-, -, h⟩ <;> rw [h]
    · exact .inl (.fail r (by simp [hr]))
    · exact .inr rfl
  | parDec n ext =>
    simp only [firstStep]
    rcases parDecStart_cases ext L s with ⟨r, h, hr⟩ | ⟨frames, -, hf, h⟩ <;> rw [h]
    · exact .inl (.fail r (by rcases hr with hr | hr <;> simp [hr]))
    · exact .inr (by rw [chunksOf_parDec hf]; rfl)

theorem oneChunkRegs_blind (sl : Slot) : BlindToProgress (oneChunkRegs sl) := by
  intro res p
  cases h : sl.info <;> simp [oneChunkRegs, h, Results.ofSession]

theorem sizeRegs_blind (slots : List Slot) : BlindToProgress (sizeRegs slots) := fun _ _ => rfl

/-- A single-chunk command delivers what the slot of its chunk holds. -/
theorem RunsOneChunk.lastStep_of_slots {i : Instr} {codec : Codec} (h : RunsOneChunk i codec) (s : State) (L : Latch) :
    ∃ out regs, WritesOwn regs ∧ BlindToProgress regs ∧ ∀ w : State, w.slots = (s.afterWorkers L i).slots →
      lastStep i L w = w.deliver L out regs := by
  obtain ⟨sl, hsl⟩ : ∃ sl, (s.afterWorkers L i).slots = [sl] := by
    rw [State.afterWorkers_slots h.codecOf_eq, h.chunksOf_eq]
    exact ⟨_, rfl⟩
  refine ⟨sl.out, _, oneChunkRegs_writesOwn sl, oneChunkRegs_blind sl, fun w hw => ?_⟩
  rw [← oneChunkFinish_of_slots (hw.trans hsl)]
  rcases h with ⟨rfl, -⟩ | ⟨rfl, -⟩ <;> rfl

/-- The last step delivers what the slots and the extension bytes hold, and reads nothing else of the state (R288). -/
theorem lastStep_of_slots {i : Instr} {codec : Codec} (hc : codecOf i = some codec) (s : State) (L : Latch) :
    ∃ out regs, WritesOwn regs ∧ BlindToProgress regs ∧ ∀ w : State, w.slots = (s.afterWorkers L i).slots →
      w.staged = stagedOf s L i → lastStep i L w = w.deliver L out regs := by
  have one (h : RunsOneChunk i codec) := h.lastStep_of_slots s L
  generalize (s.afterWorkers L i).slots = slots at *
  cases i with
  | nop | pack | unpack => cases hc
  | lzwEnc | lzwDec =>
    cases hc
    obtain ⟨out, regs, hw, hblind, h⟩ := one (by simp [RunsOneChunk])
    exact ⟨out, regs, hw, hblind, fun w hslots _ => h w hslots⟩
  | parEnc n ext =>
    refine ⟨assemble (slots.map Slot.out) (stagedOf s L (.parEnc n ext)), _, sizeRegs_writesOwn slots, sizeRegs_blind slots,
      fun w hslots hstaged => ?_⟩
    simp only [lastStep, parEncFinish, hslots, hstaged]
    rfl
  | parDec n ext =>
    refine ⟨(slots.map Slot.out).flatten, _, sizeRegs_writesOwn slots, sizeRegs_blind slots, fun w hslots _ => ?_⟩
    simp only [lastStep, parDecFinish, hslots]
    rfl

/-! ### A job in flight -/

/-- A state between the first step and the last of a job of command `i` that started in `s` and that the host has left alone: all that is
known of it without the order of the turns. -/
structure InFlight (s : State) (L : Latch) (i : Instr) (codec : Codec) (w : State) : Prop where
  inv : Inv w
  params : w.params = s.params
  phase : w.phase = .running
  stage : w.stage = .join
  latch : w.latch = some L
  staged : w.staged = stagedOf s L i
  untainted : w.tainted = false
  mem : w.mem = s.mem
  overrun : w.status.overrun = s.status.overrun
  sizes : ∀ k (h : k < 255), w.res.chunkSize[k] = 0
  count : w.slots.length = (chunksOf s L i).length
  track : ∀ (k : Nat) sl chunk, w.slots[k]? = some sl → (chunksOf s L i)[k]? = some chunk →
    sl.OnTrack s.params.dictCapacity codec chunk
  captured : w.errOnce = true → CapturedOneOf w (sessionsOf s L i)

/-- The workers made ready in a job that has just started. -/
theorem JustStarted.inFlight {s : State} {L : Latch} {i : Instr} {codec : Codec} (hs : JustStarted s L)
    (hinv : Inv (s.ready (chunksOf s L i) (stagedOf s L i))) :
    InFlight s L i codec (s.ready (chunksOf s L i) (stagedOf s L i)) where
  inv := hinv
  params := rfl
  phase := hs.phase
  stage := rfl
  latch := hs.latch
  staged := rfl
  untainted := hs.untainted
  mem := rfl
  overrun := rfl
  sizes := by simp [State.ready, hs.res]
  count := by simp [State.ready]
  track := fun k sl chunk hsl hchunk => by
    obtain rfl : { input := chunk } = sl := by simpa [State.ready, hchunk] using hsl
    exact .waiting
  captured := fun honce => by simp [State.ready, hs.armed] at honce

/-- A capture is kept or made by the move of a live worker, and made of a session that raises. -/
theorem TrackMove.captured {s t : State} {k : Nat} {codec : Codec} {chunk : List Byte} {rs : List (Except Raise CodecResult)}
    (h : TrackMove s k codec chunk t) (hk : rs[k]? = some (sessionOf codec s.params.dictCapacity chunk))
    (hs : s.errOnce = true → CapturedOneOf s rs) (ht : t.errOnce = true) : CapturedOneOf t rs := by
  cases h with
  | runs x _ p n => exact (hs ht).congr rfl rfl rfl rfl rfl rfl
  | ok r _ => exact (hs ht).congr rfl rfl rfl rfl rfl rfl
  | fail r hr =>
    rw [hr] at hk
    by_cases honce : s.errOnce = true
    · apply (hs honce).congr <;> simp [State.chunkFail, State.capture, honce]
    · exact .inr ⟨k, r, hk, by simp [State.chunkFail, State.capture, honce]⟩

theorem TrackMove.chunkSize {s t : State} {k : Nat} {codec : Codec} {chunk : List Byte} (h : TrackMove s k codec chunk t)
    (hs : ∀ j (hj : j < 255), s.res.chunkSize[j] = 0) (j : Nat) (hj : j < 255) : t.res.chunkSize[j] = 0 := by
  cases h with
  | runs x _ p n => exact hs j hj
  | ok r _ => exact hs j hj
  | fail r _ =>
    simp only [State.chunkFail_res, Vector.getElem_setIfInBounds]
    split
    · rfl
    · exact hs j hj

section
variable {s w : State} {L : Latch} {i : Instr} {codec : Codec}

/-- The turn of any worker leaves the job in flight. -/
theorem InFlight.workerStep (h : InFlight s L i codec w) (hc : codecOf i = some codec) (k : Nat) :
    InFlight s L i codec (w.workerStep codec k) := by
  cases hsl : w.slots[k]? with
  | none =>
    rw [show w.workerStep codec k = w by simp [State.workerStep, hsl]]
    exact h
  | some sl =>
    obtain ⟨chunk, hchunk⟩ : ∃ chunk, (chunksOf s L i)[k]? = some chunk := by
      have hlt := (List.getElem?_eq_some_iff.1 hsl).1
      rw [h.count] at hlt
      exact ⟨_, List.getElem?_eq_getElem hlt⟩
    have htrack := h.track k sl chunk hsl hchunk
    rw [← h.params] at htrack
    have hmove := w.workerStep_move codec k
    rcases State.workerStep_track hsl htrack with hpass | ⟨hlive, ht⟩
    · rw [hpass]
      exact h
    generalize w.workerStep codec k = t at *
    obtain ⟨hparams, -, -, -, hphase, hstage, hlatch, hstaged, htainted, hmem, -, -, hlen, -, -, -⟩ := hmove.frame
    obtain ⟨f, hslots, hf⟩ := ht.slots hlive
    exact {
      inv := hmove.inv h.inv h.phase h.stage
      params := hparams.trans h.params
      phase := hphase.trans h.phase
      stage := hstage.trans h.stage
      latch := hlatch.trans h.latch
      staged := hstaged.trans h.staged
      untainted := htainted.trans h.untainted
      mem := hmem.trans h.mem
      overrun := hmove.overrun.trans h.overrun
      sizes := ht.chunkSize h.sizes
      count := hlen.trans h.count
      track := fun j x c hx hc => by
        rw [hslots, getElem?_modify_slot] at hx
        split at hx
        next hkj =>
          subst hkj
          obtain rfl : chunk = c := Option.some.inj (hchunk.symm.trans hc)
          obtain rfl : f sl = x := by simpa [hsl] using hx
          rwa [← h.params]
        next => exact h.track j x c hx hc
      captured := ht.captured (by rw [sessionsOf_of_codec hc, List.getElem?_map, hchunk, h.params]; rfl) h.captured }

/-! ### The join (R235) -/

/-- When all workers have ended, the slots are those of the whole command run at once. -/
theorem InFlight.slots_eq (h : InFlight s L i codec w) (hc : codecOf i = some codec) (hall : w.slots.all Slot.ended = true) :
    w.slots = (s.afterWorkers L i).slots := by
  rw [State.afterWorkers_slots hc]
  refine List.ext_getElem (by rw [h.count, List.length_map]) fun k hk hk' => ?_
  rw [List.length_map] at hk'
  rw [List.getElem_map]
  exact (h.track k _ _ (List.getElem?_eq_getElem hk) (List.getElem?_eq_getElem hk')).eq_settle
    (List.all_eq_true.1 hall _ (List.getElem_mem hk))

theorem Slot.settle_cause {sl : Slot} (r : Except Raise CodecResult) : (sl.settle r).cause = chunkCauseOf r := by cases r <;> rfl

/-- A state whose slots hold the outcomes of the sessions has recorded these, by the invariant (R61 to R63). -/
theorem Inv.recorded (h : Inv w) (hp : w.phase = .running) (hc : codecOf i = some codec) (hslots : w.slots = (s.afterWorkers L i).slots) :
    ChunksRecorded w (sessionsOf s L i) ∧
      ((∃ sl ∈ w.slots, sl.phase = .failed) ↔ ∃ r ∈ sessionsOf s L i, chunkCauseOf r ≠ .none) := by
  rw [State.afterWorkers_slots hc] at hslots
  have hfailed (sl : Slot) (chunk : List Byte) : (sl.settle (sessionOf codec s.params.dictCapacity chunk)).phase = .failed ↔
      chunkCauseOf (sessionOf codec s.params.dictCapacity chunk) ≠ .none := by
    have hwf := (sl.settle_session codec s.params.dictCapacity chunk).1.2
    rw [Slot.settle_cause] at hwf
    rw [← not_iff_not, not_not]
    exact hwf
  rw [sessionsOf_of_codec hc]
  refine ⟨⟨?_, ?_, fun k hk => ?_⟩, ?_⟩
  · rw [h.chunkCount hp, hslots, List.length_map, List.length_map]
  · rw [h.failCount hp, hslots, List.countP_map, List.countP_map]
    refine List.countP_congr fun chunk _ => ?_
    simpa using hfailed _ chunk
  · rw [h.chunkCause hp k hk, hslots]
    cases hchunk : (chunksOf s L i)[k]? <;> simp [hchunk, Slot.settle_cause]
  · rw [hslots]
    simp [hfailed]

/-- When all workers have ended, the capture is that of one failing chunk, or there is none (R314). -/
theorem InFlight.capturedOneOf (h : InFlight s L i codec w) (hc : codecOf i = some codec) (hslots : w.slots = (s.afterWorkers L i).slots) :
    CapturedOneOf w (sessionsOf s L i) := by
  by_cases honce : w.errOnce = true
  · exact h.captured honce
  · rw [Bool.not_eq_true] at honce
    obtain ⟨herrs, herr⟩ := h.inv.uncaptured h.phase honce
    have hnone : ¬∃ r ∈ sessionsOf s L i, chunkCauseOf r ≠ .none := by
      rw [← (h.inv.recorded h.phase hc hslots).2, ← h.inv.captured h.phase, honce]
      simp
    exact .inl ⟨by simpa using hnone, herr, honce, by simp [herrs]⟩

end

/-- Result registers that agree on the records of the chunks and hold nothing else but PROGRESS. -/
theorem results_eq_of_records {x y : Results} {p : BitVec 17} {n m : BitVec 8} {causes : Vector Cause 255} {sizes : Vector Word 255}
    (hy : y = { progress := p, chunkCount := n, failCount := m, chunkCause := causes, chunkSize := sizes })
    (hzero : x.dstLen = 0 ∧ x.nbitsOut = 0 ∧ x.codeCount = 0 ∧ x.dictSize = 0 ∧ x.bitWidth = 0)
    (hcount : x.chunkCount = y.chunkCount) (hfails : x.failCount = y.failCount) (hcauses : x.chunkCause = y.chunkCause)
    (hsizes : x.chunkSize = y.chunkSize) : x = { y with progress := x.progress } := by
  obtain ⟨h1, h2, h3, h4, h5⟩ := hzero
  subst hy
  cases x
  simp_all

/-- The join of a job that the host has left alone is that of the whole command run at once. -/
theorem InFlight.sameJoin {s w : State} {L : Latch} {i : Instr} {codec : Codec} (h : InFlight s L i codec w) (hs : JustStarted s L)
    (hc : codecOf i = some codec) (hall : w.slots.all Slot.ended = true) :
    SameJoin w (s.afterWorkers L i) (sessionsOf s L i) := by
  have hslots := h.slots_eq hc hall
  have hcaptured := h.capturedOneOf hc hslots
  obtain ⟨hrecorded, -⟩ := h.inv.recorded h.phase hc hslots
  have hcause : ∀ r, .error r ∈ sessionsOf s L i → r.cause ≠ .none := fun r => sessionsOf_error_cause
  have hended : WorkersEnded s (s.afterWorkers L i) L i := hs.workersEnded hc (by rw [← h.count]; exact h.inv.slotCount)
  have hres := hs.afterWorkers_res i
  have hdone : (s.afterWorkers L i).status.done = false := by
    rw [State.afterWorkers_of_codec hc, State.runWorkers_status_done]
    exact hs.notDone
  obtain ⟨hjobFail, hjobCause⟩ := s.afterWorkers_jobLevel L i
  generalize s.afterWorkers L i = b at *
  obtain ⟨herr, honce⟩ := hcaptured.same_once hended.captured hcause
  obtain ⟨hzero1, hzero2, hzero3, hzero4, hzero5, hnone⟩ := h.inv.pending h.phase
  obtain ⟨hwdone, hwfail⟩ := h.inv.notDone h.phase
  have jobCause : w.errs.jobCause = b.errs.jobCause := by rw [hnone, hjobCause, hs.errs]
  exact {
    slots := hslots
    res := by
      refine results_eq_of_records hres ⟨hzero1, hzero2, hzero3, hzero4, hzero5⟩ ?_ ?_ ?_ ?_
      · exact BitVec.eq_of_toNat_eq (hrecorded.count.trans hended.recorded.count.symm)
      · exact BitVec.eq_of_toNat_eq (hrecorded.fails.trans hended.recorded.fails.symm)
      · exact Vector.ext fun k hk => (hrecorded.causes k hk).trans (hended.recorded.causes k hk).symm
      · exact Vector.ext fun k hk => (h.sizes k hk).trans (hended.sizes k hk).symm
    status := by
      have hoverrun := h.overrun.trans hended.host.overrun.symm
      rw [hs.noJobFail] at hjobFail
      generalize w.status = x at *
      generalize b.status = y at *
      cases x
      cases y
      simp_all
    once := honce
    jobCause := jobCause
    errs := fun hfew => hcaptured.same_errs hended.captured hcause hfew jobCause
    captured := hcaptured
    fails := hended.recorded.fails }

/-! ### The stages of a job that the host leaves alone -/

/-- `u` is what the whole command, run at once on the job that has just started in `s`, leaves. -/
structure AtOnce (s : State) (L : Latch) (u : State) : Prop where
  command : ∀ i, decode L.cmd = .ok i → exec i s = .next u
  badWord : ∀ b, decode L.cmd = .error b → s.badCommand L.cmd = u

/-- Where a job that has started in `s` and that the host leaves alone may be; its end agrees with `u`. -/
inductive JobStage (s : State) (L : Latch) (u : State) : State → Prop where
  | started : JobStage s L u s
  | inFlight (i : Instr) (codec : Codec) (w : State) (hd : decode L.cmd = .ok i) (hc : codecOf i = some codec)
      (hu : lastStep i L (s.afterWorkers L i) = u) (h : InFlight s L i codec w) : JobStage s L u w
  | ended (t : State) (hp : t.phase = .idle) (h : Agree s L t u) : JobStage s L u t

section
variable {s u w : State} {L : Latch}

theorem JustStarted.sequencerStep_of_ok {i : Instr} (hs : JustStarted s L) (hd : decode L.cmd = .ok i) :
    s.sequencerStep = firstStep i L s := by
  simp [State.sequencerStep, State.sequencerRule, hs.phase, hs.latch, hs.stage, hs.untainted, hd]

theorem JobStage.of_ending {t : State} (h : Ending s L t) (hs : JustStarted s L) : JobStage s L t t :=
  .ended t h.frame.1.phase (h.agree_self hs)

/-- The sequencer's first step ends the job as the whole command does, or readies its workers. -/
theorem JustStarted.sequencerStep_stage (hs : JustStarted s L) (hinv : Inv s) (hu : AtOnce s L u) : JobStage s L u s.sequencerStep := by
  cases hd : decode L.cmd with
  | error b =>
    have he : Ending s L (s.badCommand L.cmd) := .fail _ (by simp)
    obtain rfl := hu.badWord b hd
    rw [hs.sequencerStep_of_error hd]
    exact .of_ending he hs
  | ok i =>
    have hexec := hu.command i hd
    have hnext := hinv.sequencerStep
    rw [hs.sequencerStep_of_ok hd] at hnext ⊢
    have ending (he : Ending s L (firstStep i L s)) : JobStage s L u (firstStep i L s) := by
      obtain rfl := Host.Outcome.next.inj ((exec_of_completed hs.latch he.frame.1).symm.trans hexec)
      exact .of_ending he hs
    cases hc : codecOf i with
    | none =>
      rcases firstStep_ending_or_ready i L s with he | ⟨hsome, -⟩
      · exact ending he
      · simp [hc] at hsome
    | some codec =>
      rcases firstStep_ends_or_readies (i := i) (by simp [hc]) s L with he | hready
      · exact ending he
      · rw [exec_of_ready hs.latch hc hready, ← State.afterWorkers_of_codec hc] at hexec
        rw [hready] at hnext ⊢
        exact .inFlight i codec _ hd hc (Host.Outcome.next.inj hexec) (hs.inFlight hnext)

/-- The sequencer's turn in a job in flight passes, or, when all workers have ended, ends the job. -/
theorem InFlight.sequencerStep_stage {i : Instr} {codec : Codec} (h : InFlight s L i codec w) (hs : JustStarted s L)
    (hd : decode L.cmd = .ok i) (hc : codecOf i = some codec) (hu : lastStep i L (s.afterWorkers L i) = u) :
    JobStage s L u w.sequencerStep := by
  have hstep : w.sequencerStep = if w.slots.all Slot.ended then lastStep i L w else w := by
    simp [State.sequencerStep, State.sequencerRule, h.phase, h.latch, h.stage, h.untainted, hd]
  rw [hstep]
  split
  next hall =>
    obtain ⟨out, regs, hw, hblind, hlast⟩ := lastStep_of_slots hc s L
    rw [hlast w (h.slots_eq hc hall) h.staged]
    rw [hlast _ rfl (State.afterWorkers_staged hc s L)] at hu
    obtain ⟨hcompleted, -⟩ := w.deliver_frame L out regs
    exact .ended _ hcompleted.phase (hu ▸ (h.sameJoin hs hc hall).agree hd h.mem hw hblind out)
  next => exact .inFlight i codec w hd hc hu h

theorem JobStage.sequencerStep (h : JobStage s L u w) (hs : JustStarted s L) (hinv : Inv s) (hu : AtOnce s L u) :
    JobStage s L u w.sequencerStep := by
  cases h with
  | started => exact hs.sequencerStep_stage hinv hu
  | inFlight i codec w hd hc hlast h => exact h.sequencerStep_stage hs hd hc hlast
  | ended t hp h =>
    rw [show w.sequencerStep = w by simp [State.sequencerStep, hp]]
    exact .ended w hp h

theorem JobStage.workerTurn (h : JobStage s L u w) (hs : JustStarted s L) (k : Nat) : JobStage s L u (w.workerTurn k) := by
  cases h with
  | started =>
    rw [show s.workerTurn k = s by simp [State.workerTurn, hs.phase, hs.stage]]
    exact .started
  | inFlight i codec w hd hc hlast h =>
    rw [show w.workerTurn k = w.workerStep codec k by simp [State.workerTurn, h.phase, h.stage, h.latch, hd, hc]]
    exact .inFlight i codec _ hd hc hlast (h.workerStep hc k)
  | ended t hp h =>
    rw [show w.workerTurn k = w by simp [State.workerTurn, hp]]
    exact .ended w hp h

end

/-! ### The turns of the engine (R247) -/

theorem core_run_succ {s s' : State} (h : step s = .next s') (n : Nat) :
    Host.Core.run Sys2Proof.core (n + 1) s = Host.Core.run Sys2Proof.core n s' := by
  simp [Host.Core.run, Sys2Proof.core, h]

/-- The host has no part in the turn. -/
def Turn.IsEngine (x : Turn) : Prop := x = .sequencer ∨ ∃ i, x = .worker i

/-- Turns of the engine, one after the other, lead from stage to stage, whatever their order. -/
theorem JobStage.run {s u w t : State} {L : Latch} {turns : List Turn} (h : JobStage s L u w) (hs : JustStarted s L) (hinv : Inv s)
    (hu : AtOnce s L u) (hturns : ∀ x ∈ turns, x.IsEngine)
    (hrun : Host.Core.run Sys2Proof.core turns.length { w with agenda := turns } = .next t) :
    ∃ t', t = { t' with agenda := [] } ∧ JobStage s L u t' := by
  induction turns generalizing w with
  | nil => exact ⟨w, (Host.Outcome.next.inj hrun).symm, h⟩
  | cons x rest ih =>
    obtain ⟨v, hstep, hv⟩ : ∃ v, step { w with agenda := x :: rest } = .next { v with agenda := rest } ∧ JobStage s L u v := by
      rcases hturns x (by simp) with rfl | ⟨k, rfl⟩
      · exact ⟨_, congrArg _ (w.sequencerStep_setAgenda rest), h.sequencerStep hs hinv hu⟩
      · exact ⟨_, congrArg _ (w.workerTurn_setAgenda rest k), h.workerTurn hs k⟩
    refine ih hv (fun y hy => hturns y (List.mem_cons_of_mem x hy)) ?_
    exact (core_run_succ hstep rest.length).symm.trans hrun

/-- A CMD write while IDLE starts the job (R282). -/
theorem step_cmdWrite_of_idle {s : State} (hp : s.phase = .idle) (v : Word) (turns : List Turn) :
    step { s with agenda := .host (.csrWrite .word 0x010 v) :: turns } = .next { s.startJob v with agenda := turns } := by
  have hbusy : State.busy { s with agenda := turns } = false := by simp [State.busy, hp]
  rw [step_csrWrite (off := 0x010) (by decide) (by decide) rfl]
  exact congrArg _ (if_neg (by simp [hbusy]))

/-- RUN while IDLE is the whole command on the job that has just started (R130). -/
theorem atOnce_of_run {s u : State} (hp : s.phase = .idle) {v : Word} (h : step { s with agenda := [.run v] } = .next u) :
    AtOnce (State.startJob { s with agenda := [] } v) { cmd := v, args := s.args } u where
  command := fun i hd => by
    rw [← h, step_run_of_idle (s := { s with agenda := [.run v] }) hp rfl]
    exact (runCommand_of_ok hd _).symm
  badWord := fun b hd => by
    rw [step_run_of_idle (s := { s with agenda := [.run v] }) hp rfl, runCommand_of_error hd] at h
    exact Host.Outcome.next.inj h

/-- Settles O60: both jobs start alike; the stages of the first lead to an end that agrees with the second. -/
theorem resultsDoNotDependOnTheSchedule : Obligations.ResultsDoNotDependOnTheSchedule := by
  intro s t u v turns hinv hp hturns hrun hidle hu
  have hs := State.startJob_justStarted { s with agenda := [] } v
  have hstart : Inv (State.startJob { s with agenda := [] } v) := (hinv.setAgenda []).sound.startJob_inv v
  rw [core_run_succ (step_cmdWrite_of_idle hp v turns)] at hrun
  obtain ⟨t', rfl, hstage⟩ := JobStage.started.run (w := State.startJob { s with agenda := [] } v) hs hstart (atOnce_of_run hp hu)
    hturns hrun
  cases hstage with
  | started => exact absurd (hidle.symm.trans hs.phase) (by simp)
  | inFlight i codec w _ _ _ h => exact absurd (hidle.symm.trans h.phase) (by simp)
  | ended t' _ h =>
    exact ⟨h.res, h.status, h.jobCause, h.slots, h.errs, h.captured, h.bytes, h.outside⟩

end Sys2Proof.Machine
end

section
/-! PROOF. Every running job ends (R287). The engine's first step ends the job or readies its workers; from then on each turn of a worker
that can move brings that worker nearer to its end, so `State.turnsLeft` falls until no worker can move, and the sequencer's last step
completes the job. -/

namespace Sys2Proof.Machine

/-! ### How far a worker is from its end (R200, R235) -/

/-- The most turns that a worker of the given codec still takes: its start, the units left of its session, and its end. -/
def Slot.turnsLeft (codec : Codec) (sl : Slot) : Nat :=
  match sl.phase, sl.session with
  | .pending, _ => unitsOf codec sl.input + 2
  | .running, some x => x.units sl - x.scan + 1
  | _, _ => 0

@[simp] theorem Slot.turnsLeft_fail (codec : Codec) (sl : Slot) (r : Raise) : (sl.fail r).turnsLeft codec = 0 := rfl

@[simp] theorem Slot.turnsLeft_succeed (codec : Codec) (sl : Slot) (r : CodecResult) : (sl.succeed r).turnsLeft codec = 0 := rfl

@[simp] theorem Slot.turnsLeft_runs (codec : Codec) (sl : Slot) (x : Session) :
    (sl.runs x).turnsLeft codec = x.units sl - x.scan + 1 := by
  cases x <;> rfl

theorem Slot.turnsLeft_of_pending {sl : Slot} (codec : Codec) (h : sl.phase = .pending) :
    sl.turnsLeft codec = unitsOf codec sl.input + 2 := by
  simp [Slot.turnsLeft, h]

theorem Slot.turnsLeft_of_running {sl : Slot} {x : Session} (codec : Codec) (h : sl.phase = .running) (hx : sl.session = some x) :
    sl.turnsLeft codec = x.units sl - x.scan + 1 := by
  simp [Slot.turnsLeft, h, hx]

theorem unitsOf_dec {input : List Byte} {codes : List Nat} {nbits width : Nat} (h : readFrame input = .ok (codes, nbits, width)) :
    unitsOf .dec input = codes.length := by
  simp [unitsOf, h]

/-- From `s` to `t` the slot `sl` of worker `i` is the one that changes, and its worker comes nearer to its end. -/
def NearsEnd (codec : Codec) (s t : State) (i : Nat) (sl : Slot) : Prop :=
  ∃ f, t.slots = s.slots.modify i f ∧ (f sl).turnsLeft codec < sl.turnsLeft codec

section
variable {codec : Codec} {s : State} {i : Nat} {sl : Slot}

theorem NearsEnd.chunkFail (h : 0 < sl.turnsLeft codec) (r : Raise) : NearsEnd codec s (s.chunkFail i r) i sl :=
  ⟨_, s.chunkFail_slots i r, by simpa using h⟩

theorem NearsEnd.chunkOk (h : 0 < sl.turnsLeft codec) (r : CodecResult) : NearsEnd codec s (s.chunkOk i r) i sl :=
  ⟨_, rfl, by simpa using h⟩

theorem NearsEnd.chunkUnit {y : Session} (h : y.units sl - y.scan + 1 < sl.turnsLeft codec) (d T : Nat) :
    NearsEnd codec s (s.chunkUnit i d T y) i sl := by
  obtain ⟨p, n, ht, -⟩ := s.chunkUnit_cases i d T y
  rw [ht]
  exact ⟨_, rfl, by simpa using h⟩

/-- A worker that starts has its session's units and its end before it, or fails at once. -/
theorem State.startWorker_nearsEnd (hp : sl.phase = .pending) : NearsEnd codec s (s.startWorker codec i sl) i sl := by
  have hleft := Slot.turnsLeft_of_pending codec hp
  cases codec with
  | enc => exact ⟨Slot.runs (.enc EncSession.start), rfl, by simp [hleft, unitsOf, Session.units, Session.scan, EncSession.start]⟩
  | dec =>
    simp only [State.startWorker]
    split
    next r _ => exact .chunkFail (by omega) r
    next codes nbits width hr =>
      refine ⟨Slot.runs (.dec (DecSession.start codes nbits width)), rfl, ?_⟩
      simp [hleft, unitsOf_dec hr, Session.units, Session.scan, DecSession.start]

/-- A running worker takes one of its units, or ends. -/
theorem State.advanceWorker_nearsEnd {x : Session} (hp : sl.phase = .running) (hx : sl.session = some x) :
    NearsEnd codec s (s.advanceWorker i sl x) i sl := by
  have hleft := Slot.turnsLeft_of_running codec hp hx
  have hpos : 0 < sl.turnsLeft codec := by omega
  cases x with
  | enc e =>
    simp only [State.advanceWorker]
    split
    next c hc =>
      obtain ⟨hlt, -⟩ := List.getElem?_eq_some_iff.1 hc
      split
      next r _ => exact .chunkFail hpos r
      next e' hu =>
        have hscan := EncSession.unit_pos hu
        exact .chunkUnit (by simp only [hleft, Session.units, Session.scan]; omega) _ _
    next =>
      split
      next r _ => exact .chunkFail hpos r
      next r _ => exact .chunkOk hpos r
  | dec d =>
    simp only [State.advanceWorker]
    split
    next k hk =>
      obtain ⟨hlt, -⟩ := List.getElem?_eq_some_iff.1 hk
      split
      next r _ => exact .chunkFail hpos r
      next d' hu =>
        obtain ⟨hscan, hcodes, -⟩ := DecSession.unit_frame hu
        exact .chunkUnit (by simp only [hleft, Session.units, Session.scan, hcodes]; omega) _ _
    next => exact .chunkOk hpos _

/-- The turn of a worker that can move brings it nearer to its end. -/
theorem State.workerStep_nearsEnd (hs : s.slots[i]? = some sl) (hwf : sl.wf) (hm : sl.canMove s.params.nEngines s.slots = true) :
    NearsEnd codec s (s.workerStep codec i) i sl := by
  simp only [State.workerStep, hs, hm, if_true]
  cases hp : sl.phase with
  | pending => exact State.startWorker_nearsEnd hp
  | running =>
    obtain ⟨x, hx⟩ := Option.isSome_iff_exists.1 (hwf.1.1 hp)
    rw [hx]
    exact State.advanceWorker_nearsEnd hp hx
  | ok | failed => simp [Slot.canMove, hp] at hm

end

/-! ### How far a job is from its join -/

/-- The most turns that the workers of a job still take. -/
def State.turnsLeft (codec : Codec) (s : State) : Nat := (s.slots.map (Slot.turnsLeft codec)).sum

theorem sum_map_modify_lt {α : Type} {g : α → Nat} {f : α → α} {l : List α} {i : Nat} {x : α} (h : l[i]? = some x)
    (hlt : g (f x) < g x) : ((l.modify i f).map g).sum < (l.map g).sum := by
  induction l generalizing i with
  | nil => simp at h
  | cons y l ih =>
    cases i with
    | zero =>
      obtain rfl : y = x := by simpa using h
      simpa using hlt
    | succ i => simpa using ih (by simpa using h)

theorem NearsEnd.turnsLeft_lt {codec : Codec} {s t : State} {i : Nat} {sl : Slot} (h : NearsEnd codec s t i sl)
    (hs : s.slots[i]? = some sl) : t.turnsLeft codec < s.turnsLeft codec := by
  obtain ⟨f, hslots, hlt⟩ := h
  rw [State.turnsLeft, hslots]
  exact sum_map_modify_lt hs hlt

theorem State.mem_movable {s : State} {i : Nat} :
    i ∈ s.movable ↔ ∃ sl, s.slots[i]? = some sl ∧ sl.canMove s.params.nEngines s.slots = true := by
  simp only [State.movable, List.mem_filter, List.mem_range]
  constructor
  · rintro ⟨hi, hm⟩
    rw [List.getElem?_eq_getElem hi] at hm
    exact ⟨_, List.getElem?_eq_getElem hi, hm⟩
  · rintro ⟨sl, hs, hm⟩
    obtain ⟨hi, -⟩ := List.getElem?_eq_some_iff.1 hs
    exact ⟨hi, by rw [hs]; exact hm⟩

/-- A running worker can move, and where none runs an engine is free for one that waits: when no worker can move, all have ended. -/
theorem Inv.all_ended_of_movable_nil {s : State} (h : Inv s) (hm : s.movable = []) : s.slots.all Slot.ended = true := by
  have hstuck : ∀ sl ∈ s.slots, sl.canMove s.params.nEngines s.slots = false := by
    intro sl hsl
    obtain ⟨i, hi⟩ := List.mem_iff_getElem?.1 hsl
    rw [← Bool.not_eq_true]
    intro hcan
    have hmem : i ∈ s.movable := State.mem_movable.2 ⟨sl, hi, hcan⟩
    simp [hm] at hmem
  have hnone : runningCount s.slots = 0 := List.countP_eq_zero.2 fun sl hsl => by
    have hsl := hstuck sl hsl
    simp only [Slot.canMove, Bool.or_eq_false_iff] at hsl
    simp [hsl.1]
  obtain ⟨-, -, -, -, hengine, -⟩ := h.legal
  refine List.all_eq_true.2 fun sl hsl => ?_
  have hsl := hstuck sl hsl
  cases hp : sl.phase with
  | pending =>
    have hfull : s.params.nEngines = 0 := by simpa [Slot.canMove, hp, hnone] using hsl
    omega
  | running => simp [Slot.canMove, hp] at hsl
  | ok | failed => simp [Slot.ended, hp]

/-! ### A job whose workers are ready (R288) -/

/-- The sequencer of the job has taken its first step, and the command's workers run the given codec. -/
structure Joins (codec : Codec) (s : State) : Prop where
  inv : Inv s
  phase : s.phase = .running
  stage : s.stage = .join
  command : ∃ L i, s.latch = some L ∧ decode L.cmd = .ok i ∧ codecOf i = some codec

theorem Inv.joins {s : State} (h : Inv s) (hp : s.phase = .running) (hst : s.stage = .join) : ∃ codec, Joins codec s := by
  obtain ⟨L, i, hl, hd, hc⟩ := h.command hp hst
  obtain ⟨codec, hcodec⟩ := Option.isSome_iff_exists.1 hc
  exact ⟨codec, h, hp, hst, L, i, hl, hd, hcodec⟩

section
variable {codec : Codec} {s : State}

theorem Joins.setDraws (h : Joins codec s) (n : Nat) : Joins codec { s with draws := n } := { h with inv := h.inv.setDraws n }

theorem Joins.workerTurn_eq (h : Joins codec s) (k : Nat) : s.workerTurn k = s.workerStep codec k := by
  obtain ⟨L, i, hl, hd, hc⟩ := h.command
  simp [State.workerTurn, h.phase, h.stage, hl, hd, hc]

theorem Joins.workerTurn (h : Joins codec s) (k : Nat) : Joins codec (s.workerTurn k) := by
  have hmove := State.workerStep_move codec s k
  rw [← h.workerTurn_eq] at hmove
  obtain ⟨-, -, -, -, hphase, hstage, hlatch, -⟩ := hmove.frame
  exact ⟨h.inv.workerTurn k, hphase.trans h.phase, hstage.trans h.stage, hlatch ▸ h.command⟩

theorem Joins.workerTurn_turnsLeft_lt (h : Joins codec s) {k : Nat} (hk : k ∈ s.movable) :
    (s.workerTurn k).turnsLeft codec < s.turnsLeft codec := by
  obtain ⟨sl, hs, hm⟩ := State.mem_movable.1 hk
  rw [h.workerTurn_eq]
  exact (State.workerStep_nearsEnd hs (h.inv.slotsWf sl (List.mem_of_getElem? hs)) hm).turnsLeft_lt hs

/-- The engine moves a worker that can move, after a draw where there are several, and the sequencer when there is none. -/
theorem Joins.engineStep_cases (h : Joins codec s) :
    (s.movable = [] ∧ s.engineStep = s.sequencerStep) ∨
      ∃ k n, k ∈ s.movable ∧ s.engineStep = State.workerTurn { s with draws := n } k := by
  unfold State.engineStep
  split
  next hp => exact absurd (h.phase.symm.trans hp) (by simp)
  next hst => exact absurd (h.stage.symm.trans hst) (by simp)
  next =>
    split
    next hm => exact .inl ⟨hm, rfl⟩
    next k hm => exact .inr ⟨k, s.draws, by simp [hm], rfl⟩
    next k j rest hm =>
      have hlt : Config.freeValue s.draws % (k :: j :: rest).length < (k :: j :: rest).length := Nat.mod_lt _ (by simp)
      refine .inr ⟨_, s.draws + 1, ?_, rfl⟩
      rw [hm, List.getD_eq_getElem _ _ hlt]
      exact List.getElem_mem hlt

end

/-! ### Steps of the engine alone (R285, R287) -/

/-- Finitely many steps of the machine end the job: IDLE with DONE = 1. -/
def JobEnds (s : State) : Prop :=
  ∃ (k : Nat) (t : State), Host.Core.run Sys2Proof.core k s = .next t ∧ t.phase = .idle ∧ t.status.done = true

theorem JobEnds.of_engineStep {s : State} (ha : s.agenda = []) (h : JobEnds s.engineStep) : JobEnds s := by
  obtain ⟨k, t, hrun, hend⟩ := h
  exact ⟨k + 1, t, (core_run_succ (step_of_agenda_nil ha) k).trans hrun, hend⟩

/-- Where its rule completes the job, so does the sequencer's step, be the outcome drawn or not (R96). -/
theorem JobEnds.of_sequencerStep {s : State} {L : Latch} (hp : s.phase = .running) (hl : s.latch = some L)
    (h : Completed (s.sequencerRule L)) : JobEnds s.sequencerStep := by
  refine ⟨0, _, rfl, ?_⟩
  simp only [State.sequencerStep, hp, hl]
  split
  next =>
    obtain ⟨-, -, hphase, -, hdone, -⟩ := (s.sequencerRule L).scramble_frame L
    exact ⟨hphase.trans h.phase, hdone.trans h.done⟩
  next => exact ⟨h.phase, h.done⟩

theorem State.engineStep_agenda {s : State} {L : Latch} (hl : s.latch = some L) : s.engineStep.agenda = s.agenda :=
  (State.engineStep_frameKept hl).2.agenda

/-- When all workers have ended, the sequencer's rule completes the job. -/
theorem Joins.sequencerStep_ends {codec : Codec} {s : State} (h : Joins codec s) (hall : s.slots.all Slot.ended = true) :
    JobEnds s.sequencerStep := by
  obtain ⟨L, i, hl, hd, hc⟩ := h.command
  have hrule : s.sequencerRule L = lastStep i L s := by simp [State.sequencerRule, h.stage, hd, hall]
  refine .of_sequencerStep h.phase hl ?_
  rw [hrule]
  exact (lastStep_ending i L s (by simp [hc])).frame.1

/-- The workers' turns run out, and then the sequencer ends the job. -/
theorem Joins.jobEnds {codec : Codec} {s : State} (h : Joins codec s) (ha : s.agenda = []) : JobEnds s := by
  induction hn : s.turnsLeft codec using Nat.strong_induction_on generalizing s with
  | _ n ih =>
    subst hn
    obtain ⟨L, -, hl, -⟩ := h.command
    have hagenda := (State.engineStep_agenda hl).trans ha
    refine .of_engineStep ha ?_
    rcases h.engineStep_cases with ⟨hm, he⟩ | ⟨k, n, hk, he⟩ <;> rw [he] at hagenda ⊢
    · exact h.sequencerStep_ends (h.inv.all_ended_of_movable_nil hm)
    · exact ih _ ((h.setDraws n).workerTurn_turnsLeft_lt hk) ((h.setDraws n).workerTurn k) hagenda rfl

/-- The sequencer's first step ends the job or readies its workers. -/
theorem State.sequencerRule_of_check (s : State) (L : Latch) (hst : s.stage = .check) :
    Completed (s.sequencerRule L) ∨ ∃ chunks staged, s.sequencerRule L = s.ready chunks staged := by
  cases hd : decode L.cmd with
  | error b =>
    rw [show s.sequencerRule L = s.badCommand L.cmd by simp [State.sequencerRule, hst, hd]]
    exact .inl (s.jobFail_completed _)
  | ok i =>
    rw [show s.sequencerRule L = firstStep i L s by simp [State.sequencerRule, hst, hd]]
    exact (firstStep_ending_or_ready i L s).imp (fun he => he.frame.1) And.right

/-- Settles O59: the first step ends the job or readies the workers, whose turns run out. -/
theorem everyJobEnds : Obligations.EveryJobEnds := by
  intro s h hp ha
  obtain ⟨L, hl⟩ := Option.isSome_iff_exists.1 (h.latched.1 hp)
  cases hst : s.stage with
  | join =>
    obtain ⟨codec, hj⟩ := h.joins hp hst
    exact hj.jobEnds ha
  | check =>
    have hengine : s.engineStep = s.sequencerStep := by simp [State.engineStep, hp, hst]
    have hagenda := (State.engineStep_agenda hl).trans ha
    have hinv := h.engineStep
    refine JobEnds.of_engineStep ha ?_
    rw [hengine] at hagenda hinv ⊢
    rcases s.sequencerRule_of_check L hst with hc | ⟨chunks, staged, hready⟩
    · exact .of_sequencerStep hp hl hc
    · have hseq : s.sequencerStep = s.ready chunks staged := by
        simp [State.sequencerStep, hp, hl, hready, State.ready]
      rw [hseq] at hagenda hinv ⊢
      obtain ⟨codec, hj⟩ := hinv.joins hp rfl
      exact hj.jobEnds hagenda

end Sys2Proof.Machine
end

section
/-! PROOF. The common argument checks (R284), and the memory after a job failure (R289). Every command but NOP makes the common checks in
its first step, before anything else, so the raise of `argFault` is the job failure. Of the ways in which a command can end, only an
OUTPUT_OVERFLOW both fails the job and writes memory. -/

namespace Sys2Proof.Machine

/-! ### The common checks (R284) -/

/-- The five checks in their order, each with the raise of the first that fails. -/
theorem argFault_first (m : Nat) (L : Latch) (e : Bool) :
    let srcOk := L.src.addr + L.src.len ≤ m
    let dstOk := L.dst.addr + L.dst.len ≤ m
    let extOk := e = true → L.ext.addr + L.ext.len ≤ m
    (¬srcOk → argFault m L e = some (badArgs 3 0)) ∧
    (srcOk ∧ ¬dstOk → argFault m L e = some (badArgs 3 1)) ∧
    (srcOk ∧ dstOk ∧ ¬extOk → argFault m L e = some (badArgs 3 2)) ∧
    (srcOk ∧ dstOk ∧ extOk ∧ ¬L.dst.Apart L.src → argFault m L e = some (badArgs 4 1)) ∧
    (srcOk ∧ dstOk ∧ extOk ∧ L.dst.Apart L.src ∧ e = true ∧ ¬L.dst.Apart L.ext → argFault m L e = some (badArgs 4 2)) := by
  simp only [← Buffer.valid_eq_true, ← Buffer.overlaps_eq_false, Bool.not_eq_true, Bool.not_eq_false, Classical.not_imp, argFault]
  refine ⟨fun hsrc => ?_, fun ⟨hsrc, hdst⟩ => ?_, fun ⟨hsrc, hdst, he, hext⟩ => ?_, fun ⟨hsrc, hdst, hext, hover⟩ => ?_,
    fun ⟨hsrc, hdst, hext, hapart, he, hover⟩ => ?_⟩
  · simp [hsrc]
  · simp [hsrc, hdst]
  · simp [hsrc, hdst, he, hext]
  · cases e <;> simp [hsrc, hdst, hext, hover]
  · simp [hsrc, hdst, hext, hapart, he, hover]

/-- A command but NOP whose arguments do not pass fails the job in its first step. -/
theorem firstStep_of_argFault {i : Instr} (hi : i ≠ .nop) {s : State} {L : Latch} {r : Raise}
    (h : argFault s.params.memSize L (usesExt i) = some r) : firstStep i L s = s.jobFail r := by
  cases i <;> simp only [usesExt] at h
  case nop => exact absurd rfl hi
  all_goals simp only [firstStep, packJob, unpackJob, oneChunkStart, parEncStart, parDecStart, State.orFail, h]

/-- Settles O32: the raise of the first check that fails is the job failure of the command's first step. -/
theorem commonArgumentChecks : Obligations.CommonArgumentChecks := by
  intro i s L hi h srcOk dstOk extOk failsWith
  have fails {info pos : Nat} (hf : argFault s.params.memSize L (usesExt i) = some (badArgs info pos)) : failsWith info pos :=
    h.exec_of_jobFail (firstStep_of_argFault hi hf)
  obtain ⟨src, dst, ext, dstSrc, dstExt⟩ := argFault_first s.params.memSize L (usesExt i)
  exact ⟨fun hc => fails (src hc), fun hc => fails (dst hc), fun hc => fails (ext hc), fun hc => fails (dstSrc hc),
    fun hc => fails (dstExt hc)⟩

/-! ### The memory after a job failure (R289) -/

/-- An ending that sets JOB_FAIL is a job failure, which writes no memory, or an output that does not fit. -/
theorem Ending.memoryKept_of_jobFail {s t : State} {L : Latch} (h : Ending s L t) (hs : s.status.jobFail = false)
    (ht : t.status.jobFail = true) (hc : t.errs.jobCause ≠ .outputOverflow) : MemoryKept s t := by
  cases h with
  | complete => exact .of_mem_eq rfl
  | fail r _ => exact .of_mem_eq (by simp)
  | deliver out regs _ =>
    by_cases hlen : L.dst.len < out.length
    · rw [s.deliver_overflow L out regs hlen] at hc
      simp at hc
    · obtain ⟨-, -, -, -, -, -, hstatus, -⟩ := s.deliver_fits L out regs (not_lt.1 hlen)
      simp [hstatus, hs] at ht

/-- Settles O37: a command ends from the job's start, or from a state that the workers left, which has the same memory. -/
theorem earlyJobFailureLeavesMemory : Obligations.EarlyJobFailureLeavesMemory := by
  intro i s t L h hexec hfail hcause
  obtain ⟨t', ht, hend⟩ := exec_ending i h.latch
  obtain rfl : t' = t := Host.Outcome.next.inj (ht.symm.trans hexec)
  rcases hend with he | ⟨codec, chunks, staged, he⟩
  · exact he.memoryKept_of_jobFail h.noJobFail hfail hcause
  · have hkept := he.memoryKept_of_jobFail (by simpa [State.ready] using h.noJobFail) hfail hcause
    exact fun a => (hkept a).trans (State.readByte_congr (by simp [State.ready]) a)

end Sys2Proof.Machine
end

section
/-! PROOF. A host write to CMD while IDLE and while BUSY, RUN while BUSY, the polls of WAIT, and NOP. -/

namespace Sys2Proof.Machine

/-! ### A write to CMD (R281, R282) -/

theorem State.writeCmd_of_running {s : State} (hp : s.phase = .running) (v : Word) :
    s.writeCmd v = { s with status := { s.status with overrun := true } } := by
  simp [State.writeCmd, State.busy, hp]

theorem State.writeCmd_of_idle {s : State} (hp : s.phase = .idle) (v : Word) : s.writeCmd v = s.startJob v := by
  simp [State.writeCmd, State.busy, hp]

/-- The turn of the host that writes CMD. -/
theorem step_cmdWrite {s : State} {rest : List Turn} {v : Word} (ha : s.agenda = .host (.csrWrite .word 0x010 v) :: rest) :
    step s = .next (State.writeCmd { s with agenda := rest } v) :=
  step_csrWrite rfl (by decide) ha

theorem step_cmdWrite_of_running {s : State} {rest : List Turn} {v : Word} (hp : s.phase = .running)
    (ha : s.agenda = .host (.csrWrite .word 0x010 v) :: rest) :
    step s = .next { s with agenda := rest, status := { s.status with overrun := true } } :=
  (step_cmdWrite ha).trans (congrArg _ (State.writeCmd_of_running (s := { s with agenda := rest }) hp v))

/-- Settles O17: the write is the job start, and the job's word says what the sequencer's first step is. -/
theorem cmdWriteStartsAJob : Obligations.CmdWriteStartsAJob := by
  intro s rest v hp ha
  have hs := State.startJob_justStarted { s with agenda := rest } v
  have hstep := (step_cmdWrite ha).trans (congrArg _ (State.writeCmd_of_idle (s := { s with agenda := rest }) hp v))
  exact ⟨_, hstep, hs, rfl, rfl, rfl, rfl, rfl, rfl, rfl, fun i hd => hs.sequencerStep_of_ok hd,
    fun b hd => hs.sequencerStep_of_error hd⟩

/-! ### RUN while BUSY and WAIT (R130) -/

theorem step_run_of_running {s : State} {rest : List Turn} {v : Word} (hp : s.phase = .running) (ha : s.agenda = .run v :: rest) :
    step s = .next { s with agenda := .wait :: rest, status := { s.status with overrun := true } } := by
  have hbusy : State.busy { s with agenda := rest } = true := by simp [State.busy, hp]
  have hwrite := State.writeCmd_of_running (s := { s with agenda := rest }) hp v
  rw [step_of_agenda ha, turn, runTurn, if_pos hbusy, hwrite]

/-- DONE is bit 1 of STATUS (R37). -/
theorem State.statusWord_done (s : State) : s.statusWord.getLsbD 1 = s.status.done := (getLsbD_fiveFlags ..).2.1

theorem step_wait_of_done {s : State} {rest : List Turn} (ha : s.agenda = .wait :: rest) (h : s.status.done = true) :
    step s = .next { s with agenda := rest } := by
  rw [step_of_agenda ha, turn, waitTurn, if_pos h]

/-- A poll where DONE is 0 is a step of the engine, and WAIT stays. -/
theorem step_wait_of_not_done {s : State} {rest : List Turn} (ha : s.agenda = .wait :: rest) (h : s.status.done = false) :
    step s = .next { s.engineStep with agenda := .wait :: rest } := by
  rw [step_of_agenda ha, turn, waitTurn, if_neg (by simp [h]), State.engineStep_setAgenda]

/-- Settles O18, clause by clause: the CMD write, RUN, and the two kinds of poll. -/
theorem cmdWriteWhileBusyIsDropped : Obligations.CmdWriteWhileBusyIsDropped := by
  intro s rest
  rw [State.statusWord_done]
  refine ⟨fun v hp ha => step_cmdWrite_of_running hp ha, fun v hp ha => step_run_of_running hp ha, step_wait_of_done, fun ha h => ?_⟩
  exact ⟨_, (step_of_agenda_nil rfl).trans (congrArg _ (s.engineStep_setAgenda [])), step_wait_of_not_done ha h⟩

/-! ### NOP (R286) -/

theorem Instr.eq_nop_of_opcode {i : Instr} (h : i.opcode = 0) : i = .nop := by
  cases i with
  | nop => rfl
  | _ => cases h

/-- The word of NOP is 0, and 0 alone (R116). -/
theorem decode_eq_ok_nop {v : Word} : decode v = .ok .nop ↔ v = 0 :=
  decode_eq_ok_iff.trans (Instr.inWord_iff rfl)

/-- Settles O25: the one word of NOP is 0, and right after the job start every register that NOP must leave 0 is 0. -/
theorem nopOnlyCompletes : Obligations.NopOnlyCompletes := by
  refine ⟨fun v hop => ?_, fun s L h => ?_⟩
  · cases hd : decode v with
    | ok i =>
      obtain ⟨-, hopcode, -⟩ := decode_eq_ok_iff.1 hd
      obtain rfl := Instr.eq_nop_of_opcode (hopcode.symm.trans hop)
      exact .inl ⟨decode_eq_ok_nop.1 hd, rfl⟩
    | error b =>
      refine .inr ⟨fun hv => ?_, b, rfl⟩
      rw [decode_eq_ok_nop.2 hv] at hd
      cases hd
  · exact ⟨s.complete, rfl, s.complete_completed, h.res, h.errs, h.noErr, h.noJobFail, .of_mem_eq rfl, s.complete_host⟩

end Sys2Proof.Machine
end

section
/-! PROOF. The interrupt line (R317), and the engine while IDLE (R328). -/

namespace Sys2Proof.Machine

/-! ### The interrupt line (R317) -/

/-- ERR is bit 2 of STATUS (R38). -/
theorem State.statusWord_err (s : State) : s.statusWord.getLsbD 2 = s.status.err := (getLsbD_fiveFlags ..).2.2.1

/-- DONE_IE and ERR_IE are bits 0 and 1 of IRQ_EN (R41). -/
theorem IrqEnable.getLsbD_word (e : IrqEnable) : e.word.getLsbD 0 = e.doneIe ∧ e.word.getLsbD 1 = e.errIe := by
  obtain ⟨d, r⟩ := e
  revert d r
  decide

/-- Settles O7: the four bits are the flags and the enables that IRQ is made of. -/
theorem irqFollowsStatusAndEnables : Obligations.IrqFollowsStatusAndEnables := by
  intro s
  obtain ⟨hdone, herr⟩ := s.irqEn.getLsbD_word
  rw [s.statusWord_done, s.statusWord_err, hdone, herr, State.irq]

/-! ### The engine while IDLE (R328) -/

theorem State.engineStep_of_idle {s : State} (hp : s.phase = .idle) : s.engineStep = s := by
  simp [State.engineStep, hp]

theorem State.sequencerStep_of_idle {s : State} (hp : s.phase = .idle) : s.sequencerStep = s := by
  simp [State.sequencerStep, hp]

theorem State.workerTurn_of_idle {s : State} (hp : s.phase = .idle) (i : Nat) : s.workerTurn i = s := by
  simp [State.workerTurn, hp]

/-- Settles O21: an empty agenda, a turn of the sequencer, a turn of a worker. -/
theorem idleEngineDoesNothing : Obligations.IdleEngineDoesNothing := by
  intro s rest hp
  refine ⟨fun ha => ?_, fun ha => ?_, fun k ha => ?_⟩
  · rw [step_of_agenda_nil ha, State.engineStep_of_idle hp]
  · rw [step_of_agenda ha, turn, State.sequencerStep_of_idle (s := { s with agenda := rest }) hp]
  · rw [step_of_agenda ha, turn, State.workerTurn_of_idle (s := { s with agenda := rest }) hp]

end Sys2Proof.Machine
end

section
/-! PROOF. The state after reset, and what the host can do to a job and to its results. An access of the host is a CSR write, or touches
only the data memory, its mark on the job, and what the host has read; of the CSR writes, those to CTRL and CMD alone reset the block or
start a job. -/

namespace Sys2Proof.Machine

/-! ### What an access of the host can do (R280, R356) -/

/-- An access that has a meaning writes a register, or leaves everything but the memory, the mark of R96, the host's last read and the
number of draws. -/
theorem State.hostStep_cases {s t : State} {a : HostAccess} (h : s.hostStep a = .next t) :
    (∃ off v, a = .csrWrite .word off v ∧ off % 4 = 0 ∧ off < 4096 ∧ t = s.csrWrite v (csrAt off)) ∨
    ∃ tainted m read n, t = { s with tainted := tainted, mem := m, hostRead := read, draws := n } := by
  cases a with
  | csrWrite size off v =>
    simp only [State.hostStep] at h
    split at h
    next => cases h
    next hr =>
      obtain ⟨rfl, h4, hlt⟩ := csrRefusal_eq_none.1 hr
      exact .inl ⟨off, v, rfl, h4, hlt, (Host.Outcome.next.inj h).symm⟩
  | csrRead size off =>
    simp only [State.hostStep] at h
    split at h <;> cases h
    exact .inr ⟨_, _, _, _, rfl⟩
  | memWrite a bytes =>
    simp only [State.hostStep, State.hostMemWrite] at h
    split at h <;> cases h
    exact .inr ⟨_, _, _, _, rfl⟩
  | memRead a =>
    simp only [State.hostStep, State.hostMemRead] at h
    split_ifs at h <;> cases h
    · exact .inr ⟨_, _, _, _, rfl⟩
    · exact .inr ⟨_, _, _, _, rfl⟩

/-- A register that is not reserved stands at its own offset alone (R32). -/
theorem eq_offset_of_csrAt {off : Nat} {c : Csr} (h4 : off % 4 = 0) (h : off < 4096) (hc : csrAt off = c) (hr : c ≠ .reserved) :
    off = c.offset := by
  subst hc
  exact (offset_csrAt h4 h hr).symm

/-! ### A running job (R356, R357) -/

/-- Settles O23: while BUSY a CSR write is a reset or changes STATUS and IRQ_EN at most, and no other access changes a register. -/
theorem hostCannotStopARunningJob : Obligations.HostCannotStopARunningJob := by
  intro s t a rest hp ha hstep hreset
  rw [step_of_agenda ha] at hstep
  rcases State.hostStep_cases hstep with ⟨off, v, rfl, h4, hlt, rfl⟩ | ⟨tainted, m, read, n, rfl⟩
  · rcases State.csrWrite_of_running (s := { s with agenda := rest }) hp v (csrAt off) with ⟨hc, hv, -⟩ | ⟨st, e, hw, -⟩
    · obtain rfl : off = 0x004 := eq_offset_of_csrAt h4 hlt hc (by decide)
      cases hv.symm.trans (hreset v rfl)
    · rw [hw]
      exact ⟨hp, rfl, rfl, rfl, rfl, rfl⟩
  · exact ⟨hp, rfl, rfl, rfl, rfl, rfl⟩

/-! ### The results of the last job (R359) -/

/-- While IDLE a write to any register but CTRL and CMD changes STATUS, IRQ_EN and the arguments at most. -/
theorem State.csrWrite_of_idle {s : State} (hp : s.phase = .idle) (v : Word) {c : Csr} (hctrl : c ≠ .ctrl) (hcmd : c ≠ .cmd) :
    ∃ st e x, s.csrWrite v c = { s with status := st, irqEn := e, args := x } := by
  cases c with
  | ctrl => exact absurd rfl hctrl
  | cmd => exact absurd rfl hcmd
  | status | irqEn => exact ⟨_, _, _, rfl⟩
  | srcAddr | srcLen | dstAddr | dstCap | extAddr | extLen | nbitsIn =>
    rw [State.csrWrite_arg s v rfl, State.writeArgs_of_idle hp]
    exact ⟨_, _, _, rfl⟩
  | _ => exact ⟨s.status, s.irqEn, s.args, rfl⟩

/-- The block is IDLE with the results and errors of before. -/
structure ResultsKept (s t : State) : Prop where
  res : t.res = s.res
  errs : t.errs = s.errs
  idle : t.phase = .idle

theorem ResultsKept.of_hostStep {s t : State} {a : HostAccess} (hp : s.phase = .idle) (h : s.hostStep a = .next t)
    (hctrl : ∀ v, a ≠ .csrWrite .word 0x004 v) (hcmd : ∀ v, a ≠ .csrWrite .word 0x010 v) : ResultsKept s t := by
  rcases State.hostStep_cases h with ⟨off, v, rfl, h4, hlt, rfl⟩ | ⟨tainted, m, read, n, rfl⟩
  · have hnoReset : csrAt off ≠ .ctrl := fun hc => hctrl v (by rw [eq_offset_of_csrAt h4 hlt hc (by decide)]; rfl)
    have hnoStart : csrAt off ≠ .cmd := fun hc => hcmd v (by rw [eq_offset_of_csrAt h4 hlt hc (by decide)]; rfl)
    obtain ⟨st, e, x, hw⟩ := State.csrWrite_of_idle hp v hnoReset hnoStart
    rw [hw]
    exact ⟨rfl, rfl, hp⟩
  · exact ⟨rfl, rfl, hp⟩

/-- While IDLE the engine does nothing (R328), and a poll of WAIT at most asks for another. -/
theorem ResultsKept.of_step {s t : State} (hp : s.phase = .idle) (h : step s = .next t)
    (hrun : ∀ v rest, s.agenda ≠ .run v :: rest) (hctrl : ∀ v rest, s.agenda ≠ .host (.csrWrite .word 0x004 v) :: rest)
    (hcmd : ∀ v rest, s.agenda ≠ .host (.csrWrite .word 0x010 v) :: rest) : ResultsKept s t := by
  have same (turns : List Turn) : ResultsKept s { s with agenda := turns } := ⟨rfl, rfl, hp⟩
  obtain ⟨hnil, -, -⟩ := idleEngineDoesNothing s [] hp
  cases ha : s.agenda with
  | nil =>
    obtain rfl := Host.Outcome.next.inj ((hnil ha).symm.trans h)
    exact ⟨rfl, rfl, hp⟩
  | cons x rest =>
    obtain ⟨-, hseq, hworker⟩ := idleEngineDoesNothing s rest hp
    cases x with
    | host a =>
      rw [step_of_agenda ha] at h
      obtain ⟨hres, herrs, hidle⟩ := ResultsKept.of_hostStep (s := { s with agenda := rest }) hp h
        (fun v hv => hctrl v rest (by rw [ha, hv])) (fun v hv => hcmd v rest (by rw [ha, hv]))
      exact ⟨hres, herrs, hidle⟩
    | sequencer =>
      obtain rfl := Host.Outcome.next.inj ((hseq ha).symm.trans h)
      exact same rest
    | worker k =>
      obtain rfl := Host.Outcome.next.inj ((hworker k ha).symm.trans h)
      exact same rest
    | run v => exact absurd ha (hrun v rest)
    | wait =>
      cases hd : s.status.done with
      | true =>
        obtain rfl := Host.Outcome.next.inj ((step_wait_of_done ha hd).symm.trans h)
        exact same rest
      | false =>
        obtain rfl := Host.Outcome.next.inj ((step_wait_of_not_done ha hd).symm.trans h)
        rw [State.engineStep_of_idle hp]
        exact same (.wait :: rest)

/-- RUN of the word 0 while IDLE is a NOP: the job start, then the completion. -/
theorem step_runNop_of_idle {s : State} {rest : List Turn} (hp : s.phase = .idle) (ha : s.agenda = .run 0 :: rest) :
    step s = .next (State.startJob { s with agenda := rest } 0).complete :=
  (step_run_of_idle hp ha).trans (runCommand_of_ok (decode_eq_ok_nop.2 rfl) _)

/-- Settles O22: no turn but RUN, and no access but a write to CTRL or CMD, resets or starts a job, and the job start of a NOP clears the
registers. -/
theorem resultsPersistUntilTheNextJob : Obligations.ResultsPersistUntilTheNextJob := by
  intro s t hp hstep
  refine ⟨fun hrun hctrl hcmd => ?_, fun rest ha => ?_⟩
  · obtain ⟨hres, herrs, hidle⟩ := ResultsKept.of_step hp hstep hrun hctrl hcmd
    exact ⟨hres, herrs, hidle⟩
  · obtain rfl := Host.Outcome.next.inj ((step_runNop_of_idle hp ha).symm.trans hstep)
    exact ⟨rfl, rfl, rfl⟩

/-! ### The state after reset (R351, R352) -/

/-- Settles O1: every register but ID has the reset value 0, and ID stands at offset 0 alone. -/
theorem resetValues : Obligations.ResetValues := by
  refine ⟨fun s off h4 h hr => ?_, fun p => ⟨fun off h h4 => ?_, rfl, rfl, rfl, rfl, rfl, rfl⟩⟩
  · rw [csrAt_of_reserved h4 h hr]
    rfl
  · rw [State.csrRead_of_resetValues rfl rfl rfl rfl rfl rfl rfl]
    have hid : csrAt off = .id ↔ off = 0 :=
      ⟨fun hc => eq_offset_of_csrAt h4 h hc (by decide), by rintro rfl; rfl⟩
    simp only [hid]

/-- Settles O55: after reset no job runs, and what the invariant asks at all times holds of empty memory, no slot and PROGRESS 0. -/
theorem resetMeetsTheInvariant : Obligations.ResetMeetsTheInvariant := by
  intro p hp
  have hsound : Sound (State.resetWith p) :=
    { legal := hp
      memSorted := rfl
      memBelow := rfl
      progress := Nat.zero_le _
      slotCount := Nat.zero_le _
      engines := Nat.zero_le _
      slotsWf := fun _ hsl => absurd hsl List.not_mem_nil }
  exact hsound.inv_of_idle rfl rfl

end Sys2Proof.Machine
end
